-- ==== Sys2Proof/Word.lean ====
section
/-! DEFINITION. The word types of the block and the plain data its operations carry: bytes, the sparse
byte memory, exact reals, stereo frames, and a channel's decode state. -/

namespace Sys2Proof

/-- A byte, `0..255` (R15). -/
abbrev Byte := BitVec 8

/-- A byte memory: the addresses that hold something other than what an unlisted address reads as
(`Memory.default`, 0), in rising order. One type serves the register image, the RAM (through the byte
view of R86) and the ROM. -/
abbrev Memory := List Host.Cell

/-- What an address no entry lists reads as. Registers and RAM are all zero after Init (R62), and a ROM
byte that is zero is simply not listed. -/
abbrev Memory.default : Byte := 0

/-- A real number the host gives: a gain or a route volume (R245, R246). A rational stands for itself. Any other
real is the host's `k`-th number or its negative; the size of that number is free, any positive real
(`Config.hostWhole`, `Config.hostBit`, `Config.hostShift`; assumption 6). -/
inductive HostReal where
  | rat (q : Rat)
  | named (negative : Bool) (k : Nat)
  deriving DecidableEq, Repr

/-- A factor that the host's `k`-th number brings into a product: its size, or, for a gain resolved with it, the
product `num / den * 10^(-tens/320) * sqrt rad * size` after the cap of R173. No factor is negative. -/
inductive Factor where
  | size (k : Nat)
  | capped (num den tens rad k : Nat)
  deriving DecidableEq, Repr

/-- One real number of the form `coeff * 10^(-tens/320) * sqrt rad`, times its factors. Every entry of the two
tables (R57, R58), every resolved gain (R173) and every contribution of a channel (R187) has this form; there are
factors only where the host gave a number that is not written as a rational. In normal form `tens < 160`, `rad`
is squarefree and positive, and zero is `0 * 10^0 * sqrt 1`. -/
structure Monomial where
  coeff : Rat
  tens : Nat
  rad : Nat
  factors : List Factor
  deriving DecidableEq, Repr

/-- An exact real (R20): a sum of monomials in normal form with pairwise different `(tens, rad, factors)`, in
rising order of `(tens, rad)`, none with coefficient 0. -/
structure ExactReal where
  terms : List Monomial
  deriving DecidableEq, Repr

/-- One stereo pair of signed 16-bit samples (R24, R222). -/
structure Frame where
  left : Int
  right : Int
  deriving DecidableEq, Repr

/-- The persistent decode state of one channel (R43, R44, R45). `pos` is the untruncated position, `pfrac`
a u16, `val` and `pval` are s16; the ranges are the invariant of R60. -/
structure ChanState where
  pos : Int
  pfrac : Nat
  val : Int
  pval : Int
  deriving DecidableEq, Repr

/-- The two behaviour flags (R49). -/
structure Flags where
  updateAtKeyon : Bool
  reverbDisable : Bool
  deriving DecidableEq, Repr

/-- The host parameters of R14, opaque to the core; they enter only through `Config.nativeTicks`. -/
structure HostParams where
  frameRate : Nat
  bufferLength : Nat
  audioRate : Nat
  deriving DecidableEq, Repr

/-- The position bytes a channel's latch holds; index 0 is the low byte (R46). -/
abbrev PosLatch := Vector Byte 3

end Sys2Proof
end

