-- ==== Sys2Proof/Config.lean ====
section
/-! DEFINITION. What an implementation fixes: the fixed sizes of R8, the named parameters of
`92_eei_decisions.md` with their decided defaults, and, without a body, the functions the spec leaves open. -/

namespace Sys2Proof.Config

/-- `MAX_CHIPS`, default 2 (R9, decision D31). -/
abbrev maxChips : Nat := 2

/-- `NUM_CH` (R8). -/
abbrev numCh : Nat := 8

/-- `REG_SIZE`, the number of register bytes (R8). -/
abbrev regSize : Nat := 0x230

/-- `RING_LEN`, the number of reverb ring slots (R8). -/
abbrev ringLen : Nat := 8192

/-- `RAM_BASE_SAMPLES` (R8). -/
abbrev ramBaseSamples : Nat := 0x4000

/-- `ZONE_RAM_LIMIT` in bytes (R8). -/
abbrev zoneRamLimit : Nat := 0x4000

/-- `ZONE_ROM_LIMIT` in bytes per ROM bank (R8). -/
abbrev zoneRomLimit : Nat := 0x20000

/-- `VOL_CAP`, 1.80 (R8). -/
def volCap : Rat := 9 / 5

/-- `FMT_LO` (R13, decision D4); the format field is the two bits `FMT_HI:FMT_LO`. -/
def fmtLo : Nat := 2

/-- `REV_BIT` of the first mode byte (R13, decision D4). -/
def revBit : Nat := 5

/-- `LOOPDIS_BIT` of the second mode byte (R13, decision D4). -/
def loopDisBit : Nat := 0

/-- The lowest code of `PAN_A` (R13, decision D5); the range holds 15 codes. -/
def panA : Nat := 0x81

/-- The lowest code of `PAN_B` (R13, decision D5); the range holds 15 codes. -/
def panB : Nat := 0x11

/-- `DPCM_EVEN_IS_HIGH`, default true (R182, decision D13). -/
def dpcmEvenIsHigh : Bool := true

/-- `FLAG_UPDATE_AT_KEYON` where the host gives none, 1 (R11, decision D20). -/
def flagUpdateAtKeyon : Bool := true

/-- `FLAG_REVERB_DISABLE` where the host gives none, 0 (R11, decision D20). -/
def flagReverbDisable : Bool := false

/-- `RESET_CLEARS_RAM`, default false (R280, decision D19). -/
def resetClearsRam : Bool := false

/-- `ROUTE_SOURCE`, default `[L, R]` (R205, decision D16): the mix that route `r` carries. -/
def routeSource {α : Type} (l r : α) (route : Fin 2) : α := if route = 0 then l else r

/-- The byte read at a masked ROM address at or above `romSize`: any value (R83, U1). -/
opaque romGap : Nat → Byte

/-- The size of the host's `k`-th number, any positive real (R245, R246), is
`(hostWhole k + 1 + 0.b b b …) / 2^(hostShift k)` with the binary digits `hostBit k 0, hostBit k 1, …`. The three
functions are free (assumption 6). -/
opaque hostWhole : Nat → Nat

/-- The binary digits after the point of the host's `k`-th number, before its shift. Free. -/
opaque hostBit : Nat → Nat → Bool

/-- The binary places by which the host's `k`-th number is shifted down. Free. -/
opaque hostShift : Nat → Nat

/-- The cap of R217 (c) less 1: open (decision D18). -/
opaque capTicksBase : Nat → HostParams → Nat

/-- The tick count of R217 before its required properties are imposed: open (decision D18). -/
opaque nativeTicksBase : Nat → HostParams → Nat → Nat

/-- `capTicks(clockHz, hostParams)` (R217 (c)); positive, as R217 (b) and (c) together require. -/
def capTicks (clockHz : Nat) (hp : HostParams) : Nat := capTicksBase clockHz hp + 1

/-- `nativeTicks(clockHz, hostParams, M)` (R217): open but for its properties (a) to (d). -/
def nativeTicks (clockHz : Nat) (hp : HostParams) (m : Nat) : Nat :=
  if m = 0 then min (nativeTicksBase clockHz hp m) (capTicks clockHz hp)
  else min (nativeTicksBase clockHz hp m + 1) (capTicks clockHz hp)

end Sys2Proof.Config
end

