-- ==== Sys2Proof/Syntax.lean ====
section
/-! DEFINITION. The operations of the block: one constructor of `Instr` per row of the opcode table (R128),
and the request by which the host presents an operation to the block. -/

namespace Sys2Proof

/-- The four sample formats the mode byte selects (R122). -/
inductive SampleFormat where
  | pcm8
  | pcm16
  | dpcm4
  | none
  deriving DecidableEq, Repr

/-- A snapshot: the tuple of values of R231. `ramSamples` is the length of the saved RAM, whose bytes `ram`
holds in the byte view of R86. -/
structure Snapshot where
  posLatch : Vector PosLatch 8
  regs : Memory
  ramSamples : Nat
  ram : Memory
  chan : Vector ChanState 8
  flags : Flags
  reverbCursor : Nat
  zoneCursor : Nat
  zoneLimit : Nat
  deriving DecidableEq, Repr

/-- The operations (R2, R110, R128). `chip` is the chip index of R248 and may be any number: the operation
itself checks it (R255). -/
inductive Instr where
  /-- `WR.POS0` (R141): write the low position byte of channel `c`. -/
  | wrPos0 (chip : Nat) (c : Fin 8) (data : Byte)
  /-- `WR.POS1` (R141). -/
  | wrPos1 (chip : Nat) (c : Fin 8) (data : Byte)
  /-- `WR.POS2` (R141). -/
  | wrPos2 (chip : Nat) (c : Fin 8) (data : Byte)
  /-- `WR.APAN` (R143): write `0x13F`. -/
  | wrApan (chip : Nat) (data : Byte)
  /-- `WR.KON` (R144): write `0x214`. -/
  | wrKon (chip : Nat) (data : Byte)
  /-- `WR.KOFF` (R145): write `0x215`. -/
  | wrKoff (chip : Nat) (data : Byte)
  /-- `WR.KSTAT` (R148): write `0x22C`. -/
  | wrKstat (chip : Nat) (data : Byte)
  /-- `WR.SDATA` (R146): write `0x22D`. -/
  | wrSdata (chip : Nat) (data : Byte)
  /-- `WR.ZONE` (R147): write `0x22E`. -/
  | wrZone (chip : Nat) (data : Byte)
  /-- `WR.CTRL` (R148): write `0x22F`. -/
  | wrCtrl (chip : Nat) (data : Byte)
  /-- `WR.MODE` (R148): write the first or the second mode byte of channel `c`. -/
  | wrMode (chip : Nat) (c : Fin 8) (second : Bool) (data : Byte)
  /-- `WR.CHAN` (R148): write byte `field` of channel `c`'s block, other than a position byte. -/
  | wrChan (chip : Nat) (c : Fin 8) (field : BitVec 5) (data : Byte)
  /-- `WR.PLAIN` (R148): write any remaining offset. -/
  | wrPlain (chip : Nat) (offset : BitVec 10) (data : Byte)
  /-- `RD.SDATA` (R151): read `0x22D`. -/
  | rdSdata (chip : Nat)
  /-- `RD.PLAIN` (R152): read any other offset. -/
  | rdPlain (chip : Nat) (offset : BitVec 10)
  /-- `FMT.PCM8` (R177): the 8-bit decode form on channel `c`, `rev` being `m[REV_BIT]`. -/
  | fmtPcm8 (chip : Nat) (c : Fin 8) (rev : Bool)
  /-- `FMT.PCM16` (R180). -/
  | fmtPcm16 (chip : Nat) (c : Fin 8) (rev : Bool)
  /-- `FMT.DPCM4` (R183). -/
  | fmtDpcm4 (chip : Nat) (c : Fin 8) (rev : Bool)
  /-- `FMT.NONE` (R184): uses no operand. -/
  | fmtNone (chip : Nat) (c : Fin 8)
  /-- `INIT` (R240). -/
  | init (chip clockHz : Nat) (rom : List Byte) (romLen : Nat) (updateAtKeyon reverbDisable : Bool)
  /-- `EXIT` (R244): applies to every instance. -/
  | exit
  /-- `RESET` (R280). -/
  | reset (chip : Nat)
  /-- `SETGAIN` (R245). -/
  | setgain (chip channel : Nat) (gain : HostReal)
  /-- `SETROUTE` (R246). -/
  | setroute (chip route : Nat) (volume : HostReal) (mask : Nat)
  /-- `SETPANCB` (R247): `registered` says whether the host gives a function or none. -/
  | setpancb (chip : Nat) (registered : Bool)
  /-- `UPDATE` (R215): mix `count` frames into the host's buffer `out`. -/
  | update (chip : Nat) (out : List Frame) (count : Nat) (host : HostParams)
  /-- `SNAPSHOT` (R230). -/
  | snapshot (chip : Nat)
  /-- `RESTORE` (R233). -/
  | restore (chip : Nat) (data : Snapshot)
  /-- `TICK` (R200): one native sample period. -/
  | tick (chip : Nat)
  /-- `CHTICK` (R170): the part of a tick that belongs to channel `c`. -/
  | chtick (chip : Nat) (c : Fin 8)
  /-- `KEYON` (R154). -/
  | keyon (chip : Nat) (c : Fin 8)
  /-- `KEYOFF` (R155). -/
  | keyoff (chip : Nat) (c : Fin 8)
  deriving DecidableEq, Repr

/-- The operation word in its format (R110): the 19-bit bus word `T` (R111), a mode byte (R122), and the
`HOST` and `INT` selectors (R112). -/
inductive OpWord where
  | bus (t : BitVec 19)
  | mode (m : Byte)
  | host (h : BitVec 4)
  | int (i : BitVec 2)
  deriving DecidableEq, Repr

/-- The arguments that come beside a word: the spec gives named operations "their own arguments" (R110) and
no layout, so they are the values themselves. An operation reads the fields that are its own; the others
are ignored. The two straps of Init may be left out (R11, R126, R240). -/
structure OpArgs where
  channel : Fin 8 := 0
  clockHz : Nat := 0
  rom : List Byte := []
  romLen : Nat := 0
  updateAtKeyon : Option Bool := none
  reverbDisable : Option Bool := none
  index : Nat := 0
  amount : HostReal := .rat 0
  mask : Nat := 0
  registered : Bool := false
  out : List Frame := []
  count : Nat := 0
  host : HostParams := ⟨0, 0, 0⟩
  data : Snapshot :=
    { posLatch := Vector.replicate 8 (Vector.replicate 3 0), regs := [], ramSamples := 0, ram := [],
      chan := Vector.replicate 8 ⟨0, 0, 0, 0⟩, flags := ⟨false, false⟩, reverbCursor := 0, zoneCursor := 0,
      zoneLimit := 0 }
  deriving DecidableEq, Repr

/-- One operation as the host presents it: the instance it goes to (R111: the chip index is not part of the
word), the word, and the arguments beside it. -/
structure Request where
  chip : Nat
  word : OpWord
  args : OpArgs := {}
  deriving DecidableEq, Repr

end Sys2Proof
end

