-- ==== Sys2Proof/WellFormed.lean ====
section
/-! DEFINITION. Which terms of `Instr` are operations of the spec: the offset operands lie where the row
of the opcode table says (R115, R116), and a host buffer holds signed 16-bit samples (R215). Ranges
the spec makes a fault (chip index, channel, route, mask, gain) are not conditions here. -/

namespace Sys2Proof

/-- Byte `field` of a channel block is not one of the position bytes `+0x0C..+0x0E` (R114). -/
def isChanField (field : BitVec 5) : Bool := field.toNat < 0x0C || 0x0E < field.toNat

/-- The offsets of `WR.PLAIN` (R115). -/
def isPlainOffset (offset : BitVec 10) : Bool :=
  let o := offset.toNat
  (0x100 ≤ o && o < 0x13F) || (0x140 ≤ o && o < 0x200) || (0x210 ≤ o && o < 0x214) ||
    (0x216 ≤ o && o < 0x22C)

/-- The offsets of `RD.PLAIN` (R116). -/
def isReadOffset (offset : BitVec 10) : Bool := offset.toNat < 0x230 && offset.toNat != 0x22D

/-- `-32768..32767` (R16). -/
def isS16 (v : Int) : Bool := -32768 ≤ v && v ≤ 32767

/-- Both sides of a frame are s16 (R222). -/
def Frame.isS16 (f : Frame) : Bool := Sys2Proof.isS16 f.left && Sys2Proof.isS16 f.right

/-- The well-formed operations. -/
def Instr.wellFormed : Instr → Bool
  | .wrChan _ _ field _ => isChanField field
  | .wrPlain _ offset _ => isPlainOffset offset
  | .rdPlain _ offset => isReadOffset offset
  | .update _ out _ _ => out.all Frame.isS16
  | .wrPos0 _ _ _ | .wrPos1 _ _ _ | .wrPos2 _ _ _ | .wrApan _ _ | .wrKon _ _ | .wrKoff _ _ | .wrKstat _ _
  | .wrSdata _ _ | .wrZone _ _ | .wrCtrl _ _ | .wrMode _ _ _ _ | .rdSdata _ | .fmtPcm8 _ _ _
  | .fmtPcm16 _ _ _ | .fmtDpcm4 _ _ _ | .fmtNone _ _ | .init _ _ _ _ _ _ | .exit | .reset _
  | .setgain _ _ _ | .setroute _ _ _ _ | .setpancb _ _ | .snapshot _ | .restore _ _ | .tick _
  | .chtick _ _ | .keyon _ _ | .keyoff _ _ => true

end Sys2Proof
end

