-- ==== Sys2Proof/Decode.lean ====
section
/-! DEFINITION. Decoding a request into an operation (R111 to R116, R122), total and rejecting by name, and
the encoder. -/

namespace Sys2Proof

/-- Why a request is no operation. -/
inductive DecodeError where
  /-- The bus word's offset is above `0x22F` (R111, R258). -/
  | badOffset (offset : BitVec 10)
  /-- `HOST` selectors 9 to 15 name no operation (R112). -/
  | noOperation (selector : BitVec 4)
  /-- The output buffer holds something other than s16 frames (R215, R222). -/
  | notFrames
  deriving DecidableEq, Repr

/-! ### Fields of the words -/

/-- `T[18]`: 1 is a write (R111). -/
def busWrite (t : BitVec 19) : Bool := t.getLsbD 18

/-- `T[17:8]` (R111). -/
def busOffset (t : BitVec 19) : BitVec 10 := t.extractLsb' 8 10

/-- `T[7:0]` (R111). -/
def busData (t : BitVec 19) : Byte := t.extractLsb' 0 8

/-- The bus word with the given fields (R111). -/
def busWord (write : Bool) (offset : BitVec 10) (data : Byte) : BitVec 19 :=
  BitVec.ofBool write ++ offset ++ data

/-- The two-bit format field `m[FMT_HI:FMT_LO]` (R122). -/
def modeFormat (m : Byte) : SampleFormat :=
  match (m.extractLsb' Config.fmtLo 2).toNat with
  | 0 => .pcm8
  | 1 => .pcm16
  | 2 => .dpcm4
  | _ => .none

/-- `m[REV_BIT]` (R122). -/
def modeRev (m : Byte) : Bool := m.getLsbD Config.revBit

/-- The mode byte with the given fields, its bits without function 0. -/
def modeByte (format : BitVec 2) (rev : Bool) : Byte :=
  (format.zeroExtend 8 <<< Config.fmtLo) ||| ((BitVec.ofBool rev).zeroExtend 8 <<< Config.revBit)

/-- The offset of byte `field` of channel `c`'s block, `0x20 * c + field` (R32). -/
def chanOffset (c : Fin 8) (field : BitVec 5) : BitVec 10 := BitVec.ofNat 10 (0x20 * c.val + field.toNat)

/-- The offset of a mode byte, `0x200 + 2 * c` or the one above it (R33). -/
def modeOffset (c : Fin 8) (second : Bool) : BitVec 10 := BitVec.ofNat 10 (0x200 + 2 * c.val + second.toNat)

/-! ### Decoding -/

/-- A write into the channel blocks, offsets `0x000..0x0FF` (R113, R114, R115): `c = offset[7:5]` and the
byte in the block is `offset[4:0]`. -/
def decodeBlockWrite (chip : Nat) (offset : BitVec 10) (data : Byte) : Instr :=
  let c : Fin 8 := (offset.extractLsb' 5 3).toFin
  let field : BitVec 5 := offset.extractLsb' 0 5
  if field = 0x0C then .wrPos0 chip c data
  else if field = 0x0D then .wrPos1 chip c data
  else if field = 0x0E then .wrPos2 chip c data
  else .wrChan chip c field data

/-- A write at `offset` (R113, R115). The state-dependent case 1 of R113 (latching) is part of the meaning
of the position writes. -/
def decodeWrite (chip : Nat) (offset : BitVec 10) (data : Byte) : Except DecodeError Instr :=
  if offset.toNat < 0x100 then .ok (decodeBlockWrite chip offset data)
  else if offset = 0x13F then .ok (.wrApan chip data)
  else if offset = 0x214 then .ok (.wrKon chip data)
  else if offset = 0x215 then .ok (.wrKoff chip data)
  else if offset = 0x22C then .ok (.wrKstat chip data)
  else if offset = 0x22D then .ok (.wrSdata chip data)
  else if offset = 0x22E then .ok (.wrZone chip data)
  else if offset = 0x22F then .ok (.wrCtrl chip data)
  else if 0x200 ≤ offset.toNat ∧ offset.toNat < 0x210 then
    .ok (.wrMode chip (offset.extractLsb' 1 3).toFin (offset.getLsbD 0) data)
  else if offset.toNat < 0x230 then .ok (.wrPlain chip offset data)
  else .error (.badOffset offset)

/-- A read at `offset` (R116). -/
def decodeRead (chip : Nat) (offset : BitVec 10) : Except DecodeError Instr :=
  if offset = 0x22D then .ok (.rdSdata chip)
  else if offset.toNat < 0x230 then .ok (.rdPlain chip offset)
  else .error (.badOffset offset)

/-- A bus word (R111). -/
def decodeBus (chip : Nat) (t : BitVec 19) : Except DecodeError Instr :=
  if busWrite t then decodeWrite chip (busOffset t) (busData t) else decodeRead chip (busOffset t)

/-- A mode byte at the tick of channel `c` (R122). -/
def decodeMode (chip : Nat) (c : Fin 8) (m : Byte) : Instr :=
  match modeFormat m with
  | .pcm8 => .fmtPcm8 chip c (modeRev m)
  | .pcm16 => .fmtPcm16 chip c (modeRev m)
  | .dpcm4 => .fmtDpcm4 chip c (modeRev m)
  | .none => .fmtNone chip c

/-- A named host operation (R112), with its own arguments (R110). A strap that Init is not given takes its
default (R11, R49, R240). -/
def decodeHost (chip : Nat) (h : BitVec 4) (a : OpArgs) : Except DecodeError Instr :=
  match h.toNat with
  | 0 =>
    .ok (.init chip a.clockHz a.rom a.romLen (a.updateAtKeyon.getD Config.flagUpdateAtKeyon)
      (a.reverbDisable.getD Config.flagReverbDisable))
  | 1 => .ok .exit
  | 2 => .ok (.reset chip)
  | 3 => .ok (.setgain chip a.index a.amount)
  | 4 => .ok (.setroute chip a.index a.amount a.mask)
  | 5 => .ok (.setpancb chip a.registered)
  | 6 => if a.out.all Frame.isS16 then .ok (.update chip a.out a.count a.host) else .error .notFrames
  | 7 => .ok (.snapshot chip)
  | 8 => .ok (.restore chip a.data)
  | _ => .error (.noOperation h)

/-- An internal operation (R112). -/
def decodeInt (chip : Nat) (c : Fin 8) (i : BitVec 2) : Instr :=
  match i.toNat with
  | 0 => .tick chip
  | 1 => .chtick chip c
  | 2 => .keyon chip c
  | _ => .keyoff chip c

/-- The operation a request stands for. -/
def decode (r : Request) : Except DecodeError Instr :=
  match r.word with
  | .bus t => decodeBus r.chip t
  | .mode m => .ok (decodeMode r.chip r.args.channel m)
  | .host h => decodeHost r.chip h r.args
  | .int i => .ok (decodeInt r.chip r.args.channel i)

/-! ### Encoding -/

/-- The request of a bus write (R111). -/
def encodeWrite (chip : Nat) (offset : BitVec 10) (data : Byte) : Request :=
  { chip := chip, word := .bus (busWord true offset data) }

/-- The request of a bus read; the data field is 0 (R111). -/
def encodeRead (chip : Nat) (offset : BitVec 10) : Request :=
  { chip := chip, word := .bus (busWord false offset 0) }

/-- The request that stands for an operation (R111, R112, R114, R115, R116, R122). `EXIT` names no
instance; its request carries index 0. -/
def encode : Instr → Request
  | .wrPos0 chip c data => encodeWrite chip (chanOffset c 0x0C) data
  | .wrPos1 chip c data => encodeWrite chip (chanOffset c 0x0D) data
  | .wrPos2 chip c data => encodeWrite chip (chanOffset c 0x0E) data
  | .wrApan chip data => encodeWrite chip 0x13F data
  | .wrKon chip data => encodeWrite chip 0x214 data
  | .wrKoff chip data => encodeWrite chip 0x215 data
  | .wrKstat chip data => encodeWrite chip 0x22C data
  | .wrSdata chip data => encodeWrite chip 0x22D data
  | .wrZone chip data => encodeWrite chip 0x22E data
  | .wrCtrl chip data => encodeWrite chip 0x22F data
  | .wrMode chip c second data => encodeWrite chip (modeOffset c second) data
  | .wrChan chip c field data => encodeWrite chip (chanOffset c field) data
  | .wrPlain chip offset data => encodeWrite chip offset data
  | .rdSdata chip => encodeRead chip 0x22D
  | .rdPlain chip offset => encodeRead chip offset
  | .fmtPcm8 chip c rev => { chip := chip, word := .mode (modeByte 0 rev), args := { channel := c } }
  | .fmtPcm16 chip c rev => { chip := chip, word := .mode (modeByte 1 rev), args := { channel := c } }
  | .fmtDpcm4 chip c rev => { chip := chip, word := .mode (modeByte 2 rev), args := { channel := c } }
  | .fmtNone chip c => { chip := chip, word := .mode (modeByte 3 false), args := { channel := c } }
  | .init chip clockHz rom romLen updateAtKeyon reverbDisable =>
    { chip := chip, word := .host 0
      args := { clockHz := clockHz, rom := rom, romLen := romLen, updateAtKeyon := some updateAtKeyon,
                reverbDisable := some reverbDisable } }
  | .exit => { chip := 0, word := .host 1 }
  | .reset chip => { chip := chip, word := .host 2 }
  | .setgain chip channel gain => { chip := chip, word := .host 3, args := { index := channel, amount := gain } }
  | .setroute chip route volume mask =>
    { chip := chip, word := .host 4, args := { index := route, amount := volume, mask := mask } }
  | .setpancb chip registered => { chip := chip, word := .host 5, args := { registered := registered } }
  | .update chip out count host =>
    { chip := chip, word := .host 6, args := { out := out, count := count, host := host } }
  | .snapshot chip => { chip := chip, word := .host 7 }
  | .restore chip data => { chip := chip, word := .host 8, args := { data := data } }
  | .tick chip => { chip := chip, word := .int 0 }
  | .chtick chip c => { chip := chip, word := .int 1, args := { channel := c } }
  | .keyon chip c => { chip := chip, word := .int 2, args := { channel := c } }
  | .keyoff chip c => { chip := chip, word := .int 3, args := { channel := c } }

/-! ### The opcode table -/

/-- The five formats (R110). -/
inductive OpFormat where
  | busw
  | busr
  | mode
  | host
  | int
  deriving DecidableEq, Repr

/-- A row of the opcode table: a word of the row's format stands for the row's operation if
`word & mask = pattern` and no earlier row of the format fits (R128). -/
structure OpcodeRow where
  mnemonic : String
  format : OpFormat
  pattern : Nat
  mask : Nat
  deriving DecidableEq, Repr

/-- The rows of the bus writes (R113, R114, R115), in priority order. -/
def rowsBusw : List OpcodeRow := [
  ⟨"WR.POS0", .busw, 0x40C00, 0x71F00⟩,
  ⟨"WR.POS1", .busw, 0x40D00, 0x71F00⟩,
  ⟨"WR.POS2", .busw, 0x40E00, 0x71F00⟩,
  ⟨"WR.APAN", .busw, 0x53F00, 0x7FF00⟩,
  ⟨"WR.KON", .busw, 0x61400, 0x7FF00⟩,
  ⟨"WR.KOFF", .busw, 0x61500, 0x7FF00⟩,
  ⟨"WR.KSTAT", .busw, 0x62C00, 0x7FF00⟩,
  ⟨"WR.SDATA", .busw, 0x62D00, 0x7FF00⟩,
  ⟨"WR.ZONE", .busw, 0x62E00, 0x7FF00⟩,
  ⟨"WR.CTRL", .busw, 0x62F00, 0x7FF00⟩,
  ⟨"WR.MODE", .busw, 0x60000, 0x7F000⟩,
  ⟨"WR.CHAN", .busw, 0x40000, 0x70000⟩,
  ⟨"WR.PLAIN", .busw, 0x40000, 0x40000⟩]

/-- The rows of the bus reads (R116), in priority order. -/
def rowsBusr : List OpcodeRow := [
  ⟨"RD.SDATA", .busr, 0x22D00, 0x7FF00⟩,
  ⟨"RD.PLAIN", .busr, 0x00000, 0x40000⟩]

/-- The rows of the mode bytes (R122), in priority order. -/
def rowsMode : List OpcodeRow := [
  ⟨"FMT.PCM8", .mode, 0x00, 0x0C⟩,
  ⟨"FMT.PCM16", .mode, 0x04, 0x0C⟩,
  ⟨"FMT.DPCM4", .mode, 0x08, 0x0C⟩,
  ⟨"FMT.NONE", .mode, 0x0C, 0x0C⟩]

/-- The rows of the host selectors (R112), in priority order. -/
def rowsHost : List OpcodeRow := [
  ⟨"INIT", .host, 0x0, 0xF⟩,
  ⟨"EXIT", .host, 0x1, 0xF⟩,
  ⟨"RESET", .host, 0x2, 0xF⟩,
  ⟨"SETGAIN", .host, 0x3, 0xF⟩,
  ⟨"SETROUTE", .host, 0x4, 0xF⟩,
  ⟨"SETPANCB", .host, 0x5, 0xF⟩,
  ⟨"UPDATE", .host, 0x6, 0xF⟩,
  ⟨"SNAPSHOT", .host, 0x7, 0xF⟩,
  ⟨"RESTORE", .host, 0x8, 0xF⟩]

/-- The rows of the internal selectors (R112), in priority order. -/
def rowsInt : List OpcodeRow := [
  ⟨"TICK", .int, 0x0, 0x3⟩,
  ⟨"CHTICK", .int, 0x1, 0x3⟩,
  ⟨"KEYON", .int, 0x2, 0x3⟩,
  ⟨"KEYOFF", .int, 0x3, 0x3⟩]

/-- The opcode table (R128). -/
def opcodeTable : List OpcodeRow := rowsBusw ++ rowsBusr ++ rowsMode ++ rowsHost ++ rowsInt

/-- The format of a word; `T[18]` tells a write from a read (R111). -/
def OpWord.format : OpWord → OpFormat
  | .bus t => if busWrite t then .busw else .busr
  | .mode _ => .mode
  | .host _ => .host
  | .int _ => .int

/-- The bits of a word as a number. -/
def OpWord.bits : OpWord → Nat
  | .bus t => t.toNat
  | .mode m => m.toNat
  | .host h => h.toNat
  | .int i => i.toNat

/-- The row fits the word. -/
def OpcodeRow.fits (w : OpWord) (r : OpcodeRow) : Bool := r.format == w.format && (w.bits &&& r.mask) == r.pattern

/-- The mnemonic the opcode table gives a word: that of the first row that fits (R128). -/
def OpWord.mnemonic? (w : OpWord) : Option String := (opcodeTable.find? (OpcodeRow.fits w)).map OpcodeRow.mnemonic

/-- The mnemonic of an operation's row. -/
def Instr.mnemonic : Instr → String
  | .wrPos0 _ _ _ => "WR.POS0"
  | .wrPos1 _ _ _ => "WR.POS1"
  | .wrPos2 _ _ _ => "WR.POS2"
  | .wrApan _ _ => "WR.APAN"
  | .wrKon _ _ => "WR.KON"
  | .wrKoff _ _ => "WR.KOFF"
  | .wrKstat _ _ => "WR.KSTAT"
  | .wrSdata _ _ => "WR.SDATA"
  | .wrZone _ _ => "WR.ZONE"
  | .wrCtrl _ _ => "WR.CTRL"
  | .wrMode _ _ _ _ => "WR.MODE"
  | .wrChan _ _ _ _ => "WR.CHAN"
  | .wrPlain _ _ _ => "WR.PLAIN"
  | .rdSdata _ => "RD.SDATA"
  | .rdPlain _ _ => "RD.PLAIN"
  | .fmtPcm8 _ _ _ => "FMT.PCM8"
  | .fmtPcm16 _ _ _ => "FMT.PCM16"
  | .fmtDpcm4 _ _ _ => "FMT.DPCM4"
  | .fmtNone _ _ => "FMT.NONE"
  | .init _ _ _ _ _ _ => "INIT"
  | .exit => "EXIT"
  | .reset _ => "RESET"
  | .setgain _ _ _ => "SETGAIN"
  | .setroute _ _ _ _ => "SETROUTE"
  | .setpancb _ _ => "SETPANCB"
  | .update _ _ _ _ => "UPDATE"
  | .snapshot _ => "SNAPSHOT"
  | .restore _ _ => "RESTORE"
  | .tick _ => "TICK"
  | .chtick _ _ => "CHTICK"
  | .keyon _ _ => "KEYON"
  | .keyoff _ _ => "KEYOFF"

/-! ### The opcode table's numbering -/

/-- The request whose word has the bits `w` of an opcode-table row of `nbits` bits, on instance 0, every
argument 0, empty or left out. A row of more than 8 bits is a bus word (`T` has 19), one of at most 2 bits an `INT` selector.
The 8-bit rows are of three formats (`HOST`, `MODE`, `INT`) that number their words independently (R110,
R112), so `w` alone does not say which is meant: the selectors of `HOST` are read first, and every other
word as a mode byte (assumption 3). -/
def requestOfTableWord (nbits w : Nat) : Request :=
  if 8 < nbits then { chip := 0, word := .bus (BitVec.ofNat 19 w) }
  else if nbits ≤ 2 then { chip := 0, word := .int (BitVec.ofNat 2 w) }
  else if w < 9 then { chip := 0, word := .host (BitVec.ofNat 4 w) }
  else { chip := 0, word := .mode (BitVec.ofNat 8 w) }

/-- The operation the decoder reads from the bits `w` of an opcode-table row of `nbits` bits. -/
def decodeTableWord (nbits w : Nat) : Option Instr :=
  match decode (requestOfTableWord nbits w) with
  | .ok i => some i
  | .error _ => none

end Sys2Proof
end

