-- ==== Sys2Proof/Machine/Memory.lean ====
section
/-! DEFINITION. The sparse byte memory: reading, writing, and its canonical form. -/

namespace Sys2Proof

/-- The byte at address `a`. -/
def Memory.read : Memory → Nat → Byte
  | [], _ => Memory.default
  | (k, x) :: m, a => if k = a then x else Memory.read m a

/-- Place a cell before the first entry with a higher address. -/
def Memory.insert : Memory → Nat → Byte → Memory
  | [], a, b => [(a, b)]
  | (k, x) :: m, a, b => if a < k then (a, b) :: (k, x) :: m else (k, x) :: Memory.insert m a b

/-- Remove what is listed at an address. -/
def Memory.erase (m : Memory) (a : Nat) : Memory := m.filter fun cell => cell.1 != a

/-- Store byte `b` at address `a`. Storing what an unlisted address reads as removes the entry. -/
def Memory.write (m : Memory) (a : Nat) (b : Byte) : Memory :=
  if b = Memory.default then Memory.erase m a else Memory.insert (Memory.erase m a) a b

/-- The canonical form: addresses strictly rising, no entry equal to the default. -/
abbrev Memory.wf (m : Memory) : Prop :=
  m.Pairwise (fun x y => x.1 < y.1) ∧ ∀ x ∈ m, x.2 ≠ Memory.default

/-- Every listed address is below `n`. -/
abbrev Memory.below (m : Memory) (n : Nat) : Prop := ∀ x ∈ m, x.1 < n

/-- The memory that holds the given bytes from address `k` on. -/
def Memory.ofBytesFrom (k : Nat) : List Byte → Memory
  | [] => []
  | b :: bs => if b = Memory.default then Memory.ofBytesFrom (k + 1) bs else (k, b) :: Memory.ofBytesFrom (k + 1) bs

/-- The memory that holds the given bytes from address 0 on. -/
def Memory.ofBytes (bs : List Byte) : Memory := Memory.ofBytesFrom 0 bs

end Sys2Proof
end

