-- ==== Sys2Proof/Machine/Numbers.lean ====
section
/-! DEFINITION. The integer conversions of R16, the exact real arithmetic of R20, and the three tables
(R57, R58, R59). -/

namespace Sys2Proof

/-! ### Integers -/

/-- `sext_16` (R16): the low 16 bits as two's complement. -/
def sext16 (v : Int) : Int := if v % 65536 ≥ 32768 then v % 65536 - 65536 else v % 65536

/-- `wrap16` (R16). -/
def wrap16 (v : Int) : Int := sext16 v

/-- `clamp16` (R16). -/
def clamp16 (v : Int) : Int := max (-32768) (min 32767 v)

/-- The integer part of a rational, toward zero (`trunc`, R15). -/
def truncRat (q : Rat) : Int := q.num.tdiv q.den

/-! ### Monomials -/

/-- The monomial 0 in normal form. -/
def Monomial.zero : Monomial := ⟨0, 0, 1, []⟩

/-- A rational as a monomial. -/
def Monomial.ofRat (q : Rat) : Monomial := ⟨q, 0, 1, []⟩

/-- The greatest `m` not above the bound with `m * m` dividing `n`, and `n / (m * m)`. -/
def squareSplit : Nat → Nat → Nat × Nat
  | 0, n => (1, n)
  | m + 1, n => if n % ((m + 1) * (m + 1)) = 0 then (m + 1, n / ((m + 1) * (m + 1))) else squareSplit m n

/-- The normal form of a monomial. Each whole 320 of `tens` divides the
coefficient by 10; a remaining 160 is `sqrt 10 / 10`; square factors of `rad` go into the coefficient. -/
def Monomial.norm (x : Monomial) : Monomial :=
  if x.coeff = 0 ∨ x.rad = 0 then Monomial.zero
  else
    let h := x.tens / 160
    let scaled := x.coeff / ((10 ^ ((h + 1) / 2) : Nat) : Rat)
    let rad := if h % 2 = 0 then x.rad else 10 * x.rad
    let split := squareSplit (2 ^ (rad.log2 / 2 + 1)) rad
    ⟨scaled * split.1, x.tens % 160, split.2, x.factors⟩

/-- The product. -/
def Monomial.mul (x y : Monomial) : Monomial :=
  Monomial.norm ⟨x.coeff * y.coeff, x.tens + y.tens, x.rad * y.rad, x.factors ++ y.factors⟩

/-- A monomial times a rational. -/
def Monomial.scale (q : Rat) (x : Monomial) : Monomial :=
  if q * x.coeff = 0 then Monomial.zero else ⟨q * x.coeff, x.tens, x.rad, x.factors⟩

/-- `x ≤ c` for a monomial without factors and a positive rational `c`: a coefficient that is not positive is below,
and otherwise both sides are compared at their 320th power, which is exact in the naturals. -/
def Monomial.leRat (x : Monomial) (c : Rat) : Bool :=
  decide (x.coeff ≤ 0) ||
    decide (x.coeff.num.toNat ^ 320 * x.rad ^ 160 * c.den ^ 320 ≤
      c.num.toNat ^ 320 * 10 ^ x.tens * x.coeff.den ^ 320)

/-- `min(x, 1.80)` for a monomial without factors (R173). -/
def Monomial.cap (x : Monomial) : Monomial :=
  if x.leRat Config.volCap then x else Monomial.ofRat Config.volCap

/-- The host's number is negative. -/
def HostReal.isNegative : HostReal → Bool
  | .rat q => decide (q < 0)
  | .named negative _ => negative

/-- `x * g`. -/
def Monomial.times (x : Monomial) (g : HostReal) : Monomial :=
  match g with
  | .rat q => x.scale q
  | .named negative k =>
    if x.coeff = 0 then Monomial.zero
    else ⟨if negative then -x.coeff else x.coeff, x.tens, x.rad, .size k :: x.factors⟩

/-- `min(x * g, 1.80)` for a table product `x`, which has no factors (R173). The cap of a product with a number
whose size is free stays a factor of its own: which side is the less is not decided. -/
def Monomial.resolve (x : Monomial) (g : HostReal) : Monomial :=
  let p := x.times g
  match g with
  | .rat _ => p.cap
  | .named _ k =>
    if p.coeff ≤ 0 then p else ⟨1, 0, 1, [.capped p.coeff.num.toNat p.coeff.den p.tens p.rad k]⟩

/-! ### Enclosing a root

An enclosure is taken to a number of binary places, `bits`. -/

/-- `r / 2^bits ≤ 10^(-tens/320) * sqrt rad`, at the 320th power. -/
def rootAtMost (bits tens rad r : Nat) : Bool :=
  decide (r ^ 320 * 10 ^ tens ≤ 2 ^ (bits * 320) * rad ^ 160)

/-- Decide the bits `k - 1` down to 0 of the greatest `r` with `rootAtMost`, above those in `acc`. -/
def rootFrom (bits tens rad : Nat) : Nat → Nat → Nat
  | 0, acc => acc
  | k + 1, acc =>
    if rootAtMost bits tens rad (acc + 2 ^ k) then rootFrom bits tens rad k (acc + 2 ^ k)
    else rootFrom bits tens rad k acc

/-- The greatest natural not above `2^bits * 10^(-tens/320) * sqrt rad`. -/
def rootFloor (bits tens rad : Nat) : Nat := rootFrom bits tens rad (bits + rad.log2 / 2 + 1) 0

/-- A rational not above `10^(-tens/320) * sqrt rad`; that root itself where it is 1. -/
def rootLower (bits tens rad : Nat) : Rat :=
  if tens = 0 ∧ rad = 1 then 1 else ((rootFloor bits tens rad : Nat) : Rat) / ((2 ^ bits : Nat) : Rat)

/-- A rational not below `10^(-tens/320) * sqrt rad`; that root itself where it is 1. -/
def rootUpper (bits tens rad : Nat) : Rat :=
  if tens = 0 ∧ rad = 1 then 1 else ((rootFloor bits tens rad + 1 : Nat) : Rat) / ((2 ^ bits : Nat) : Rat)

/-! ### Enclosing the host's numbers -/

/-- The first `n` binary digits as a natural. -/
def leadingBits (bit : Nat → Bool) : Nat → Nat
  | 0 => 0
  | n + 1 => 2 * leadingBits bit n + (bit n).toNat

/-- The size of the host's `k`-th number with `digits / 2^bits` after the point. -/
def sizeWith (bits k digits : Nat) : Rat :=
  ((Config.hostWhole k + 1 : Nat) + (digits : Rat) / ((2 ^ bits : Nat) : Rat)) /
    ((2 ^ Config.hostShift k : Nat) : Rat)

/-- A rational not above the size of the host's `k`-th number. -/
def sizeLower (bits k : Nat) : Rat := sizeWith bits k (leadingBits (Config.hostBit k) bits)

/-- A rational not below the size of the host's `k`-th number. -/
def sizeUpper (bits k : Nat) : Rat := sizeWith bits k (leadingBits (Config.hostBit k) bits + 1)

/-- A rational not above the factor, and not negative. -/
def Factor.lower (bits : Nat) : Factor → Rat
  | .size k => sizeLower bits k
  | .capped num den tens rad k => min ((num : Rat) / den * rootLower bits tens rad * sizeLower bits k) Config.volCap

/-- A rational not below the factor. -/
def Factor.upper (bits : Nat) : Factor → Rat
  | .size k => sizeUpper bits k
  | .capped num den tens rad k => min ((num : Rat) / den * rootUpper bits tens rad * sizeUpper bits k) Config.volCap

/-- A rational not above what multiplies the coefficient. -/
def Monomial.weightLower (x : Monomial) (bits : Nat) : Rat :=
  x.factors.foldr (fun f w => f.lower bits * w) (rootLower bits x.tens x.rad)

/-- A rational not below what multiplies the coefficient. -/
def Monomial.weightUpper (x : Monomial) (bits : Nat) : Rat :=
  x.factors.foldr (fun f w => f.upper bits * w) (rootUpper bits x.tens x.rad)

/-- A rational not above the monomial; the monomial itself if it is written as a rational. -/
def Monomial.lower (x : Monomial) (bits : Nat) : Rat :=
  x.coeff * if x.coeff < 0 then x.weightUpper bits else x.weightLower bits

/-- A rational not below the monomial; the monomial itself if it is written as a rational. -/
def Monomial.upper (x : Monomial) (bits : Nat) : Rat :=
  x.coeff * if x.coeff < 0 then x.weightLower bits else x.weightUpper bits

/-! ### Exact reals -/

/-- Zero. -/
def ExactReal.zero : ExactReal := ⟨[]⟩

/-- The order of terms. -/
def Monomial.before (x y : Monomial) : Bool := x.tens < y.tens || (x.tens == y.tens && x.rad < y.rad)

/-- Add a term to a sum in normal form. -/
def addTerm : List Monomial → Monomial → List Monomial
  | [], t => if t.coeff = 0 then [] else [t]
  | u :: us, t =>
    if t.coeff = 0 then u :: us
    else if u.tens = t.tens ∧ u.rad = t.rad ∧ u.factors = t.factors then
      if u.coeff + t.coeff = 0 then us else ⟨u.coeff + t.coeff, u.tens, u.rad, u.factors⟩ :: us
    else if t.before u then t :: u :: us
    else u :: addTerm us t

/-- `x + t`. -/
def ExactReal.add (x : ExactReal) (t : Monomial) : ExactReal := ⟨addTerm x.terms t⟩

/-- An integer as a real (R201). -/
def ExactReal.ofInt (v : Int) : ExactReal := ExactReal.zero.add (Monomial.ofRat v)

/-- `x * q`. -/
def ExactReal.scale (q : Rat) (x : ExactReal) : ExactReal :=
  if q = 0 then ExactReal.zero else ⟨x.terms.map (Monomial.scale q)⟩

/-- `x * g` (R206). -/
def ExactReal.times (x : ExactReal) (g : HostReal) : ExactReal :=
  match g with
  | .rat q => x.scale q
  | .named _ _ => ⟨x.terms.map (Monomial.times · g)⟩

/-! ### The integer part -/

/-- A rational not above the real. -/
def ExactReal.lower (x : ExactReal) (bits : Nat) : Rat := (x.terms.map (·.lower bits)).foldl (· + ·) 0

/-- A rational not below the real. -/
def ExactReal.upper (x : ExactReal) (bits : Nat) : Rat := (x.terms.map (·.upper bits)).foldl (· + ·) 0

/-- The first natural from `n` on that is good; `none` if there is none. -/
def firstFrom (good : Nat → Bool) (n : Nat) : Option Nat := if good n then some n else firstFrom good (n + 1)
partial_fixpoint

/-- The two bounds have one integer part. -/
def ExactReal.settled (x : ExactReal) (bits : Nat) : Bool :=
  decide (truncRat (x.lower bits) = truncRat (x.upper bits))

/-- The bounds hold at most one integer between them. -/
def ExactReal.narrow (x : ExactReal) (bits : Nat) : Bool := decide (x.upper bits - x.lower bits < 1)

/-- The integer between bounds so close that there is at most one. Some bounds are so close, so the last case never
arises. -/
def ExactReal.onlyInteger (x : ExactReal) : Int :=
  match firstFrom x.narrow 0 with
  | some bits => ⌈x.lower bits⌉
  | none => 0

/-- The binary places at which the integer part is first looked for. -/
abbrev startBits : Nat := 128

/-- The integer part of an exact real, toward zero (R15, R20, decision D7). The bounds close in on the real; where they
come to have one integer part, that is the real's. Bounds that never do have an integer between them at every
precision, and the real is that integer. (The search starts at the places the first test tries: that test is there so
that the kernel evaluates the usual case without it.) -/
def ExactReal.trunc (x : ExactReal) : Int :=
  if x.settled startBits then truncRat (x.lower startBits)
  else
    match firstFrom x.settled startBits with
    | some bits => truncRat (x.lower bits)
    | none => x.onlyInteger

/-! ### The tables -/

/-- `VOLTAB[i] = 10^((-36 * i / 64) / 20) / 4 = 10^(-9 * i / 320) / 4` (R57, decision D6). -/
def volTab (i : Byte) : Monomial := Monomial.norm ⟨1 / 4, 9 * i.toNat, 1, []⟩

/-- `PANTAB[i] = sqrt(i / 14) = sqrt(14 * i) / 14` (R58, decision D6). -/
def panTab (i : Fin 15) : Monomial := Monomial.norm ⟨1 / 14, 0, 14 * i.val, []⟩

/-- `DPCMTAB` (R59). -/
def dpcmTab (n : BitVec 4) : Int :=
  match n.toNat with
  | 0 => 0
  | 1 => 256
  | 2 => 1024
  | 3 => 2304
  | 4 => 4096
  | 5 => 6400
  | 6 => 9216
  | 7 => 12544
  | 8 => -16384
  | 9 => -12544
  | 10 => -9216
  | 11 => -6400
  | 12 => -4096
  | 13 => -2304
  | 14 => -1024
  | _ => -256

end Sys2Proof
end

