-- ==== Sys2Proof/Machine/State.lean ====
section
/-! DEFINITION. The state of the machine: the chip instances with everything R30 gives them, the requests
the host has issued and the block has not yet run, and what the last operation answered. -/

namespace Sys2Proof.Machine

/-- One chip instance (R30). `regs`, `ram` and `rom` are byte memories; `ram` holds sample `k` at bytes `2k`
and `2k + 1` (R86). `zonePtr` and `zoneLimit` are functions of `regs[0x22E]` (R51) and the two tables are
constants (R57, R58, R241), so neither is a field. -/
structure ChipInstance where
  /-- The hidden bit of R256. -/
  initialised : Bool
  /-- The chip clock in Hz (R55). -/
  clockHz : Nat
  /-- The borrowed ROM's bytes (R54). -/
  rom : Memory
  /-- The number of ROM bytes (R54). -/
  romSize : Nat
  /-- `2^n - 1` (R10, R54). -/
  romMask : Nat
  /-- The register image, bytes `0x000..0x22F` (R31). -/
  regs : Memory
  /-- The latched position bytes (R46). -/
  posLatch : Vector PosLatch 8
  /-- The channel decode states (R43 to R45). -/
  chan : Vector ChanState 8
  /-- The host gains (R47). -/
  gain : Vector HostReal 8
  /-- The route volumes (R48). -/
  volume : Vector HostReal 2
  /-- The route masks, bit 0 left and bit 1 right (R48). -/
  routeMask : Vector (BitVec 2) 2
  /-- The behaviour flags (R49). -/
  flags : Flags
  /-- Whether a pan callback is registered (R56). -/
  panCallback : Bool
  /-- Index of the ring slot the next tick reads (R52). -/
  reverbCursor : Nat
  /-- The serial window's cursor (R50). -/
  zoneCursor : Nat
  /-- The sample RAM, bytes `0 .. 2 * RAM_SAMPLES - 1` (R53, R86). -/
  ram : Memory
  deriving DecidableEq, Repr

/-- One pan notification, the event `Apan(l, r)` of R19 and R143, with the instance that emitted it. -/
structure PanEvent where
  chip : Nat
  left : Monomial
  right : Monomial
  deriving DecidableEq, Repr

/-- What an operation answers to the host. -/
inductive Response where
  /-- Nothing is returned. -/
  | done
  /-- The byte of a bus read (R150). -/
  | byte (b : Byte)
  /-- The frame of a tick (R200). -/
  | frame (f : Frame)
  /-- What a channel's tick added to the accumulators `L` and `R` (R187). -/
  | mix (l r : ExactReal)
  /-- The locals a decode form leaves (R177, R180, R183, R184), and whether its value is mixed. -/
  | decoded (c : ChanState) (mixed : Bool)
  /-- The host's buffer after Update (R215). -/
  | buffer (out : List Frame)
  /-- The snapshot taken (R230). -/
  | snapshot (s : Snapshot)
  deriving DecidableEq, Repr

/-- The whole machine: `MAX_CHIPS` independent instances (R9, R270), and, as the model's own fields, the
host's requests in the order issued, the answer to the last operation, and the trace of the pan output
port, oldest event first. -/
structure State where
  chips : Vector ChipInstance Config.maxChips
  pending : List Request
  response : Response
  panLog : List PanEvent
  deriving DecidableEq, Repr

/-- Which argument of a configuration operation is out of range (R259, R260). -/
inductive BadArgument where
  /-- Init with `clockHz < 1`. -/
  | initClock (clockHz : Nat)
  /-- Init with `romLen < 1`. -/
  | initRomLen (romLen : Nat)
  /-- Init with fewer than `romLen` bytes in the buffer. -/
  | initRomBuffer (bytes romLen : Nat)
  /-- SetGain with `channel > 7`. -/
  | gainChannel (channel : Nat)
  /-- SetGain with a negative gain. -/
  | gainValue (gain : HostReal)
  /-- SetRoute with `routeIndex > 1`. -/
  | routeIndex (route : Nat)
  /-- SetRoute with `directionMask > 3`. -/
  | routeMask (mask : Nat)
  deriving DecidableEq, Repr

/-- Which condition on a snapshot fails (R235, R60). -/
inductive SnapshotDefect where
  /-- Another RAM length than the instance's. -/
  | ramSize
  /-- The register image or the RAM is not the image of that many bytes. -/
  | image
  /-- `zoneCursor` is not below the limit of the saved zone. -/
  | zoneCursor
  /-- `reverbCursor > 8191`. -/
  | reverbCursor
  /-- Some `pfrac > 0xFFFF`. -/
  | pfrac
  /-- Some `val` or `pval` is not s16. -/
  | sample
  deriving DecidableEq, Repr

/-- The six faults of R263. Each ends the operation with no state change (R257); all are safe, since the
spec itself names them and gives nothing after them. -/
inductive Fault where
  /-- Code 1 (R255): raised by every operation with a chip index outside `0..MAX_CHIPS-1`, an internal operation
  or decode form requested on its own among them (R264, assumption 20). Safe. -/
  | badChip (index : Nat)
  /-- Code 2 (R256): raised by every operation but Init and Exit on an uninitialised instance, an internal operation
  or decode form requested on its own among them (R264, assumption 20). Safe. -/
  | notInitialised (index : Nat)
  /-- Code 3 (R258): raised by a bus write or read above `0x22F`. Safe. -/
  | badOffset (offset : BitVec 10)
  /-- Code 4 (R259, R260): raised by Init, SetGain and SetRoute. Safe. -/
  | badArgument (which : BadArgument)
  /-- Code 5 (R261): raised by Update when the buffer is shorter than the request. Safe. -/
  | badBuffer (requested available : Nat)
  /-- Code 6 (R262): raised by Restore. Safe. -/
  | badSnapshot (which : SnapshotDefect)
  deriving DecidableEq, Repr

/-- Why the model gives a request no meaning. Both stop before any effect and are safe. -/
inductive Refusal where
  /-- Raised by an arm of `exec` whose instruction has no meaning yet; no arm does. Safe. -/
  | notModelled (mnemonic : String)
  /-- Raised by `step` for a `HOST` selector that names no operation (R112) and for an output buffer that is
  not a sequence of s16 frames (R215), neither of which the spec gives an effect. Safe. -/
  | noOperation (error : DecodeError)
  deriving DecidableEq, Repr

/-- An instance before its first Init and after Exit (R282): not initialised. Its other fields hold the
values of R62 that do not depend on Init's arguments, and an empty ROM; no operation reads them
(assumption 1). -/
def ChipInstance.blank : ChipInstance where
  initialised := false
  clockHz := 0
  rom := []
  romSize := 0
  romMask := 0
  regs := []
  posLatch := Vector.replicate 8 (Vector.replicate 3 0)
  chan := Vector.replicate 8 ⟨0, 0, 0, 0⟩
  gain := Vector.replicate 8 (.rat 1)
  volume := Vector.replicate 2 (.rat 1)
  routeMask := #v[1, 2]
  flags := ⟨true, false⟩
  panCallback := false
  reverbCursor := 0
  zoneCursor := 0
  ram := []

/-- The machine at power-up: no instance is initialised (R256, R282), nothing is pending, nothing has been
answered or emitted. -/
def State.reset : State where
  chips := Vector.replicate Config.maxChips ChipInstance.blank
  pending := []
  response := .done
  panLog := []

end Sys2Proof.Machine
end

