-- ==== Sys2Proof/Machine/Ops.lean ====
section
/-! DEFINITION. The named operations over the state: selecting an instance and raising the faults every
operation shares, the register image, the ROM, the RAM and its byte view, and the serial window. -/

namespace Sys2Proof.Machine

/-- The outcome of one operation. -/
abbrev Result := Host.Outcome State Fault Refusal

/-! ### Instances -/

/-- Instance `id`; a blank one if there is no such index. -/
def State.chip (s : State) (id : Nat) : ChipInstance := (s.chips[id]?).getD ChipInstance.blank

/-- Replace instance `id`; nothing if there is no such index. -/
def State.setChip (s : State) (id : Nat) (c : ChipInstance) : State :=
  { s with chips := s.chips.setIfInBounds id c }

/-- Answer the host. -/
def State.respond (s : State) (r : Response) : State := { s with response := r }

/-- Emit an event on the pan output port (R19, R56). -/
def State.emitPan (s : State) (e : PanEvent) : State := { s with panLog := s.panLog ++ [e] }

/-- An operation's end: the instance it worked on takes its new state and the host gets the answer. -/
def finish (id : Nat) (s : State) (c : ChipInstance) (r : Response) : Result :=
  .next ((s.setChip id c).respond r)

/-- Resolve the index of an operation that needs no initialised instance (Init): `BadChip` (R255). -/
def withIndex (id : Nat) (k : Result) : Result :=
  if id < Config.maxChips then k else .fault (.badChip id)

/-- The precondition every operation with a chip index shares, checked before anything else and in this
order (R266): `BadChip` (R255), then `NotInitialised` (R256). This is the machine's one way into a fault:
the operation ends with no state changed and nothing to return from (R257, R267, R268). That a decode form or an
internal operation requested on its own meets it too, although R264 says that `TICK`, `CHTICK`, `KEYON` and `KEYOFF`
cannot fault, is the model's choice (assumption 20). -/
def withChip (id : Nat) (s : State) (k : ChipInstance → Result) : Result :=
  withIndex id (if (s.chip id).initialised then k (s.chip id) else .fault (.notInitialised id))

/-- An operation that cannot fault past the shared precondition. -/
def onChip (id : Nat) (s : State) (k : ChipInstance → ChipInstance × Response) : Result :=
  withChip id s fun c => finish id s (k c).1 (k c).2

/-- An operation that changes the instance and returns nothing. -/
def updateChip (id : Nat) (s : State) (k : ChipInstance → ChipInstance) : Result :=
  onChip id s fun c => (k c, .done)

/-! ### Registers (R17) -/

/-- `regs[o]`. -/
def ChipInstance.reg (c : ChipInstance) (o : Nat) : Byte := Memory.read c.regs o

/-- `regs[o] <- v`. -/
def ChipInstance.setReg (c : ChipInstance) (o : Nat) (v : Byte) : ChipInstance :=
  { c with regs := Memory.write c.regs o v }

/-- `le16(o)`. -/
def ChipInstance.le16 (c : ChipInstance) (o : Nat) : Nat := (c.reg o).toNat + 256 * (c.reg (o + 1)).toNat

/-- `le24(o)`. -/
def ChipInstance.le24 (c : ChipInstance) (o : Nat) : Nat :=
  (c.reg o).toNat + 256 * (c.reg (o + 1)).toNat + 65536 * (c.reg (o + 2)).toNat

/-- `putle24(o, v)`. -/
def ChipInstance.putle24 (c : ChipInstance) (o v : Nat) : ChipInstance :=
  ((c.setReg o (BitVec.ofNat 8 v)).setReg (o + 1) (BitVec.ofNat 8 (v / 256))).setReg (o + 2)
    (BitVec.ofNat 8 (v / 65536))

/-- `B1(c)`, the base of channel `c`'s block (R32). -/
def blockBase (c : Fin 8) : Nat := 0x20 * c.val

/-- `B2(c)`, the offset of channel `c`'s first mode byte (R33). -/
def modeBase (c : Fin 8) : Nat := 0x200 + 2 * c.val

/-! ### Channels -/

/-- `chan[c]`. -/
def ChipInstance.channel (i : ChipInstance) (c : Fin 8) : ChanState := i.chan[c.val]

/-- `chan[c] <- v` (R189). -/
def ChipInstance.setChannel (i : ChipInstance) (c : Fin 8) (v : ChanState) : ChipInstance :=
  { i with chan := i.chan.set c.val v }

/-- `posLatch[c][k]`. -/
def ChipInstance.latch (i : ChipInstance) (c : Fin 8) (k : Fin 3) : Byte := i.posLatch[c.val][k.val]

/-- `posLatch[c][k] <- b`. -/
def ChipInstance.setLatch (i : ChipInstance) (c : Fin 8) (k : Fin 3) (b : Byte) : ChipInstance :=
  { i with posLatch := i.posLatch.set c.val (i.posLatch[c.val].set k.val b) }

/-! ### ROM -/

/-- `2^n - 1` for the least `n` with `2^n ≥ romSize` (R10, decision D25). -/
def romMaskOf (romSize : Nat) : Nat := 2 ^ (if romSize ≤ 1 then 0 else (romSize - 1).log2 + 1) - 1

/-- `RomRead(a)` for any integer `a` (R84): masked, never a fault; the bytes between `romSize` and
`romMask` are free (R83). -/
def ChipInstance.romRead (c : ChipInstance) (a : Int) : Byte :=
  let i := (a % (c.romMask + 1)).toNat
  if i < c.romSize then Memory.read c.rom i else Config.romGap i

/-! ### RAM -/

/-- `RAM_SAMPLES` (R10, decision D25). -/
def ramSamplesOf (clockHz : Nat) : Nat := Config.ramBaseSamples + clockHz / 50

/-- `RAM_SAMPLES` of an instance. -/
def ChipInstance.ramSamples (c : ChipInstance) : Nat := ramSamplesOf c.clockHz

/-- `RamByteRead(a)` (R86). -/
def ChipInstance.ramByte (c : ChipInstance) (a : Nat) : Byte := Memory.read c.ram a

/-- `RamByteWrite(a, b)` (R86). -/
def ChipInstance.setRamByte (c : ChipInstance) (a : Nat) (b : Byte) : ChipInstance :=
  { c with ram := Memory.write c.ram a b }

/-- `ram[k]` as s16: low byte at `2k`, high byte at `2k + 1` (R86, R91). -/
def ChipInstance.ramSample (c : ChipInstance) (k : Nat) : Int :=
  sext16 ((c.ramByte (2 * k)).toNat + 256 * (c.ramByte (2 * k + 1)).toNat)

/-- `ram[k] <- v` for an s16 `v`. -/
def ChipInstance.setRamSample (c : ChipInstance) (k : Nat) (v : Int) : ChipInstance :=
  (c.setRamByte (2 * k) (BitVec.ofInt 8 v)).setRamByte (2 * k + 1) (BitVec.ofInt 8 (v / 256))

/-! ### The serial window -/

/-- What the serial window is open on: `zonePtr` (R51). -/
inductive Zone where
  | ram
  | rom (base : Nat)
  deriving DecidableEq, Repr

/-- `ZoneDecode`, the zone (R40, R51, R118). -/
def zoneDecode (b : Byte) : Zone := if b = 0x80 then .ram else .rom (b.toNat * Config.zoneRomLimit)

/-- `ZoneDecode`, the limit (R40, R51). -/
def zoneLimitOf (b : Byte) : Nat := if b = 0x80 then Config.zoneRamLimit else Config.zoneRomLimit

/-- `zonePtr`, computed (R51). -/
def ChipInstance.zone (c : ChipInstance) : Zone := zoneDecode (c.reg 0x22E)

/-- `zoneLimit`, computed (R51). -/
def ChipInstance.zoneLimit (c : ChipInstance) : Nat := zoneLimitOf (c.reg 0x22E)

/-- Advance the cursor, wrapping to 0 at the limit (R88). -/
def ChipInstance.advanceZone (c : ChipInstance) : ChipInstance :=
  { c with zoneCursor := if c.zoneCursor + 1 = c.zoneLimit then 0 else c.zoneCursor + 1 }

/-- The byte the window shows (R88). -/
def ChipInstance.zoneByte (c : ChipInstance) : Byte :=
  match c.zone with
  | .ram => c.ramByte c.zoneCursor
  | .rom base => c.romRead (base + c.zoneCursor : Nat)

/-- `ZoneWrite(b)` (R89): stored only if the zone is RAM; the cursor advances in every case. -/
def ChipInstance.zoneWrite (c : ChipInstance) (b : Byte) : ChipInstance :=
  match c.zone with
  | .ram => (c.setRamByte c.zoneCursor b).advanceZone
  | .rom _ => c.advanceZone

end Sys2Proof.Machine
end

