-- ==== Sys2Proof/Machine/Flags.lean ====
section
/-! DEFINITION. The status and control bits: the fields of `0x22F` (R41), the key-on status of `0x22C`
(R37), the latching condition (R142), and key-on and key-off (R154, R155). The block has no arithmetic
flags (R38). -/

namespace Sys2Proof.Machine

/-- `EN`, `regs[0x22F][0]` (R41). -/
def ChipInstance.enabled (c : ChipInstance) : Bool := (c.reg 0x22F).getLsbD 0

/-- `RDEN`, `regs[0x22F][4]` (R41). -/
def ChipInstance.readEnabled (c : ChipInstance) : Bool := (c.reg 0x22F).getLsbD 4

/-- `INH`, `regs[0x22F][7]` (R41). -/
def ChipInstance.inhibited (c : ChipInstance) : Bool := (c.reg 0x22F).getLsbD 7

/-- `Latching()` (R142). -/
def ChipInstance.latching (c : ChipInstance) : Bool := c.flags.updateAtKeyon && c.enabled

/-- Channel `ch` is active (R37). -/
def ChipInstance.active (c : ChipInstance) (ch : Fin 8) : Bool := (c.reg 0x22C).getLsbD ch.val

/-- `1 << c` in a byte. -/
def channelBit (ch : Fin 8) : Byte := 1#8 <<< ch.val

/-- `KeyOn(c)` (R154). -/
def ChipInstance.keyOn (c : ChipInstance) (ch : Fin 8) : ChipInstance :=
  if c.inhibited then c else c.setReg 0x22C (c.reg 0x22C ||| channelBit ch)

/-- `KeyOff(c)` (R155). -/
def ChipInstance.keyOff (c : ChipInstance) (ch : Fin 8) : ChipInstance :=
  if c.inhibited then c else c.setReg 0x22C (c.reg 0x22C &&& ~~~channelBit ch)

/-- The channels in the order every loop over them takes (R144, R145, R202, decision D15). -/
def channels : List (Fin 8) := [0, 1, 2, 3, 4, 5, 6, 7]

end Sys2Proof.Machine
end

