-- ==== Sys2Proof/Machine/Operands.lean ====
section
/-! DEFINITION. The operands a channel's tick assembles from the registers (R121, R171), the pan decode
(R119, R123, R172) and the resolved gains (R173). -/

namespace Sys2Proof.Machine

/-- Index of a code in a range of 15 that starts at `base`, if it lies there. -/
def panRange (base code : Nat) : Option (Fin 15) :=
  if h : base ≤ code ∧ code < base + 15 then some ⟨code - base, by omega⟩ else none

/-- The table index of a channel's pan byte (R123, R172): `PAN_A`, else `PAN_B`, else the centre. -/
def panIndex (code : Byte) : Fin 15 :=
  ((panRange Config.panA code.toNat).orElse fun _ => panRange Config.panB code.toNat).getD 7

/-- The table index of an auxiliary pan code (R119, R143): `PAN_B`, else the centre. -/
def auxPanIndex (code : Byte) : Fin 15 := (panRange Config.panB code.toNat).getD 7

/-- `14 - idx` (R143, R173). -/
def mirrorPan (i : Fin 15) : Fin 15 := ⟨14 - i.val, by omega⟩

/-- `delta` (R171). -/
def ChipInstance.delta (i : ChipInstance) (c : Fin 8) : Nat := i.le24 (blockBase c)

/-- `vol` (R171). -/
def ChipInstance.vol (i : ChipInstance) (c : Fin 8) : Byte := i.reg (blockBase c + 0x03)

/-- `bval = min(vol + voloff, 255)` (R171). -/
def ChipInstance.bval (i : ChipInstance) (c : Fin 8) : Byte :=
  BitVec.ofNat 8 (min ((i.vol c).toNat + (i.reg (blockBase c + 0x04)).toNat) 255)

/-- `panb` (R171). -/
def ChipInstance.panb (i : ChipInstance) (c : Fin 8) : Byte := i.reg (blockBase c + 0x05)

/-- `rdelay` (R171): the low three bits are dropped. -/
def ChipInstance.rdelay (i : ChipInstance) (c : Fin 8) : Nat := i.le16 (blockBase c + 0x06) / 8

/-- `loop` (R171). -/
def ChipInstance.loopStart (i : ChipInstance) (c : Fin 8) : Nat := i.le24 (blockBase c + 0x08)

/-- `cur_pos`, the live position (R171). -/
def ChipInstance.livePos (i : ChipInstance) (c : Fin 8) : Nat := i.le24 (blockBase c + 0x0C)

/-- The first mode byte (R33). -/
def ChipInstance.mode (i : ChipInstance) (c : Fin 8) : Byte := i.reg (modeBase c)

/-- `LOOPDIS` (R33, R171). -/
def ChipInstance.loopDisabled (i : ChipInstance) (c : Fin 8) : Bool :=
  (i.reg (modeBase c + 1)).getLsbD Config.loopDisBit

/-- `lvol` (R173). -/
def ChipInstance.leftGain (i : ChipInstance) (c : Fin 8) : Monomial :=
  ((volTab (i.vol c)).mul (panTab (panIndex (i.panb c)))).resolve i.gain[c.val]

/-- `rvol` (R173). -/
def ChipInstance.rightGain (i : ChipInstance) (c : Fin 8) : Monomial :=
  ((volTab (i.vol c)).mul (panTab (mirrorPan (panIndex (i.panb c))))).resolve i.gain[c.val]

/-- `rbvol` (R173). -/
def ChipInstance.reverbGain (i : ChipInstance) (c : Fin 8) : Monomial :=
  ((volTab (i.bval c)).scale (1 / 2)).resolve i.gain[c.val]

/-- `ridx` (R174). -/
def ChipInstance.reverbSlot (i : ChipInstance) (c : Fin 8) : Nat :=
  (i.rdelay c + i.reverbCursor) % Config.ringLen

end Sys2Proof.Machine
end

