-- ==== Sys2Proof/Machine/Control.lean ====
section
/-! DEFINITION. The register bank and control plane (`40_control_plane.md`): bus writes, bus reads, key-on
and key-off. -/

namespace Sys2Proof.Machine

/-! ### Shared parts -/

/-- The plain store (R148). -/
def storeReg (chip : Nat) (offset : Nat) (data : Byte) (s : State) : Result :=
  updateChip chip s fun i => i.setReg offset data

/-- A write to position byte `k` of channel `c` (R141): diverted into the latch if latching is active. -/
def ChipInstance.writePos (i : ChipInstance) (c : Fin 8) (k : Fin 3) (data : Byte) : ChipInstance :=
  if i.latching then i.setLatch c k data else i.setReg (blockBase c + 0x0C + k.val) data

/-- Copy channel `c`'s latch into its live position bytes (R144). -/
def ChipInstance.copyLatch (i : ChipInstance) (c : Fin 8) : ChipInstance :=
  ((i.setReg (blockBase c + 0x0C) (i.latch c 0)).setReg (blockBase c + 0x0D) (i.latch c 1)).setReg
    (blockBase c + 0x0E) (i.latch c 2)

/-- The key-on action on one selected channel (R144). -/
def ChipInstance.startChannel (latching : Bool) (i : ChipInstance) (c : Fin 8) : ChipInstance :=
  (if latching then i.copyLatch c else i).keyOn c

/-- Run an action on every channel the mask selects, in ascending order (R117, R144, R145). -/
def forMask (mask : Byte) (act : ChipInstance → Fin 8 → ChipInstance) (i : ChipInstance) : ChipInstance :=
  channels.foldl (fun j c => if mask.getLsbD c.val then act j c else j) i

/-! ### Bus writes -/

/-- `WR.POS0` (R141). -/
def execWrPos0 (chip : Nat) (c : Fin 8) (data : Byte) (s : State) : Result :=
  updateChip chip s fun i => i.writePos c 0 data

/-- `WR.POS1` (R141). -/
def execWrPos1 (chip : Nat) (c : Fin 8) (data : Byte) (s : State) : Result :=
  updateChip chip s fun i => i.writePos c 1 data

/-- `WR.POS2` (R141). -/
def execWrPos2 (chip : Nat) (c : Fin 8) (data : Byte) (s : State) : Result :=
  updateChip chip s fun i => i.writePos c 2 data

/-- The event a write of `data` to `0x13F` emits (R143). -/
def panEventOf (chip : Nat) (data : Byte) : PanEvent :=
  ⟨chip, panTab (auxPanIndex data), panTab (mirrorPan (auxPanIndex data))⟩

/-- `WR.APAN` (R143): emit the gain pair if a callback is registered, then store the byte. -/
def execWrApan (chip : Nat) (data : Byte) (s : State) : Result :=
  withChip chip s fun i =>
    finish chip (if i.panCallback then s.emitPan (panEventOf chip data) else s) (i.setReg 0x13F data) .done

/-- `WR.KON` (R144). -/
def execWrKon (chip : Nat) (data : Byte) (s : State) : Result :=
  updateChip chip s fun i => (forMask data (ChipInstance.startChannel i.latching) i).setReg 0x214 data

/-- `WR.KOFF` (R145). -/
def execWrKoff (chip : Nat) (data : Byte) (s : State) : Result :=
  updateChip chip s fun i => (forMask data ChipInstance.keyOff i).setReg 0x215 data

/-- `WR.KSTAT` (R148): not gated by `INH` (R149). -/
def execWrKstat (chip : Nat) (data : Byte) (s : State) : Result := storeReg chip 0x22C data s

/-- `WR.SDATA` (R146). -/
def execWrSdata (chip : Nat) (data : Byte) (s : State) : Result :=
  updateChip chip s fun i => (i.zoneWrite data).setReg 0x22D data

/-- `WR.ZONE` (R147). -/
def execWrZone (chip : Nat) (data : Byte) (s : State) : Result :=
  updateChip chip s fun i => { i with zoneCursor := 0 }.setReg 0x22E data

/-- `WR.CTRL` (R148). -/
def execWrCtrl (chip : Nat) (data : Byte) (s : State) : Result := storeReg chip 0x22F data s

/-- `WR.MODE` (R148). -/
def execWrMode (chip : Nat) (c : Fin 8) (second : Bool) (data : Byte) (s : State) : Result :=
  storeReg chip (modeBase c + second.toNat) data s

/-- `WR.CHAN` (R148). -/
def execWrChan (chip : Nat) (c : Fin 8) (field : BitVec 5) (data : Byte) (s : State) : Result :=
  storeReg chip (blockBase c + field.toNat) data s

/-- `WR.PLAIN` (R148); an offset above `0x22F` is `BadOffset` (R258). -/
def execWrPlain (chip : Nat) (offset : BitVec 10) (data : Byte) (s : State) : Result :=
  withChip chip s fun i =>
    if offset.toNat < Config.regSize then finish chip s (i.setReg offset.toNat data) .done
    else .fault (.badOffset offset)

/-! ### Bus reads -/

/-- `RD.SDATA` (R151): the zone byte and an advance if `RDEN` is set (R88), else 0. -/
def execRdSdata (chip : Nat) (s : State) : Result :=
  onChip chip s fun i => if i.readEnabled then (i.advanceZone, .byte i.zoneByte) else (i, .byte 0)

/-- `RD.PLAIN` (R152); an offset above `0x22F` is `BadOffset` (R258). -/
def execRdPlain (chip : Nat) (offset : BitVec 10) (s : State) : Result :=
  withChip chip s fun i =>
    if offset.toNat < Config.regSize then finish chip s i (.byte (i.reg offset.toNat))
    else .fault (.badOffset offset)

/-! ### Key-on and key-off -/

/-- `KEYON` (R154). Inside another operation it cannot fault (R264). As a request of its own it meets the shared
precondition of R255 and R256: the model's choice (assumption 20). -/
def execKeyon (chip : Nat) (c : Fin 8) (s : State) : Result := updateChip chip s fun i => i.keyOn c

/-- `KEYOFF` (R155). Inside another operation it cannot fault (R264). As a request of its own it meets the shared
precondition of R255 and R256: the model's choice (assumption 20). -/
def execKeyoff (chip : Nat) (c : Fin 8) (s : State) : Result := updateChip chip s fun i => i.keyOff c

end Sys2Proof.Machine
end

