-- ==== Sys2Proof/Machine/HostConfig.lean ====
section
/-! DEFINITION. The host configuration operations (`45_host_config.md`) and Reset
(`70_reset_and_hazards.md`). -/

namespace Sys2Proof.Machine

/-- An instance right after Init with valid arguments (R240, R62). -/
def ChipInstance.afterInit (clockHz : Nat) (rom : List Byte) (romLen : Nat)
    (updateAtKeyon reverbDisable : Bool) : ChipInstance :=
  { ChipInstance.blank with
    initialised := true
    clockHz := clockHz
    rom := Memory.ofBytes (rom.take romLen)
    romSize := romLen
    romMask := romMaskOf romLen
    flags := ⟨updateAtKeyon, reverbDisable⟩ }

/-- `INIT` (R240, R243); the arguments are checked as R260 says. -/
def execInit (chip clockHz : Nat) (rom : List Byte) (romLen : Nat) (updateAtKeyon reverbDisable : Bool)
    (s : State) : Result :=
  withIndex chip
    (if clockHz < 1 then .fault (.badArgument (.initClock clockHz))
    else if romLen < 1 then .fault (.badArgument (.initRomLen romLen))
    else if rom.length < romLen then .fault (.badArgument (.initRomBuffer rom.length romLen))
    else finish chip s (ChipInstance.afterInit clockHz rom romLen updateAtKeyon reverbDisable) .done)

/-- `EXIT` (R244): every instance ends; its RAM is released and its ROM reference dropped. -/
def execExit (s : State) : Result :=
  .next { s with chips := Vector.replicate Config.maxChips ChipInstance.blank, response := .done }

/-- Reset of an instance (R280, R281): registers, latches, channels and cursors cleared, the rest kept. -/
def ChipInstance.resetRun (i : ChipInstance) : ChipInstance :=
  { i with regs := [], posLatch := Vector.replicate 8 (Vector.replicate 3 0),
           chan := Vector.replicate 8 ⟨0, 0, 0, 0⟩, reverbCursor := 0, zoneCursor := 0,
           ram := if Config.resetClearsRam then [] else i.ram }

/-- `RESET` (R280). -/
def execReset (chip : Nat) (s : State) : Result := updateChip chip s ChipInstance.resetRun

/-- `SETGAIN` (R245); the arguments are checked as R259 says. -/
def execSetgain (chip channel : Nat) (gain : HostReal) (s : State) : Result :=
  withChip chip s fun i =>
    if 7 < channel then .fault (.badArgument (.gainChannel channel))
    else if gain.isNegative then .fault (.badArgument (.gainValue gain))
    else finish chip s { i with gain := i.gain.setIfInBounds channel gain } .done

/-- `SETROUTE` (R246); the arguments are checked as R259 says. -/
def execSetroute (chip route : Nat) (volume : HostReal) (mask : Nat) (s : State) : Result :=
  withChip chip s fun i =>
    if 1 < route then .fault (.badArgument (.routeIndex route))
    else if 3 < mask then .fault (.badArgument (.routeMask mask))
    else
      finish chip s
        { i with volume := i.volume.setIfInBounds route volume
                 routeMask := i.routeMask.setIfInBounds route (BitVec.ofNat 2 mask) } .done

/-- `SETPANCB` (R247). -/
def execSetpancb (chip : Nat) (registered : Bool) (s : State) : Result :=
  updateChip chip s fun i => { i with panCallback := registered }

end Sys2Proof.Machine
end

