-- ==== Sys2Proof/Machine/Persist.lean ====
section
/-! DEFINITION. State persistence (`44_state_persistence.md`): Snapshot and Restore. -/

namespace Sys2Proof.Machine

/-- What a snapshot of an instance holds (R230, R231). -/
def ChipInstance.snapshot (i : ChipInstance) : Snapshot where
  posLatch := i.posLatch
  regs := i.regs
  ramSamples := i.ramSamples
  ram := i.ram
  chan := i.chan
  flags := i.flags
  reverbCursor := i.reverbCursor
  zoneCursor := i.zoneCursor
  zoneLimit := i.zoneLimit

/-- A channel's saved samples are s16 (R60 (e)). -/
def samplesFit (c : ChanState) : Bool := isS16 c.val && isS16 c.pval

/-- The first condition of R235 that the data fails for this instance, in the order `SnapshotDefect` lists
them (assumption 11). -/
def ChipInstance.snapshotDefect (i : ChipInstance) (d : Snapshot) : Option SnapshotDefect :=
  if d.ramSamples ≠ i.ramSamples then some .ramSize
  else if ¬ (Memory.wf d.regs ∧ Memory.below d.regs Config.regSize ∧ Memory.wf d.ram ∧
      Memory.below d.ram (2 * d.ramSamples)) then some .image
  else if zoneLimitOf (Memory.read d.regs 0x22E) ≤ d.zoneCursor then some .zoneCursor
  else if Config.ringLen ≤ d.reverbCursor then some .reverbCursor
  else if d.chan.toList.any (fun c => decide (0x10000 ≤ c.pfrac)) then some .pfrac
  else if d.chan.toList.any (fun c => !samplesFit c) then some .sample
  else none

/-- Replace the run-time state (R233). The zone follows from the restored `regs[0x22E]` (R234); the saved
`zoneLimit` is not used. -/
def ChipInstance.restore (i : ChipInstance) (d : Snapshot) : ChipInstance :=
  { i with posLatch := d.posLatch, regs := d.regs, ram := d.ram, chan := d.chan, flags := d.flags,
           reverbCursor := d.reverbCursor, zoneCursor := d.zoneCursor }

/-- `SNAPSHOT` (R230): changes nothing of the instance. -/
def execSnapshot (chip : Nat) (s : State) : Result := onChip chip s fun i => (i, .snapshot i.snapshot)

/-- `RESTORE` (R233); data that fails R235 is `BadSnapshot` (R262). -/
def execRestore (chip : Nat) (data : Snapshot) (s : State) : Result :=
  withChip chip s fun i =>
    match i.snapshotDefect data with
    | some d => .fault (.badSnapshot d)
    | none => finish chip s (i.restore data) .done

end Sys2Proof.Machine
end

