-- ==== Sys2Proof/Machine/Channel.lean ====
section
/-! DEFINITION. The channel synthesis engine (`41_channel_synthesis.md`): the pitch accumulator, the four
decode forms, and the channel's tick. -/

namespace Sys2Proof.Machine

/-! ### Samples -/

/-- `Fetch8(p)` (R178). -/
def ChipInstance.fetch8 (i : ChipInstance) (p : Int) : Int := sext16 (256 * (i.romRead p).toNat)

/-- `Fetch16(p)` (R179). -/
def ChipInstance.fetch16 (i : ChipInstance) (p : Int) : Int :=
  sext16 ((i.romRead p).toNat + 256 * (i.romRead (p + 1)).toNat)

/-- The ROM byte that holds the nibble at address `p2` (R182). -/
def ChipInstance.nibbleByte (i : ChipInstance) (p2 : Int) : Byte := i.romRead (p2 / 2)

/-- The nibble of byte `b` that nibble address `p2` names (R182). -/
def nibbleAt (b : Byte) (p2 : Int) : BitVec 4 :=
  if decide (p2 % 2 = 0) = Config.dpcmEvenIsHigh then b.extractLsb' 4 4 else b.extractLsb' 0 4

/-! ### Stepping -/

/-- What a format gives the common stepping (R176, R185): the unit at a position as a number, the unit
that is its sentinel, where a loop jump goes, how far one step moves, and the sample a unit decodes to at a
position after the previous sample. -/
structure Codec where
  fetch : Int → Int
  sentinel : Int
  loopTo : Int
  stride : Int
  value : (unit pos prev : Int) → Int

/-- 8-bit PCM (R177, R178). -/
def codecPcm8 (i : ChipInstance) (c : Fin 8) : Codec where
  fetch := i.fetch8
  sentinel := -32768
  loopTo := i.loopStart c
  stride := 1
  value u _ _ := u

/-- 16-bit PCM (R179, R180): two bytes a step; the loop address is not doubled. -/
def codecPcm16 (i : ChipInstance) (c : Fin 8) : Codec where
  fetch := i.fetch16
  sentinel := -32768
  loopTo := i.loopStart c
  stride := 2
  value u _ _ := u

/-- 4-bit DPCM over nibble addresses (R182, R183): the sentinel is the whole byte `0x88`. -/
def codecDpcm4 (i : ChipInstance) (c : Fin 8) : Codec where
  fetch p2 := (i.nibbleByte p2).toNat
  sentinel := 0x88
  loopTo := 2 * i.loopStart c
  stride := 1
  value u p2 prev := clamp16 (prev + dpcmTab (nibbleAt (BitVec.ofInt 8 u) p2))

/-- The locals of the step loop: the position in the codec's own unit, the running fraction `f`, the current
and previous sample, and whether the sample has ended. -/
structure Stepping where
  pos : Int
  f : Int
  val : Int
  pval : Int
  ended : Bool
  deriving DecidableEq, Repr

/-- The loop/terminate rule after a move to `p` (R185): a sentinel jumps to the loop start and is fetched
again unless looping is disabled; the position and unit now in hand. -/
def Codec.land (k : Codec) (loopDis : Bool) (p : Int) : Int × Int :=
  if k.fetch p = k.sentinel ∧ loopDis = false then (k.loopTo, k.fetch k.loopTo) else (p, k.fetch p)

/-- One step (R176, R177, R180, R183): take `0x10000` off the fraction, move, fetch, test the sentinel. -/
def Codec.step (k : Codec) (rev loopDis : Bool) (t : Stepping) : Stepping :=
  let f := if rev then t.f + 0x10000 else t.f - 0x10000
  let landed := k.land loopDis (if rev then t.pos - k.stride else t.pos + k.stride)
  if landed.2 = k.sentinel then ⟨landed.1, f, 0, t.val, true⟩
  else ⟨landed.1, f, k.value landed.2 landed.1 t.val, t.val, false⟩

/-- `f < 0 or f > 0xFFFF`, the loop's condition (R176). -/
def overflows (f : Int) : Bool := f < 0 || f > 0xFFFF

/-- At most `n` steps, leaving the loop when the fraction is back in range or the sample has ended. -/
def Codec.steps (k : Codec) (rev loopDis : Bool) : Nat → Stepping → Stepping
  | 0, t => t
  | n + 1, t =>
    if overflows t.f && !t.ended then Codec.steps k rev loopDis n (k.step rev loopDis t) else t

/-- The whole loop from `f = pf + d` (R176). The bound is never reached: each step brings `f` closer to
the range by `0x10000` (R190 (b)). -/
def Codec.run (k : Codec) (rev loopDis : Bool) (delta : Nat) (pos f val pval : Int) : Stepping :=
  let f0 := if rev then f - delta else f + delta
  k.steps rev loopDis (f0.natAbs / 0x10000 + 1) ⟨pos, f0, val, pval, false⟩

/-! ### The decode forms -/

/-- Step 3 (R175): where decoding starts, cleared if the live position was reprogrammed. -/
def ChipInstance.resume (i : ChipInstance) (c : Fin 8) : ChanState :=
  let saved := i.channel c
  if (i.livePos c : Int) = saved.pos then saved else ⟨i.livePos c, 0, 0, 0⟩

/-- What a decode form leaves: the locals, whether it invoked `KeyOff`, and whether its value is mixed. -/
structure Decoded where
  chan : ChanState
  ended : Bool
  mixed : Bool
  deriving DecidableEq, Repr

/-- The locals after the PCM loops: `pf <- f mod 0x10000` (R177, R180). -/
def Stepping.decodedPcm (t : Stepping) : Decoded := ⟨⟨t.pos, (t.f % 0x10000).toNat, t.val, t.pval⟩, t.ended, true⟩

/-- `FMT.PCM8` (R177). -/
def decodePcm8 (i : ChipInstance) (c : Fin 8) (rev : Bool) (st : ChanState) : Decoded :=
  ((codecPcm8 i c).run rev (i.loopDisabled c) (i.delta c) st.pos st.pfrac st.val st.pval).decodedPcm

/-- `FMT.PCM16` (R180). -/
def decodePcm16 (i : ChipInstance) (c : Fin 8) (rev : Bool) (st : ChanState) : Decoded :=
  ((codecPcm16 i c).run rev (i.loopDisabled c) (i.delta c) st.pos st.pfrac st.val st.pval).decodedPcm

/-- The pre-scale of R181: the nibble address and fraction of a byte position and fraction. -/
def dpcmScaleUp (pos : Int) (pf : Nat) : Int × Int := (2 * pos + (pf / 0x8000 % 2 : Nat), ((2 * pf) % 0x10000 : Nat))

/-- The post-scale of R181. -/
def dpcmScaleDown (p2 f : Int) : Int × Nat :=
  (p2 / 2, (f % 0x10000).toNat / 2 + (if p2 % 2 = 0 then 0 else 0x8000))

/-- `FMT.DPCM4` (R183). -/
def decodeDpcm4 (i : ChipInstance) (c : Fin 8) (rev : Bool) (st : ChanState) : Decoded :=
  let up := dpcmScaleUp st.pos st.pfrac
  let t := (codecDpcm4 i c).run rev (i.loopDisabled c) (i.delta c) up.1 up.2 st.val st.pval
  let down := dpcmScaleDown t.pos t.f
  ⟨⟨down.1, down.2, t.val, t.pval⟩, t.ended, true⟩

/-- `FMT.NONE` (R184): no step, no fetch, nothing mixed. -/
def decodeNone (st : ChanState) : Decoded := ⟨st, false, false⟩

/-- Step 4 (R122, R176 to R186): the decode form the channel's mode byte selects. -/
def ChipInstance.decodeSample (i : ChipInstance) (c : Fin 8) : Decoded :=
  let m := i.mode c
  match modeFormat m with
  | .pcm8 => decodePcm8 i c (modeRev m) (i.resume c)
  | .pcm16 => decodePcm16 i c (modeRev m) (i.resume c)
  | .dpcm4 => decodeDpcm4 i c (modeRev m) (i.resume c)
  | .none => decodeNone (i.resume c)

/-! ### The channel's tick -/

/-- The key-off a decode form invokes at a sample's end (R185). -/
def ChipInstance.endSample (i : ChipInstance) (c : Fin 8) (ended : Bool) : ChipInstance :=
  if ended then i.keyOff c else i

/-- Step 5, the ring (R187): add the reverb send into slot `ridx`, wrapping. -/
def ChipInstance.sendReverb (i : ChipInstance) (c : Fin 8) (val : Int) : ChipInstance :=
  i.setRamSample (i.reverbSlot c)
    (wrap16 (i.ramSample (i.reverbSlot c) + (ExactReal.zero.add ((i.reverbGain c).scale val)).trunc))

/-- Step 6, the position write-back (R188). -/
def ChipInstance.writeBack (i : ChipInstance) (c : Fin 8) (pos : Int) : ChipInstance :=
  if i.inhibited then i else i.putle24 (blockBase c + 0x0C) (pos % 0x1000000).toNat

/-- What one channel's tick works on: the instance and the accumulators `L` and `R`. -/
structure Mixing where
  chip : ChipInstance
  left : ExactReal
  right : ExactReal
  deriving DecidableEq, Repr

/-- Step 5 (R187): mix a decoded value into `L`, `R` and the ring. -/
def Mixing.mix (x : Mixing) (c : Fin 8) (val : Int) : Mixing :=
  ⟨x.chip.sendReverb c val, x.left.add ((x.chip.leftGain c).scale val),
    x.right.add ((x.chip.rightGain c).scale val)⟩

/-- `CHTICK(c)` (R170): decode, key off at a sample's end, mix, write back, persist. -/
def channelTick (x : Mixing) (c : Fin 8) : Mixing :=
  let d := x.chip.decodeSample c
  let y : Mixing := { x with chip := x.chip.endSample c d.ended }
  let z := if d.mixed then y.mix c d.chan.val else y
  { z with chip := (z.chip.writeBack c d.chan.pos).setChannel c d.chan }

/-! ### The operations -/

/-- A decode form run on its own: the status bit it clears, and its locals as the answer (assumption 5),
under the shared precondition of R255 and R256 (assumption 20). -/
def runDecode (chip : Nat) (c : Fin 8) (form : ChipInstance → Decoded) (s : State) : Result :=
  onChip chip s fun i => (i.endSample c (form i).ended, .decoded (form i).chan (form i).mixed)

/-- `FMT.PCM8` (R177). -/
def execFmtPcm8 (chip : Nat) (c : Fin 8) (rev : Bool) (s : State) : Result :=
  runDecode chip c (fun i => decodePcm8 i c rev (i.resume c)) s

/-- `FMT.PCM16` (R180). -/
def execFmtPcm16 (chip : Nat) (c : Fin 8) (rev : Bool) (s : State) : Result :=
  runDecode chip c (fun i => decodePcm16 i c rev (i.resume c)) s

/-- `FMT.DPCM4` (R183). -/
def execFmtDpcm4 (chip : Nat) (c : Fin 8) (rev : Bool) (s : State) : Result :=
  runDecode chip c (fun i => decodeDpcm4 i c rev (i.resume c)) s

/-- `FMT.NONE` (R184). -/
def execFmtNone (chip : Nat) (c : Fin 8) (s : State) : Result :=
  runDecode chip c (fun i => decodeNone (i.resume c)) s

/-- `CHTICK` (R170), the accumulators starting at 0 and answered (assumption 5). Inside `TICK` it cannot fault
(R264). As a request of its own it meets the shared precondition of R255 and R256: the model's choice
(assumption 20). -/
def execChtick (chip : Nat) (c : Fin 8) (s : State) : Result :=
  onChip chip s fun i =>
    let x := channelTick ⟨i, ExactReal.zero, ExactReal.zero⟩ c
    (x.chip, .mix x.left x.right)

end Sys2Proof.Machine
end

