-- ==== Sys2Proof/Machine/Mix.lean ====
section
/-! DEFINITION. The reverb delay line and mix stage (`42_reverb_mix.md`): the native tick. -/

namespace Sys2Proof.Machine

/-- The seed of both accumulators (R201). -/
def ChipInstance.seed (i : ChipInstance) : Int :=
  if i.flags.reverbDisable then 0 else i.ramSample i.reverbCursor

/-- The start of a tick (R201): both accumulators at the seed, the slot cleared. -/
def startTick (i : ChipInstance) : Mixing :=
  ⟨i.setRamSample i.reverbCursor 0, ExactReal.ofInt i.seed, ExactReal.ofInt i.seed⟩

/-- Every active channel in ascending order (R202). -/
def runChannels (x : Mixing) : Mixing :=
  channels.foldl (fun y c => if y.chip.active c then channelTick y c else y) x

/-- The cursor's advance (R203). -/
def ChipInstance.advanceRing (i : ChipInstance) : ChipInstance :=
  { i with reverbCursor := (i.reverbCursor + 1) % Config.ringLen }

/-- What route `r` adds to a side whose enable is bit `side` of its mask (R204, R205, R206). -/
def Mixing.routed (x : Mixing) (r : Fin 2) (side : Nat) : Int :=
  if x.chip.routeMask[r.val].getLsbD side then
    ((Config.routeSource x.left x.right r).times x.chip.volume[r.val]).trunc
  else 0

/-- The frame (R204, R207): both routes summed, each side clipped. -/
def Mixing.frame (x : Mixing) : Frame :=
  ⟨clamp16 (x.routed 0 0 + x.routed 1 0), clamp16 (x.routed 0 1 + x.routed 1 1)⟩

/-- `TICK()` (R200). -/
def ChipInstance.tick (i : ChipInstance) : ChipInstance × Frame :=
  let x := runChannels (startTick i)
  (x.chip.advanceRing, x.frame)

/-- `TICK` (R200). Inside `UPDATE` it cannot fault (R264). As a request of its own it meets the shared precondition of
R255 and R256: the model's choice (assumption 20). -/
def execTick (chip : Nat) (s : State) : Result :=
  onChip chip s fun i => (i.tick.1, .frame i.tick.2)

end Sys2Proof.Machine
end

