-- ==== Sys2Proof/Machine/Resampler.lean ====
section
/-! DEFINITION. The two-stage resampler (`43_resampler.md`): the Update operation. -/

namespace Sys2Proof.Machine

/-- First pass (R218): `n` ticks back to back and their frames in time order. -/
def ChipInstance.ticks : Nat → ChipInstance → ChipInstance × List Frame
  | 0, i => (i, [])
  | n + 1, i =>
    let t := i.tick
    let rest := ChipInstance.ticks n t.1
    (rest.1, t.2 :: rest.2)

/-- Add a frame to what the buffer holds, clipped (R221). -/
def Frame.mixed (old new : Frame) : Frame := ⟨clamp16 (old.left + new.left), clamp16 (old.right + new.right)⟩

/-- The native frame that host frame `j` takes, `k = floor(j * N / M)` (R220). -/
def nativeFrame (native : List Frame) (m j : Nat) : Frame := native.getD (j * native.length / m) ⟨0, 0⟩

/-- Second pass (R220, R221) over the buffer from host frame `j` on; frames from `m` on are not touched. -/
def mixBuffer (native : List Frame) (m : Nat) : Nat → List Frame → List Frame
  | _, [] => []
  | j, f :: out => (if j < m then Frame.mixed f (nativeFrame native m j) else f) :: mixBuffer native m (j + 1) out

/-- `UPDATE` with the number of native ticks given (R215, R216). -/
def ChipInstance.update (i : ChipInstance) (ticks : Nat) (out : List Frame) (m : Nat) : ChipInstance × List Frame :=
  if i.enabled then
    let pass := i.ticks ticks
    (pass.1, mixBuffer pass.2 m 0 out)
  else (i, out)

/-- `UPDATE` (R215); a buffer shorter than the request is `BadBuffer` (R261). -/
def execUpdate (chip : Nat) (out : List Frame) (count : Nat) (host : HostParams) (s : State) : Result :=
  withChip chip s fun i =>
    if out.length < count then .fault (.badBuffer count out.length)
    else
      let r := i.update (Config.nativeTicks i.clockHz host count) out count
      finish chip s r.1 (.buffer r.2)

end Sys2Proof.Machine
end

