-- ==== Sys2Proof/Machine/Dispatch.lean ====
section
/-! DEFINITION. One arm per operation of the opcode table. -/

namespace Sys2Proof.Machine

/-- The meaning of one operation. -/
def exec (i : Instr) (s : State) : Host.Outcome State Fault Refusal :=
  match i with
  | .wrPos0 chip c data => Sys2Proof.Machine.execWrPos0 chip c data s
  | .wrPos1 chip c data => Sys2Proof.Machine.execWrPos1 chip c data s
  | .wrPos2 chip c data => Sys2Proof.Machine.execWrPos2 chip c data s
  | .wrApan chip data => Sys2Proof.Machine.execWrApan chip data s
  | .wrKon chip data => Sys2Proof.Machine.execWrKon chip data s
  | .wrKoff chip data => Sys2Proof.Machine.execWrKoff chip data s
  | .wrKstat chip data => Sys2Proof.Machine.execWrKstat chip data s
  | .wrSdata chip data => Sys2Proof.Machine.execWrSdata chip data s
  | .wrZone chip data => Sys2Proof.Machine.execWrZone chip data s
  | .wrCtrl chip data => Sys2Proof.Machine.execWrCtrl chip data s
  | .wrMode chip c second data => Sys2Proof.Machine.execWrMode chip c second data s
  | .wrChan chip c field data => Sys2Proof.Machine.execWrChan chip c field data s
  | .wrPlain chip offset data => Sys2Proof.Machine.execWrPlain chip offset data s
  | .rdSdata chip => Sys2Proof.Machine.execRdSdata chip s
  | .rdPlain chip offset => Sys2Proof.Machine.execRdPlain chip offset s
  | .fmtPcm8 chip c rev => Sys2Proof.Machine.execFmtPcm8 chip c rev s
  | .fmtPcm16 chip c rev => Sys2Proof.Machine.execFmtPcm16 chip c rev s
  | .fmtDpcm4 chip c rev => Sys2Proof.Machine.execFmtDpcm4 chip c rev s
  | .fmtNone chip c => Sys2Proof.Machine.execFmtNone chip c s
  | .init chip clockHz rom romLen updateAtKeyon reverbDisable => Sys2Proof.Machine.execInit chip clockHz rom romLen updateAtKeyon reverbDisable s
  | .exit => Sys2Proof.Machine.execExit s
  | .reset chip => Sys2Proof.Machine.execReset chip s
  | .setgain chip channel gain => Sys2Proof.Machine.execSetgain chip channel gain s
  | .setroute chip route volume mask => Sys2Proof.Machine.execSetroute chip route volume mask s
  | .setpancb chip registered => Sys2Proof.Machine.execSetpancb chip registered s
  | .update chip out count host => Sys2Proof.Machine.execUpdate chip out count host s
  | .snapshot chip => Sys2Proof.Machine.execSnapshot chip s
  | .restore chip data => Sys2Proof.Machine.execRestore chip data s
  | .tick chip => Sys2Proof.Machine.execTick chip s
  | .chtick chip c => Sys2Proof.Machine.execChtick chip c s
  | .keyon chip c => Sys2Proof.Machine.execKeyon chip c s
  | .keyoff chip c => Sys2Proof.Machine.execKeyoff chip c s

end Sys2Proof.Machine
end

