-- ==== Sys2Proof/Machine/Fetch.lean ====
section
/-! DEFINITION. Taking the next request, and what happens to one that is no operation. -/

namespace Sys2Proof.Machine

/-- Replace the pending requests. -/
def State.withPending (s : State) (p : List Request) : State := { s with pending := p }

/-- A request that encodes no operation: an offset above `0x22F` is the fault `BadOffset` (R111, R258), after
the checks that come first (R266); any other is refused by name. -/
def rejectRequest (chip : Nat) (e : DecodeError) (s : State) : Result :=
  match e with
  | .badOffset offset => withChip chip s fun _ => .fault (.badOffset offset)
  | .noOperation h => .refused (.noOperation (.noOperation h))
  | .notFrames => .refused (.noOperation .notFrames)

end Sys2Proof.Machine
end

