-- ==== Sys2Proof/Machine/Step.lean ====
section
/-! DEFINITION. One step of the machine: the next request the host has issued runs whole (R97). -/

namespace Sys2Proof.Machine

/-- One step. With nothing pending the block does nothing: it has no self-start (R283). -/
def step (s : State) : Host.Outcome State Fault Refusal :=
  match s.pending with
  | [] => .next s
  | r :: rest =>
    match decode r with
    | .ok i => exec i (s.withPending rest)
    | .error e => rejectRequest r.chip e (s.withPending rest)

/-- The state with an opcode-table word of `nbits` bits as the host's next request (assumption 2). -/
def State.withFetchWord (s : State) (nbits w : Nat) : State :=
  s.withPending (requestOfTableWord nbits w :: s.pending)

end Sys2Proof.Machine
end

