-- ==== Sys2Proof/Safety.lean ====
section
/-! DEFINITION. What counts as a legal state (the invariants of R60 for every instance, and the canonical
form of its memories), the terms in which statements say what an operation changes, and the real numbers that
monomials and exact reals stand for. -/

namespace Sys2Proof

/-- The instance an operation names; `EXIT` names none (R248). -/
def Instr.target : Instr → Option Nat
  | .wrPos0 chip _ _ | .wrPos1 chip _ _ | .wrPos2 chip _ _ | .wrApan chip _ | .wrKon chip _ | .wrKoff chip _
  | .wrKstat chip _ | .wrSdata chip _ | .wrZone chip _ | .wrCtrl chip _ | .wrMode chip _ _ _
  | .wrChan chip _ _ _ | .wrPlain chip _ _ | .rdSdata chip | .rdPlain chip _ | .fmtPcm8 chip _ _
  | .fmtPcm16 chip _ _ | .fmtDpcm4 chip _ _ | .fmtNone chip _ | .init chip _ _ _ _ _ | .reset chip
  | .setgain chip _ _ | .setroute chip _ _ _ | .setpancb chip _ | .update chip _ _ _ | .snapshot chip
  | .restore chip _ | .tick chip | .chtick chip _ | .keyon chip _ | .keyoff chip _ => some chip
  | .exit => none

/-! ### The reals -/

/-- `10^(-tens/320) * sqrt rad`. -/
noncomputable def rootValue (tens rad : Nat) : ℝ := (10 : ℝ) ^ (-(tens : ℝ) / 320) * √rad

/-- The real `(whole + 1 + 0.b b b …) / 2^shift` with the binary digits `bit 0, bit 1, …`. Every positive real has
this form. -/
noncomputable def digitsValue (whole shift : Nat) (bit : Nat → Bool) : ℝ :=
  (whole + 1 + Real.ofDigits fun n => (if bit n then 1 else 0 : Fin 2)) / 2 ^ shift

/-- The size of the host's `k`-th number. -/
noncomputable def sizeValue (k : Nat) : ℝ :=
  digitsValue (Config.hostWhole k) (Config.hostShift k) (Config.hostBit k)

/-- The real a number of the host stands for (R245, R246). -/
noncomputable def HostReal.value : HostReal → ℝ
  | .rat q => q
  | .named negative k => if negative then -sizeValue k else sizeValue k

/-- The real a factor stands for. -/
noncomputable def Factor.value : Factor → ℝ
  | .size k => sizeValue k
  | .capped num den tens rad k => min ((num : ℝ) / den * rootValue tens rad * sizeValue k) (9 / 5)

/-- The real a monomial stands for (R20). -/
noncomputable def Monomial.value (x : Monomial) : ℝ :=
  x.coeff * rootValue x.tens x.rad * (x.factors.map Factor.value).prod

/-- The monomial stands for `r` (R20). -/
def Monomial.Denotes (x : Monomial) (r : ℝ) : Prop := r = x.value

/-- The exact real stands for `r` (R20). -/
def ExactReal.Denotes (x : ExactReal) (r : ℝ) : Prop := r = (x.terms.map Monomial.value).sum

/-- The integer part of a real, toward zero (R15). -/
def IsTrunc (r : ℝ) (v : Int) : Prop := if 0 ≤ r then (v : ℝ) ≤ r ∧ r < v + 1 else (v : ℝ) - 1 < r ∧ r ≤ v

end Sys2Proof

namespace Sys2Proof.Machine

/-- R60 (c) and (e) for one channel. -/
abbrev ChannelOk (c : ChanState) : Prop := c.pfrac ≤ 0xFFFF ∧ isS16 c.val = true ∧ isS16 c.pval = true

/-- The memories are canonical and hold nothing beyond their sizes (R31, R53, R54). -/
abbrev ChipInstance.MemoriesOk (i : ChipInstance) : Prop :=
  (Memory.wf i.regs ∧ Memory.below i.regs Config.regSize) ∧
    (Memory.wf i.ram ∧ Memory.below i.ram (2 * i.ramSamples)) ∧
      (Memory.wf i.rom ∧ Memory.below i.rom i.romSize)

/-- The invariants of R60 for one instance, together with the canonical form of its memories and the sign
of its gains (R47). R60 (f) holds by construction: the zone is computed from `regs[0x22E]` (R51). -/
structure ChipInstance.Inv (i : ChipInstance) : Prop where
  /-- R60 (a). -/
  mask : ∃ n, i.romMask = 2 ^ n - 1 ∧ i.romSize - 1 ≤ i.romMask
  /-- R60 (b). -/
  zoneCursor : i.zoneCursor < i.zoneLimit
  /-- R60 (d). -/
  reverbCursor : i.reverbCursor ≤ 8191
  /-- R60 (c), (e). -/
  channels : ∀ c : Fin 8, ChannelOk (i.channel c)
  /-- R31, R53, R54. -/
  memories : i.MemoriesOk
  /-- R47. -/
  gains : ∀ c : Fin 8, i.gain[c.val].isNegative = false

/-- Every instance is in a legal state. -/
def State.Inv (s : State) : Prop := ∀ id, id < Config.maxChips → (s.chip id).Inv

/-- The host may issue operations on instance `id`: the index is valid and the instance is initialised
(R255, R256). -/
abbrev State.Ready (s : State) (id : Nat) : Prop := id < Config.maxChips ∧ (s.chip id).initialised = true

/-- The outcome is a next state that satisfies `p`. -/
def Completes (r : Result) (p : State → Prop) : Prop := ∃ t, r = .next t ∧ p t

/-! ### What an operation changes -/

/-- Nothing but instance `id` and the answer differs. -/
abbrev State.OnlyChip (s t : State) (id : Nat) : Prop :=
  (∀ k, k ≠ id → t.chip k = s.chip k) ∧ t.pending = s.pending ∧ t.panLog = s.panLog

/-- The operation completes, changes nothing but instance `id`, answers `r`, and leaves the instance in a
state that satisfies `p`. -/
def RunsOn (res : Result) (s : State) (id : Nat) (r : Response) (p : ChipInstance → Prop) : Prop :=
  Completes res fun t => s.OnlyChip t id ∧ t.response = r ∧ p (t.chip id)

/-- Nothing but registers at the offsets `written` differs: no memory, channel state, latch, cursor, flag or
host setting. -/
abbrev ChipInstance.RegsOnly (i j : ChipInstance) (written : Nat → Prop) : Prop :=
  j = { i with regs := j.regs } ∧ ∀ a, ¬ written a → j.reg a = i.reg a

/-- The three register bytes at `a`, the low one first: how a channel's block holds `DELTA`, `LOOP` and `POS` (R32,
R121; the places and the byte order of the first two are the spec's decisions D2 and D3). -/
abbrev ChipInstance.bytes24 (i : ChipInstance) (a : Nat) : Nat :=
  (i.reg a).toNat + 0x100 * (i.reg (a + 1)).toNat + 0x10000 * (i.reg (a + 2)).toNat

/-- The operation stores `data` at register `offset` of instance `id` and does nothing else. -/
abbrev StoresByte (res : Result) (s : State) (id offset : Nat) (data : Byte) : Prop :=
  RunsOn res s id .done fun j => (s.chip id).RegsOnly j (· = offset) ∧ j.reg offset = data

/-- The write to position byte `k` of channel `c`. -/
def writePosOp (chip : Nat) (c : Fin 8) (k : Fin 3) (data : Byte) : Instr :=
  match k with
  | 0 => .wrPos0 chip c data
  | 1 => .wrPos1 chip c data
  | 2 => .wrPos2 chip c data

/-- One step of the loop of a decode form from the locals `t` to `u` (R176, R177, R180, R183, R185): the fraction
comes nearer to its range by `0x10000`, the position moves by a stride, and at a sentinel, looping on, jumps to the
loop start; the unit at the position reached ends the sample with 0 if it is a sentinel, and is decoded if not. -/
def Codec.StepsTo (k : Codec) (rev loopDis : Bool) (t u : Stepping) : Prop :=
  let p := if rev then t.pos - k.stride else t.pos + k.stride
  let q := if k.fetch p = k.sentinel ∧ loopDis = false then k.loopTo else p
  u.f = (if rev then t.f + 0x10000 else t.f - 0x10000) ∧ u.pos = q ∧ u.pval = t.val ∧
    u.ended = decide (k.fetch q = k.sentinel) ∧
      u.val = if k.fetch q = k.sentinel then 0 else k.value (k.fetch q) q t.val

/-- The loop of a decode form leads from the locals `t` to `u` in at most 256 steps: it steps while the fraction is
out of range and the sample has not ended, and no further (R176, R185, R190 (b)). -/
def Codec.LoopsTo (k : Codec) (rev loopDis : Bool) (t u : Stepping) : Prop :=
  ∃ (n : Nat) (path : Nat → Stepping), n ≤ 256 ∧ path 0 = t ∧ path n = u ∧
    (∀ m, m < n → ((path m).f < 0 ∨ 0xFFFF < (path m).f) ∧ (path m).ended = false ∧
      k.StepsTo rev loopDis (path m) (path (m + 1))) ∧
      ((0 ≤ u.f ∧ u.f ≤ 0xFFFF) ∨ u.ended = true)

/-- Nothing but channel `c`'s status bit differs, and that is cleared exactly if the sample has ended and the control
register does not inhibit it (R155, R185). -/
def ChipInstance.EndsSample (i j : ChipInstance) (c : Fin 8) (ended : Bool) : Prop :=
  i.RegsOnly j (· = 0x22C) ∧
    j.reg 0x22C = if ended = true ∧ (i.reg 0x22F).getLsbD 7 = false then i.reg 0x22C &&& ~~~(1#8 <<< c.val)
      else i.reg 0x22C

/-- The precondition of Restore (R235) for an instance: the same RAM length, canonical images of that many
bytes, and the invariants of R60. -/
structure ChipInstance.Accepts (i : ChipInstance) (d : Snapshot) : Prop where
  ramSize : d.ramSamples = i.ramSamples
  regs : Memory.wf d.regs ∧ Memory.below d.regs Config.regSize
  ram : Memory.wf d.ram ∧ Memory.below d.ram (2 * d.ramSamples)
  zoneCursor : d.zoneCursor < (if Memory.read d.regs 0x22E = 0x80 then 0x4000 else 0x20000)
  reverbCursor : d.reverbCursor ≤ 8191
  channels : ∀ c : Fin 8, ChannelOk d.chan[c.val]

/-- The configuration a snapshot leaves out (R232). -/
abbrev ChipInstance.SameConfig (i j : ChipInstance) : Prop :=
  i.initialised = j.initialised ∧ i.clockHz = j.clockHz ∧ i.rom = j.rom ∧ i.romSize = j.romSize ∧
    i.romMask = j.romMask ∧ i.gain = j.gain ∧ i.volume = j.volume ∧ i.routeMask = j.routeMask ∧
      i.panCallback = j.panCallback

/-- The instance after `n` ticks. -/
def ChipInstance.afterTicks (i : ChipInstance) (n : Nat) : ChipInstance := (fun j => j.tick.1)^[n] i

end Sys2Proof.Machine
end

