-- ==== Sys2Proof/Certificates/Slice0/Obligations.lean ====
section
/-! DEFINITION. The statements for the provers. Each docstring says which rule of the spec a statement
formalises. A bit of the control register is written out as a bit of `reg 0x22F`: bit 0 is `EN`, bit 4 `RDEN`,
bit 7 `INH` (R41). -/

open Sys2Proof Sys2Proof.Machine

/-! ### Requests and faults -/

/-- The next request, if it decodes, runs as its operation with the request taken off the queue. That requests
come from a queue is the model's choice (assumption 2). -/
def Obligations.StepRunsDecodedOperation : Prop :=
  ∀ (s : State) (r : Request) (rest : List Request) (i : Instr),
    s.pending = r :: rest → decode r = .ok i → step s = exec i (s.withPending rest)

/-- With nothing pending a step changes nothing: the block has no self-start (R283). That the machine may step
at all then is the model's choice (assumption 2). -/
def Obligations.EmptyQueueIdles : Prop := ∀ s : State, s.pending = [] → step s = .next s

/-- A bus word faults with `BadOffset`, recording the offset, exactly if its offset is above `0x22F` (R258),
after the checks of the index and of initialisation; below, a bus word on a ready instance completes. -/
def Obligations.BusOffsetRange : Prop :=
  ∀ (s : State) (r : Request) (rest : List Request) (t : BitVec 19),
    s.pending = r :: rest → r.word = .bus t →
      (0x22F < (busOffset t).toNat →
        step s =
          if Config.maxChips ≤ r.chip then .fault (.badChip r.chip)
          else if (s.chip r.chip).initialised then .fault (.badOffset (busOffset t))
          else .fault (.notInitialised r.chip)) ∧
      ((busOffset t).toNat ≤ 0x22F → s.Ready r.chip → Completes (step s) fun _ => True)

/-- `HOST` selectors 9 to 15 name no operation (R112); the refusal is the model's choice (assumption 17). -/
def Obligations.UnnamedSelectorsRefused : Prop :=
  ∀ (s : State) (r : Request) (rest : List Request) (h : BitVec 4),
    s.pending = r :: rest → r.word = .host h → 9 ≤ h.toNat →
      step s = .refused (.noOperation (.noOperation h))

/-- R255: every operation with a chip index outside the range faults with `BadChip`, whatever its other
arguments, and records the index. That this holds of an internal operation or decode form requested on its own too is
the model's choice (R264, assumption 20). -/
def Obligations.BadChipFault : Prop :=
  ∀ (i : Instr) (s : State) (id : Nat),
    i.target = some id → Config.maxChips ≤ id → exec i s = .fault (.badChip id)

/-- R256: every operation other than Init and Exit on a valid index whose instance is not initialised faults
with `NotInitialised` and records the index; none is initialised at power-up; and only Init sets and only Exit
clears the bit. That an internal operation or decode form requested on its own faults so too is the model's choice
(R264, assumption 20). -/
def Obligations.NotInitialisedFault : Prop :=
  (∀ (i : Instr) (s : State) (id : Nat),
    i.target = some id → id < Config.maxChips → (s.chip id).initialised = false →
      (∀ clockHz rom romLen k d, i ≠ .init id clockHz rom romLen k d) →
        exec i s = .fault (.notInitialised id)) ∧
  (∀ id, (State.reset.chip id).initialised = false) ∧
  (∀ (i : Instr) (s t : State) (id : Nat), exec i s = .next t →
    (t.chip id).initialised =
      match i with
      | .init chip _ _ _ _ _ => if id = chip then true else (s.chip id).initialised
      | .exit => false
      | _ => (s.chip id).initialised)

/-- R248, R270: an operation changes no instance but the one it names. -/
def Obligations.OtherInstancesUntouched : Prop :=
  ∀ (i : Instr) (s t : State) (id : Nat),
    i.target = some id → exec i s = .next t → ∀ k, k ≠ id → t.chip k = s.chip k

/-- R54, R55, R96: no operation but Init and Exit changes an instance's ROM, its mask or its clock. -/
def Obligations.RomAndClockNeverWritten : Prop :=
  ∀ (i : Instr) (s t : State) (id : Nat),
    exec i s = .next t → i ≠ .exit → (∀ clockHz rom romLen k d, i ≠ .init id clockHz rom romLen k d) →
      (t.chip id).rom = (s.chip id).rom ∧ (t.chip id).romSize = (s.chip id).romSize ∧
        (t.chip id).romMask = (s.chip id).romMask ∧ (t.chip id).clockHz = (s.chip id).clockHz

/-! ### Encoding -/

/-- Decoding the request that encodes a well-formed operation gives the operation back, every operand at every
value (R111, R112, R114, R115, R116, R122). -/
def Obligations.DecodeEncode : Prop := ∀ i : Instr, i.wellFormed = true → decode (encode i) = .ok i

/-- Whatever decodes is well-formed: its offsets lie where its row says (R113, R115, R116), and a buffer holds s16
frames (R215, R222). A step refuses an Update request whose buffer holds any other frame; that refusal is the model's
choice (assumption 17). -/
def Obligations.DecodedAreWellFormed : Prop :=
  (∀ (r : Request) (i : Instr), decode r = .ok i → i.wellFormed = true) ∧
  (∀ (s : State) (r : Request) (rest : List Request) (f : Frame), s.pending = r :: rest → r.word = .host 6 →
    f ∈ r.args.out → ¬ (-32768 ≤ f.left ∧ f.left ≤ 32767 ∧ -32768 ≤ f.right ∧ f.right ≤ 32767) →
      step s = .refused (.noOperation .notFrames))

/-- R128: a word that decodes is decoded to the operation of the first row of its format that fits, and every
word of a valid offset decodes. -/
def Obligations.DecodeFollowsTable : Prop :=
  (∀ (r : Request) (i : Instr), decode r = .ok i → r.word.mnemonic? = some i.mnemonic) ∧
  (∀ (r : Request) (t : BitVec 19), r.word = .bus t → (busOffset t).toNat ≤ 0x22F → ∃ i, decode r = .ok i)

/-- A few words written out from the spec's formats stand for the operations the spec gives them, and an Init that
gives no strap takes the defaults of R11 (the spec's decision D20). -/
def Obligations.WrittenOutWords : Prop :=
  decode { chip := 0, word := .bus 0x40C03 } = .ok (.wrPos0 0 0 0x03) ∧
  decode { chip := 0, word := .bus 0x44EAA } = .ok (.wrPos2 0 2 0xAA) ∧
  decode { chip := 0, word := .bus 0x53F18 } = .ok (.wrApan 0 0x18) ∧
  decode { chip := 0, word := .bus 0x60024 } = .ok (.wrMode 0 0 false 0x24) ∧
  decode { chip := 0, word := .bus 0x62D55 } = .ok (.wrSdata 0 0x55) ∧
  decode { chip := 0, word := .bus 0x22D00 } = .ok (.rdSdata 0) ∧
  decode { chip := 0, word := .mode 0x28, args := { channel := 3 } } = .ok (.fmtDpcm4 0 3 true) ∧
  decode { chip := 1, word := .host 7 } = .ok (.snapshot 1) ∧
  decode { chip := 0, word := .host 0, args := { clockHz := 18432000, rom := [0x0A], romLen := 1 } } =
    .ok (.init 0 18432000 [0x0A] 1 true false) ∧
  decode { chip := 1, word := .int 3, args := { channel := 5 } } = .ok (.keyoff 1 5)

/-! ### Bus writes -/

/-- R141, R142: with `updateAtKeyon` and `EN` set a write to a position byte goes to the latch and nowhere else;
otherwise it is a plain store. -/
def Obligations.PositionWrite : Prop :=
  ∀ (s : State) (chip : Nat) (c : Fin 8) (k : Fin 3) (data : Byte), s.Ready chip →
    let i := s.chip chip
    RunsOn (exec (writePosOp chip c k data) s) s chip .done fun j =>
      if i.flags.updateAtKeyon = true ∧ (i.reg 0x22F).getLsbD 0 = true then
        j = { i with posLatch := j.posLatch } ∧ j.latch c k = data ∧
          ∀ d l, ¬ (d = c ∧ l = k) → j.latch d l = i.latch d l
      else i.RegsOnly j (· = 0x20 * c.val + 0x0C + k.val) ∧ j.reg (0x20 * c.val + 0x0C + k.val) = data

/-- R148: each plain store stores its byte at its offset and does nothing else; a store to `0x22C` is the new
status. -/
def Obligations.PlainStore : Prop :=
  ∀ (s : State) (chip : Nat) (data : Byte), s.Ready chip →
    StoresByte (exec (.wrKstat chip data) s) s chip 0x22C data ∧
    StoresByte (exec (.wrCtrl chip data) s) s chip 0x22F data ∧
    (∀ (c : Fin 8) (second : Bool),
      StoresByte (exec (.wrMode chip c second data) s) s chip (0x200 + 2 * c.val + second.toNat) data) ∧
    (∀ (c : Fin 8) (field : BitVec 5), isChanField field = true →
      StoresByte (exec (.wrChan chip c field data) s) s chip (0x20 * c.val + field.toNat) data) ∧
    (∀ o : BitVec 10, isPlainOffset o = true →
      StoresByte (exec (.wrPlain chip o data) s) s chip o.toNat data)

/-- R143: a write of `0x13F` emits the gain pair of its code if a callback is registered, and stores the byte. -/
def Obligations.AuxiliaryPanWrite : Prop :=
  ∀ (s : State) (chip : Nat) (data : Byte) (p : Fin 15), s.Ready chip →
    p.val = (if 0x11 ≤ data.toNat ∧ data.toNat ≤ 0x1F then data.toNat - 0x11 else 7) →
      let i := s.chip chip
      Completes (exec (.wrApan chip data) s) fun t =>
        (∀ k, k ≠ chip → t.chip k = s.chip k) ∧ t.pending = s.pending ∧ t.response = .done ∧
          t.panLog = s.panLog ++
            (if i.panCallback then [⟨chip, panTab p, panTab ⟨14 - p.val, by omega⟩⟩] else []) ∧
          i.RegsOnly (t.chip chip) (· = 0x13F) ∧ (t.chip chip).reg 0x13F = data

/-- R144: a key-on mask copies, with latching, the latch of each selected channel to its position bytes, sets
the selected status bits unless inhibited, and stores the mask. -/
def Obligations.KeyOnMaskWrite : Prop :=
  ∀ (s : State) (chip : Nat) (data : Byte), s.Ready chip →
    let i := s.chip chip
    let latching := i.flags.updateAtKeyon && (i.reg 0x22F).getLsbD 0
    RunsOn (exec (.wrKon chip data) s) s chip .done fun j =>
      i.RegsOnly j (fun a => a = 0x214 ∨ a = 0x22C ∨
        ∃ (c : Fin 8) (k : Fin 3), latching = true ∧ data.getLsbD c.val = true ∧ a = 0x20 * c.val + 0x0C + k.val) ∧
      j.reg 0x214 = data ∧
      j.reg 0x22C = (if (i.reg 0x22F).getLsbD 7 then i.reg 0x22C else i.reg 0x22C ||| data) ∧
      (latching = true → ∀ (c : Fin 8) (k : Fin 3), data.getLsbD c.val = true →
        j.reg (0x20 * c.val + 0x0C + k.val) = i.latch c k)

/-- R145: a key-off mask clears the selected status bits unless inhibited, and stores the mask. -/
def Obligations.KeyOffMaskWrite : Prop :=
  ∀ (s : State) (chip : Nat) (data : Byte), s.Ready chip →
    let i := s.chip chip
    RunsOn (exec (.wrKoff chip data) s) s chip .done fun j =>
      i.RegsOnly j (fun a => a = 0x215 ∨ a = 0x22C) ∧ j.reg 0x215 = data ∧
        j.reg 0x22C = if (i.reg 0x22F).getLsbD 7 then i.reg 0x22C else i.reg 0x22C &&& ~~~data

/-- R154: `KeyOn(c)` sets the channel's status bit and no other, and does nothing at all if inhibited. -/
def Obligations.KeyOnOperation : Prop :=
  ∀ (s : State) (chip : Nat) (c : Fin 8), s.Ready chip →
    let i := s.chip chip
    RunsOn (exec (.keyon chip c) s) s chip .done fun j =>
      if (i.reg 0x22F).getLsbD 7 then j = i
      else i.RegsOnly j (· = 0x22C) ∧
        ∀ d : Fin 8, (j.reg 0x22C).getLsbD d.val = (decide (d = c) || (i.reg 0x22C).getLsbD d.val)

/-- R155: `KeyOff(c)` clears the channel's status bit and no other, and does nothing at all if inhibited. -/
def Obligations.KeyOffOperation : Prop :=
  ∀ (s : State) (chip : Nat) (c : Fin 8), s.Ready chip →
    let i := s.chip chip
    RunsOn (exec (.keyoff chip c) s) s chip .done fun j =>
      if (i.reg 0x22F).getLsbD 7 then j = i
      else i.RegsOnly j (· = 0x22C) ∧
        ∀ d : Fin 8, (j.reg 0x22C).getLsbD d.val = (!decide (d = c) && (i.reg 0x22C).getLsbD d.val)

/-! ### The serial window -/

/-- R146, R89: a write of the serial port stores the byte at the cursor if the zone is RAM, advances the cursor in
every zone, wrapping at the zone's limit, and stores the byte in `0x22D`. -/
def Obligations.SerialWrite : Prop :=
  ∀ (s : State) (chip : Nat) (data : Byte), s.Ready chip →
    let i := s.chip chip
    RunsOn (exec (.wrSdata chip data) s) s chip .done fun j =>
      j = { i with regs := j.regs, ram := j.ram, zoneCursor := j.zoneCursor } ∧
      (∀ a, j.reg a = if a = 0x22D then data else i.reg a) ∧
      (∀ a, j.ramByte a = if i.reg 0x22E = 0x80 ∧ a = i.zoneCursor then data else i.ramByte a) ∧
      j.zoneCursor =
        if i.zoneCursor + 1 = (if i.reg 0x22E = 0x80 then 0x4000 else 0x20000) then 0 else i.zoneCursor + 1

/-- R147, R118: a write of the zone select stores the byte and sets the cursor to 0; from then on the window shows
RAM byte 0 or the first byte of the selected ROM bank, read through the ROM mask (R88, the spec's decision D23). -/
def Obligations.ZoneSelect : Prop :=
  ∀ (s : State) (chip : Nat) (data : Byte), s.Ready chip →
    let i := s.chip chip
    RunsOn (exec (.wrZone chip data) s) s chip .done fun j =>
      j = { i with regs := j.regs, zoneCursor := 0 } ∧ (∀ a, j.reg a = if a = 0x22E then data else i.reg a) ∧
      j.zoneLimit = (if data = 0x80 then 0x4000 else 0x20000) ∧
      j.zoneByte = if data = 0x80 then i.ramByte 0 else i.romRead (data.toNat * 0x20000 : Nat)

/-- R151, R88: a read of the serial port returns the byte at the cursor and advances the cursor, wrapping at the
zone's limit, if `RDEN` is set; otherwise it returns 0 and changes nothing. -/
def Obligations.SerialRead : Prop :=
  ∀ (s : State) (chip : Nat), s.Ready chip →
    let i := s.chip chip
    if (i.reg 0x22F).getLsbD 4 = true then
      RunsOn (exec (.rdSdata chip) s) s chip
        (.byte (if i.reg 0x22E = 0x80 then i.ramByte i.zoneCursor
          else i.romRead ((i.reg 0x22E).toNat * 0x20000 + i.zoneCursor : Nat))) fun j =>
        j = { i with
          zoneCursor :=
            if i.zoneCursor + 1 = (if i.reg 0x22E = 0x80 then 0x4000 else 0x20000) then 0 else i.zoneCursor + 1 }
    else RunsOn (exec (.rdSdata chip) s) s chip (.byte 0) (· = i)

/-- R152: a read of any other register returns the stored byte and has no side effect. -/
def Obligations.PlainRead : Prop :=
  ∀ (s : State) (chip : Nat) (o : BitVec 10), s.Ready chip → isReadOffset o = true →
    RunsOn (exec (.rdPlain chip o) s) s chip (.byte ((s.chip chip).reg o.toNat)) (· = s.chip chip)

/-- A byte written to a plain register is the byte read from it next (R148, R152). -/
def Obligations.PlainStoreReadsBack : Prop :=
  ∀ (s t u : State) (chip : Nat) (o : BitVec 10) (data : Byte), isPlainOffset o = true →
    exec (.wrPlain chip o data) s = .next t → exec (.rdPlain chip o) t = .next u → u.response = .byte data

/-- R86: a write through the byte view replaces one half of the sample it lies in, little-endian, and touches no
other sample; a sample store is seen as its low byte, then its high byte. -/
def Obligations.RamByteView : Prop :=
  (∀ (i : ChipInstance) (a k : Nat) (b : Byte),
    (i.setRamByte a b).ramSample k =
      if k = a / 2 then
        sext16 (if a % 2 = 0 then (i.ramSample k) % 65536 / 256 * 256 + b.toNat
          else (i.ramSample k) % 256 + 256 * b.toNat)
      else i.ramSample k) ∧
  (∀ (i : ChipInstance) (k l : Nat) (v : Int), isS16 v = true →
    ((i.setRamSample k v).ramByte (2 * k)).toNat = v % 256 ∧
    ((i.setRamSample k v).ramByte (2 * k + 1)).toNat = v % 65536 / 256 ∧
    (i.setRamSample k v).ramSample l = if l = k then v else i.ramSample l)

/-! ### ROM -/

/-- R84: on an instance just initialised, a read at any integer address gives the ROM byte at that address modulo
`romMask + 1` if the ROM is that long; reads at addresses with the same reduction are equal, and for addresses that
are not negative the reduction is a mask. Where the reduced address lies at or above `romLen` the byte may be any
value (R83, U1); that it is one value for each reduced address, which the last two clauses then rest on, is the model's
choice (assumption 4). -/
def Obligations.RomRead : Prop :=
  ∀ (clockHz : Nat) (rom : List Byte) (romLen : Nat) (k d : Bool), 1 ≤ romLen → romLen ≤ rom.length →
    let i := ChipInstance.afterInit clockHz rom romLen k d
    (∀ (a : Int) (b : Byte), (a % (i.romMask + 1)).toNat < romLen →
      rom[(a % (i.romMask + 1)).toNat]? = some b → i.romRead a = b) ∧
    (∀ a n : Int, i.romRead (a + n * (i.romMask + 1)) = i.romRead a) ∧
    (∀ a : Nat, i.romRead a = i.romRead (a &&& i.romMask : Nat))

/-- R178, R179: the two PCM fetches, their ranges, and the bytes that make the sentinel. -/
def Obligations.FetchUnits : Prop :=
  ∀ (i : ChipInstance) (p : Int),
    i.fetch8 p = sext16 ((i.romRead p).toNat * 256) ∧ i.fetch8 p % 256 = 0 ∧
    -32768 ≤ i.fetch8 p ∧ i.fetch8 p ≤ 32512 ∧ (i.fetch8 p = -32768 ↔ i.romRead p = 0x80) ∧
    i.fetch16 p = sext16 ((i.romRead p).toNat + (i.romRead (p + 1)).toNat * 256) ∧
    (i.fetch16 p = -32768 ↔ i.romRead p = 0x00 ∧ i.romRead (p + 1) = 0x80)

/-- R59: the delta table. -/
def Obligations.DeltaTable : Prop :=
  ∀ n : BitVec 4,
    ([0, 1, 4, 9, 16, 25, 36, 49, -64, -49, -36, -25, -16, -9, -4, -1] : List Int)[n.toNat]?.map (· * 256) =
      some (dpcmTab n)

/-! ### The decode forms -/

/-- R184, R175: `FMT.NONE` makes no step: the locals are the saved ones, or cleared at the live position if that
differs from the remembered one; nothing is mixed and the instance is as before. The byte order of the live position is
the spec's decision D3, the kept `val` its decision D36; that a decode form answers its locals is the model's choice
(assumption 5). -/
def Obligations.NoDecode : Prop :=
  ∀ (s : State) (chip : Nat) (c : Fin 8), s.Ready chip →
    let i := s.chip chip
    let live := (i.reg (0x20 * c.val + 0x0C)).toNat + 0x100 * (i.reg (0x20 * c.val + 0x0D)).toNat +
      0x10000 * (i.reg (0x20 * c.val + 0x0E)).toNat
    RunsOn (exec (.fmtNone chip c) s) s chip
      (.decoded (if (live : Int) = (i.channel c).pos then i.channel c else ⟨live, 0, 0, 0⟩) false) (· = i)

/-- R171, R175, R176, R177, R180, R183, R185, R190: each decoding form completes from every legal channel state, in
either direction. It runs the steps of its format, written out here, from the channel's own locals until the fraction
is in range or the sample has ended, at most 256 of them, whatever sentinels and loop jumps it meets; it answers
locals in range and clears the channel's status bit exactly if the sample has ended, unless inhibited. Pitch delta,
loop start, loop-disable bit and position are the register bytes of R121, their places and byte order the spec's
decisions D2 to D4; the DPCM scaling, reverse play and nibble order, and `pval` in PCM, are its decisions D10 to D13;
that a form run alone answers its locals and persists nothing is the model's choice (assumption 5). -/
def Obligations.DecodeFormsComplete : Prop :=
  ∀ (s : State) (chip : Nat) (c : Fin 8) (rev : Bool), s.Ready chip → ChannelOk ((s.chip chip).channel c) →
    let i := s.chip chip
    let live := i.bytes24 (0x20 * c.val + 0x0C)
    let st : ChanState := if (live : Int) = (i.channel c).pos then i.channel c else ⟨live, 0, 0, 0⟩
    let delta := i.bytes24 (0x20 * c.val)
    let loop := i.bytes24 (0x20 * c.val + 8)
    let loopDis := (i.reg (0x201 + 2 * c.val)).getLsbD 0
    let d : Int := if rev then -(delta : Int) else delta
    let nibble : Int → BitVec 4 := fun p =>
      if p % 2 = 0 then (i.romRead (p / 2)).extractLsb' 4 4 else (i.romRead (p / 2)).extractLsb' 0 4
    let pcm : Stepping → ChanState := fun u => ⟨u.pos, (u.f % 0x10000).toNat, u.val, u.pval⟩
    let dpcm : Stepping → ChanState := fun u =>
      ⟨u.pos / 2, (u.f % 0x10000).toNat / 2 + (if u.pos % 2 = 0 then 0 else 0x8000), u.val, u.pval⟩
    let plays : Instr → Codec → Int → Int → (Stepping → ChanState) → Prop := fun op k pos f locals =>
      ∃ u, k.LoopsTo rev loopDis ⟨pos, f, st.val, st.pval, false⟩ u ∧ ChannelOk (locals u) ∧
        RunsOn (exec op s) s chip (.decoded (locals u) true) (fun j => i.EndsSample j c u.ended)
    plays (.fmtPcm8 chip c rev) ⟨i.fetch8, -32768, loop, 1, fun u _ _ => u⟩ st.pos (st.pfrac + d) pcm ∧
    plays (.fmtPcm16 chip c rev) ⟨i.fetch16, -32768, loop, 2, fun u _ _ => u⟩ st.pos (st.pfrac + d) pcm ∧
    plays (.fmtDpcm4 chip c rev)
      ⟨fun p => (i.romRead (p / 2)).toNat, 0x88, 2 * loop, 1, fun _ p v => clamp16 (v + dpcmTab (nibble p))⟩
      (2 * st.pos + (if 0x8000 ≤ st.pfrac then 1 else 0)) ((2 * st.pfrac) % 0x10000 + d) dpcm

/-- R171, R175, R176, R177, R180: with no sentinel on the way, PCM playback moves the position by the number of whole
steps in the fraction plus (in reverse, minus) the pitch delta, keeps the remainder, and hands over the last two units
fetched. The register bytes of pitch delta and position are the spec's decisions D2 and D3, `pval` in PCM its decision
D10; that a form run alone answers its locals and leaves the instance as it was is the model's choice
(assumption 5). -/
def Obligations.PcmPlaysThrough : Prop :=
  ∀ (s : State) (chip : Nat) (c : Fin 8) (rev : Bool), s.Ready chip → ChannelOk ((s.chip chip).channel c) →
    let i := s.chip chip
    let live := i.bytes24 (0x20 * c.val + 0x0C)
    let st : ChanState := if (live : Int) = (i.channel c).pos then i.channel c else ⟨live, 0, 0, 0⟩
    let delta := i.bytes24 (0x20 * c.val)
    let dir : Int := if rev then -1 else 1
    let f : Int := st.pfrac + dir * delta
    let n : Nat := (if rev then (0xFFFF - f) / 0x10000 else f / 0x10000).toNat
    ((∀ k : Nat, 1 ≤ k → k ≤ n → i.fetch8 (st.pos + dir * k) ≠ -32768) →
      RunsOn (exec (.fmtPcm8 chip c rev) s) s chip
        (.decoded ⟨st.pos + dir * n, (f % 0x10000).toNat,
          if n = 0 then st.val else i.fetch8 (st.pos + dir * n),
          if n = 0 then st.pval else if n = 1 then st.val else i.fetch8 (st.pos + dir * (n - 1))⟩ true) (· = i)) ∧
    ((∀ k : Nat, 1 ≤ k → k ≤ n → i.fetch16 (st.pos + 2 * dir * k) ≠ -32768) →
      RunsOn (exec (.fmtPcm16 chip c rev) s) s chip
        (.decoded ⟨st.pos + 2 * dir * n, (f % 0x10000).toNat,
          if n = 0 then st.val else i.fetch16 (st.pos + 2 * dir * n),
          if n = 0 then st.pval else if n = 1 then st.val else i.fetch16 (st.pos + 2 * dir * (n - 1))⟩ true)
        (· = i))

/-- R185: at the first sentinel, with looping disabled or the loop start itself a sentinel, the sample ends: the
value is 0, the position is where the sentinel was found, and the channel's status bit falls unless inhibited. The
register bytes of pitch delta, loop start, loop-disable bit and position are the spec's decisions D2 to D4, `pval` in
PCM its decision D10; that a form run alone answers its locals and persists nothing is the model's choice
(assumption 5). -/
def Obligations.PcmSampleEnds : Prop :=
  ∀ (s : State) (chip : Nat) (c : Fin 8) (rev : Bool) (m : Nat), s.Ready chip →
    ChannelOk ((s.chip chip).channel c) →
    let i := s.chip chip
    let live := i.bytes24 (0x20 * c.val + 0x0C)
    let st : ChanState := if (live : Int) = (i.channel c).pos then i.channel c else ⟨live, 0, 0, 0⟩
    let delta := i.bytes24 (0x20 * c.val)
    let loop := i.bytes24 (0x20 * c.val + 8)
    let loopDis := (i.reg (0x201 + 2 * c.val)).getLsbD 0
    let dir : Int := if rev then -1 else 1
    let f : Int := st.pfrac + dir * delta
    let n : Nat := (if rev then (0xFFFF - f) / 0x10000 else f / 0x10000).toNat
    let after : ChipInstance → Prop := fun j => i.RegsOnly j (· = 0x22C) ∧
      j.reg 0x22C = if (i.reg 0x22F).getLsbD 7 then i.reg 0x22C else i.reg 0x22C &&& ~~~(1#8 <<< c.val)
    1 ≤ m → m ≤ n →
    ((∀ k : Nat, 1 ≤ k → k < m → i.fetch8 (st.pos + dir * k) ≠ -32768) → i.fetch8 (st.pos + dir * m) = -32768 →
      loopDis = true ∨ i.fetch8 loop = -32768 →
      RunsOn (exec (.fmtPcm8 chip c rev) s) s chip
        (.decoded ⟨if loopDis then st.pos + dir * m else loop, (f % 0x10000).toNat, 0,
          if m = 1 then st.val else i.fetch8 (st.pos + dir * (m - 1))⟩ true) after) ∧
    ((∀ k : Nat, 1 ≤ k → k < m → i.fetch16 (st.pos + 2 * dir * k) ≠ -32768) →
      i.fetch16 (st.pos + 2 * dir * m) = -32768 →
      loopDis = true ∨ i.fetch16 loop = -32768 →
      RunsOn (exec (.fmtPcm16 chip c rev) s) s chip
        (.decoded ⟨if loopDis then st.pos + 2 * dir * m else loop, (f % 0x10000).toNat, 0,
          if m = 1 then st.val else i.fetch16 (st.pos + 2 * dir * (m - 1))⟩ true) after)

/-- R185, for a tick of one step: a sentinel with looping on and a loop start that is none jumps to the loop
start (in 16-bit PCM a byte address, not doubled; in DPCM the high nibble of its byte) and plays the unit there, in
DPCM added to the sample before it. Ticks of several steps are under `DecodeFormsComplete`. The register bytes of pitch
delta, loop start, loop-disable bit and position are the spec's decisions D2 to D4; `pval` in PCM and the DPCM scaling,
reverse play and nibble order are its decisions D10 to D13; that a form run alone answers its locals and leaves the
instance as it was is the model's choice (assumption 5). -/
def Obligations.PcmLoops : Prop :=
  ∀ (s : State) (chip : Nat) (c : Fin 8) (rev : Bool), s.Ready chip → ChannelOk ((s.chip chip).channel c) →
    let i := s.chip chip
    let live := i.bytes24 (0x20 * c.val + 0x0C)
    let st : ChanState := if (live : Int) = (i.channel c).pos then i.channel c else ⟨live, 0, 0, 0⟩
    let delta := i.bytes24 (0x20 * c.val)
    let loop := i.bytes24 (0x20 * c.val + 8)
    let loopDis := (i.reg (0x201 + 2 * c.val)).getLsbD 0
    let dir : Int := if rev then -1 else 1
    let oneStep : Int → Prop := fun f => (if rev then (0xFFFF - f) / 0x10000 else f / 0x10000) = 1
    let f : Int := st.pfrac + dir * delta
    let p2 : Int := 2 * st.pos + (if 0x8000 ≤ st.pfrac then 1 else 0)
    let f2 : Int := (2 * st.pfrac) % 0x10000 + dir * delta
    loopDis = false →
    (oneStep f → i.fetch8 (st.pos + dir) = -32768 → i.fetch8 loop ≠ -32768 →
      RunsOn (exec (.fmtPcm8 chip c rev) s) s chip
        (.decoded ⟨loop, (f % 0x10000).toNat, i.fetch8 loop, st.val⟩ true) (· = i)) ∧
    (oneStep f → i.fetch16 (st.pos + 2 * dir) = -32768 → i.fetch16 loop ≠ -32768 →
      RunsOn (exec (.fmtPcm16 chip c rev) s) s chip
        (.decoded ⟨loop, (f % 0x10000).toNat, i.fetch16 loop, st.val⟩ true) (· = i)) ∧
    (oneStep f2 → i.romRead ((p2 + dir) / 2) = 0x88 → i.romRead loop ≠ 0x88 →
      RunsOn (exec (.fmtDpcm4 chip c rev) s) s chip
        (.decoded ⟨loop, (f2 % 0x10000).toNat / 2,
          clamp16 (st.val + dpcmTab ((i.romRead loop).extractLsb' 4 4)), st.val⟩ true) (· = i))

/-- R181, R182, R183: with no byte `0x88` on the way, DPCM moves the byte position with its fraction by half the
pitch delta, no bit lost but the lowest, and adds the delta of every nibble it passes, clamping each time: the high
nibble of a byte at an even nibble address, the low one at an odd. The register bytes of pitch delta and position are
the spec's decisions D2 and D3; reverse play, scaling and nibble order are its decisions D11 to D13; that a form run
alone answers its locals and leaves the instance as it was is the model's choice (assumption 5). -/
def Obligations.DpcmPlaysThrough : Prop :=
  ∀ (s : State) (chip : Nat) (c : Fin 8) (rev : Bool), s.Ready chip → ChannelOk ((s.chip chip).channel c) →
    let i := s.chip chip
    let live := i.bytes24 (0x20 * c.val + 0x0C)
    let st : ChanState := if (live : Int) = (i.channel c).pos then i.channel c else ⟨live, 0, 0, 0⟩
    let delta := i.bytes24 (0x20 * c.val)
    let dir : Int := if rev then -1 else 1
    let p2 : Int := 2 * st.pos + (if 0x8000 ≤ st.pfrac then 1 else 0)
    let f : Int := (2 * st.pfrac) % 0x10000 + dir * delta
    let n : Nat := (if rev then (0xFFFF - f) / 0x10000 else f / 0x10000).toNat
    let nibble : Int → BitVec 4 := fun p =>
      if p % 2 = 0 then (i.romRead (p / 2)).extractLsb' 4 4 else (i.romRead (p / 2)).extractLsb' 0 4
    let played : Nat → Int := fun k =>
      (List.range k).foldl (fun v (l : Nat) => clamp16 (v + dpcmTab (nibble (p2 + dir * ((l : Int) + 1))))) st.val
    (∀ k : Nat, 1 ≤ k → k ≤ n → i.romRead ((p2 + dir * k) / 2) ≠ 0x88) →
      ∃ (pos : Int) (pf : Nat), pf ≤ 0xFFFF ∧
        0x10000 * pos + pf = (2 * (0x10000 * st.pos + st.pfrac) + dir * delta) / 2 ∧
        RunsOn (exec (.fmtDpcm4 chip c rev) s) s chip
          (.decoded ⟨pos, pf, played n, if n = 0 then st.pval else played (n - 1)⟩ true) (· = i)

/-- R181, R183, R185: in DPCM a byte `0x88` ends the sample, with looping disabled or the loop start's byte `0x88`
too: the value is 0, the previous value the last one decoded, position and fraction those of the nibble address
reached, scaled back, and the status bit falls unless inhibited. The register bytes of pitch delta, loop start,
loop-disable bit and position are the spec's decisions D2 to D4; reverse play, scaling and nibble order are its
decisions D11 to D13; that a form run alone answers its locals and persists nothing is the model's choice
(assumption 5). -/
def Obligations.DpcmSampleEnds : Prop :=
  ∀ (s : State) (chip : Nat) (c : Fin 8) (rev : Bool) (m : Nat), s.Ready chip →
    ChannelOk ((s.chip chip).channel c) →
    let i := s.chip chip
    let live := i.bytes24 (0x20 * c.val + 0x0C)
    let st : ChanState := if (live : Int) = (i.channel c).pos then i.channel c else ⟨live, 0, 0, 0⟩
    let delta := i.bytes24 (0x20 * c.val)
    let loop := i.bytes24 (0x20 * c.val + 8)
    let loopDis := (i.reg (0x201 + 2 * c.val)).getLsbD 0
    let dir : Int := if rev then -1 else 1
    let p2 : Int := 2 * st.pos + (if 0x8000 ≤ st.pfrac then 1 else 0)
    let f : Int := (2 * st.pfrac) % 0x10000 + dir * delta
    let n : Nat := (if rev then (0xFFFF - f) / 0x10000 else f / 0x10000).toNat
    let nibble : Int → BitVec 4 := fun p =>
      if p % 2 = 0 then (i.romRead (p / 2)).extractLsb' 4 4 else (i.romRead (p / 2)).extractLsb' 0 4
    let played : Nat → Int := fun k =>
      (List.range k).foldl (fun v (l : Nat) => clamp16 (v + dpcmTab (nibble (p2 + dir * ((l : Int) + 1))))) st.val
    1 ≤ m → m ≤ n → (∀ k : Nat, 1 ≤ k → k < m → i.romRead ((p2 + dir * k) / 2) ≠ 0x88) →
    i.romRead ((p2 + dir * m) / 2) = 0x88 → loopDis = true ∨ i.romRead loop = 0x88 →
      let reached : Int := if loopDis then p2 + dir * m else 2 * loop
      RunsOn (exec (.fmtDpcm4 chip c rev) s) s chip
        (.decoded ⟨reached / 2, (f % 0x10000).toNat / 2 + (if reached % 2 = 0 then 0 else 0x8000), 0, played (m - 1)⟩
          true)
        fun j => i.RegsOnly j (· = 0x22C) ∧
          j.reg 0x22C = if (i.reg 0x22F).getLsbD 7 then i.reg 0x22C else i.reg 0x22C &&& ~~~(1#8 <<< c.val)

/-! ### The channel's tick -/

/-- A channel's tick decodes with the form its first mode byte selects (R122, R170): the form's answer is what the
tick decodes, and the form clears the channel's status bit exactly if the tick's sample has ended, unless inhibited.
The places of the fields in the mode byte are the spec's decision D4; that a form run alone answers its locals is the
model's choice (assumption 5). -/
def Obligations.TickDecodesByModeByte : Prop :=
  ∀ (s t : State) (chip : Nat) (c : Fin 8) (op : Instr),
    decode { chip := chip, word := .mode ((s.chip chip).reg (0x200 + 2 * c.val)), args := { channel := c } } = .ok op →
      exec op s = .next t →
        let d := (s.chip chip).decodeSample c
        t.response = .decoded d.chan d.mixed ∧ (s.chip chip).EndsSample (t.chip chip) c d.ended

/-- R187, R188, R189, R174, R185: what `CHTICK(c)` leaves, in terms of the decoded locals `d`: the mix and the ring
slot, the position bytes, the status bit, the persisted state, and everything else as it was. The register bytes of
the reverb delay are the spec's decisions D2 and D3, truncation and wrap its decision D7; that it answers its
contribution is the model's choice (assumption 5). -/
def Obligations.ChannelTick : Prop :=
  ∀ (s : State) (chip : Nat) (c : Fin 8), s.Ready chip →
    let i := s.chip chip
    let d := i.decodeSample c
    let slot := (((i.reg (0x20 * c.val + 6)).toNat + 256 * (i.reg (0x20 * c.val + 7)).toNat) / 8 +
      i.reverbCursor) % 8192
    let pos := 0x20 * c.val + 0x0C
    Completes (exec (.chtick chip c) s) fun t =>
      let j := t.chip chip
      s.OnlyChip t chip ∧ j = { i with regs := j.regs, chan := j.chan, ram := j.ram } ∧
      t.response = (if d.mixed then
        .mix (ExactReal.zero.add ((i.leftGain c).scale d.chan.val))
          (ExactReal.zero.add ((i.rightGain c).scale d.chan.val))
        else .mix ExactReal.zero ExactReal.zero) ∧
      (∀ k, j.ramSample k =
        if k = slot ∧ d.mixed = true then
          sext16 (i.ramSample k + (ExactReal.zero.add ((i.reverbGain c).scale d.chan.val)).trunc)
        else i.ramSample k) ∧
      (j.bytes24 pos : Int) = (if (i.reg 0x22F).getLsbD 7 then (i.bytes24 pos : Int) else d.chan.pos % 0x1000000) ∧
      j.reg 0x22C = (if d.ended = true ∧ (i.reg 0x22F).getLsbD 7 = false then i.reg 0x22C &&& ~~~(1#8 <<< c.val)
        else i.reg 0x22C) ∧
      (∀ a, a ≠ 0x22C → (∀ k : Fin 3, a ≠ 0x20 * c.val + 0x0C + k.val) → j.reg a = i.reg a) ∧
      (∀ e, j.channel e = if e = c then d.chan else i.channel e)

/-! ### The native tick -/

/-- R200 to R207, R37, R190 (d), (e): a tick in full. The channels that run are those whose bit of `0x22C` is 1. Every
one of them decodes from the state before the tick as if it were alone; the accumulators are the seed plus their
contributions, and the frame comes from them; the slot read is cleared, and each slot takes, wrapped, the sum of what
is sent to it; the cursor advances; the channels that run take their new state, position bytes and status bit as
`CHTICK` gives them, and nothing else changes. -/
def Obligations.TickSumsChannels : Prop :=
  ∀ (s : State) (chip : Nat), s.Ready chip →
    let i := s.chip chip
    let inhibited := (i.reg 0x22F).getLsbD 7
    let d := i.decodeSample
    let runs : Fin 8 → Bool := fun c => (i.reg 0x22C).getLsbD c.val
    let mixes : Fin 8 → Bool := fun c => runs c && (d c).mixed
    let pos : Fin 8 → Nat := fun c => 0x20 * c.val + 0x0C
    let slot : Fin 8 → Nat := fun c =>
      (((i.reg (0x20 * c.val + 6)).toNat + 0x100 * (i.reg (0x20 * c.val + 7)).toNat) / 8 + i.reverbCursor) % 8192
    let seed : Int := if i.flags.reverbDisable then 0 else i.ramSample i.reverbCursor
    let sum : (Fin 8 → Monomial) → ExactReal := fun gain => (List.finRange 8).foldl
      (fun x c => if mixes c then x.add ((gain c).scale (d c).chan.val) else x) (ExactReal.ofInt seed)
    let send : Fin 2 → Nat → Int := fun r side =>
      if i.routeMask[r.val].getLsbD side then
        ((if r = 0 then sum i.leftGain else sum i.rightGain).times i.volume[r.val]).trunc
      else 0
    RunsOn (exec (.tick chip) s) s chip
      (.frame ⟨clamp16 (send 0 0 + send 1 0), clamp16 (send 0 1 + send 1 1)⟩) fun j =>
      j = { i with regs := j.regs, chan := j.chan, ram := j.ram, reverbCursor := (i.reverbCursor + 1) % 8192 } ∧
      (∀ c, j.channel c = if runs c then (d c).chan else i.channel c) ∧
      (∀ c, (j.bytes24 (pos c) : Int) =
        if runs c = true ∧ inhibited = false then (d c).chan.pos % 0x1000000 else (i.bytes24 (pos c) : Int)) ∧
      (∀ c : Fin 8, (j.reg 0x22C).getLsbD c.val = (runs c && (inhibited || !(d c).ended))) ∧
      (∀ a, a ≠ 0x22C → (∀ (c : Fin 8) (k : Fin 3), a ≠ 0x20 * c.val + 0x0C + k.val) → j.reg a = i.reg a) ∧
      (∀ k, j.ramSample k = sext16 ((if k = i.reverbCursor then 0 else i.ramSample k) +
        ((List.finRange 8).map fun c =>
          if mixes c = true ∧ k = slot c then (ExactReal.zero.add ((i.reverbGain c).scale (d c).chan.val)).trunc
          else 0).sum))

/-- R201, R204, R205, R206, R207, R209: with no bit of `0x22C` set, so no channel active (R37), the frame is the seed
scaled by each route's volume, truncated, summed over the routes enabled for the side and clipped; the slot read is
cleared, the cursor advances, and nothing else changes. The truncated product with a volume written as a rational is
written out. -/
def Obligations.TickWithoutChannels : Prop :=
  ∀ (s : State) (chip : Nat), s.Ready chip → (s.chip chip).reg 0x22C = 0 →
    let i := s.chip chip
    let seed : Int := if i.flags.reverbDisable then 0 else i.ramSample i.reverbCursor
    let send : Fin 2 → Nat → Int := fun r side =>
      if i.routeMask[r.val].getLsbD side then ((ExactReal.ofInt seed).times i.volume[r.val]).trunc else 0
    (∀ (r : Fin 2) (q : Rat), i.volume[r.val] = .rat q →
      ((ExactReal.ofInt seed).times i.volume[r.val]).trunc = truncRat (seed * q)) ∧
    RunsOn (exec (.tick chip) s) s chip
      (.frame ⟨clamp16 (send 0 0 + send 1 0), clamp16 (send 0 1 + send 1 1)⟩) fun j =>
      j = { i with ram := j.ram, reverbCursor := (i.reverbCursor + 1) % 8192 } ∧
        ∀ k, j.ramSample k = if k = i.reverbCursor then 0 else i.ramSample k

/-! ### The resampler -/

/-- R216: with `EN` clear, Update changes neither the instance nor the buffer. -/
def Obligations.UpdateDisabled : Prop :=
  ∀ (s : State) (chip : Nat) (out : List Frame) (m : Nat) (hp : HostParams), s.Ready chip → m ≤ out.length →
    ((s.chip chip).reg 0x22F).getLsbD 0 = false →
      RunsOn (exec (.update chip out m hp) s) s chip (.buffer out) (· = s.chip chip)

/-- R215, R218, R220, R221: with `EN` set, Update runs exactly `nativeTicks` ticks, adds to host frame `j` the
native frame `floor(j * N / M)`, clipped, for each `j < M`, and leaves the rest of the buffer alone. A tick here is
what `TICK` does: the first clause. -/
def Obligations.UpdateMixesTicks : Prop :=
  ∀ (s : State) (chip : Nat) (out : List Frame) (m : Nat) (hp : HostParams), s.Ready chip → m ≤ out.length →
    let i := s.chip chip
    let n := Config.nativeTicks i.clockHz hp m
    RunsOn (exec (.tick chip) s) s chip (.frame i.tick.2) (· = i.tick.1) ∧
    ((i.reg 0x22F).getLsbD 0 = true →
      ∃ mixed : List Frame, mixed.length = out.length ∧ (∀ j, m ≤ j → mixed[j]? = out[j]?) ∧
        (∀ j, j < m → mixed[j]? = out[j]?.map fun o =>
          ⟨clamp16 (o.left + (i.afterTicks (j * n / m)).tick.2.left),
            clamp16 (o.right + (i.afterTicks (j * n / m)).tick.2.right)⟩) ∧
        RunsOn (exec (.update chip out m hp) s) s chip (.buffer mixed) (· = i.afterTicks n))

/-- R261: a buffer shorter than the request is `BadBuffer`, with both lengths. -/
def Obligations.ShortBufferFault : Prop :=
  ∀ (s : State) (chip : Nat) (out : List Frame) (m : Nat) (hp : HostParams), s.Ready chip → out.length < m →
    exec (.update chip out m hp) s = .fault (.badBuffer m out.length)

/-- R217 (b), (c): the tick count is positive for a positive request and within the cap. -/
def Obligations.NativeTickCount : Prop :=
  ∀ (clockHz : Nat) (hp : HostParams) (m : Nat),
    (1 ≤ m → 1 ≤ Config.nativeTicks clockHz hp m) ∧
      Config.nativeTicks clockHz hp m ≤ Config.capTicks clockHz hp

/-! ### Snapshot and restore -/

/-- R230, R231: a snapshot holds the listed fields as they are, and taking it changes nothing. -/
def Obligations.SnapshotHolds : Prop :=
  ∀ (s : State) (chip : Nat), s.Ready chip →
    let i := s.chip chip
    RunsOn (exec (.snapshot chip) s) s chip
      (.snapshot { posLatch := i.posLatch, regs := i.regs, ramSamples := i.ramSamples, ram := i.ram,
                   chan := i.chan, flags := i.flags, reverbCursor := i.reverbCursor, zoneCursor := i.zoneCursor,
                   zoneLimit := if i.reg 0x22E = 0x80 then 0x4000 else 0x20000 }) (· = i)

/-- R233, R234, R232: Restore takes data it accepts: the run-time state is replaced, the zone follows from the
restored select byte with the saved cursor, and the configuration stays. -/
def Obligations.RestoreReplaces : Prop :=
  ∀ (s : State) (chip : Nat) (d : Snapshot), s.Ready chip → (s.chip chip).Accepts d →
    RunsOn (exec (.restore chip d) s) s chip .done fun j =>
      j.posLatch = d.posLatch ∧ j.regs = d.regs ∧ j.ram = d.ram ∧ j.chan = d.chan ∧ j.flags = d.flags ∧
      j.reverbCursor = d.reverbCursor ∧ j.zoneCursor = d.zoneCursor ∧
      j.zone = (if Memory.read d.regs 0x22E = 0x80 then .ram
        else .rom ((Memory.read d.regs 0x22E).toNat * 0x20000)) ∧
      j.zoneLimit = (if Memory.read d.regs 0x22E = 0x80 then 0x4000 else 0x20000) ∧
      j.SameConfig (s.chip chip)

/-- R235, R262: data that fails the precondition is `BadSnapshot`. -/
def Obligations.BadSnapshotFault : Prop :=
  ∀ (s : State) (chip : Nat) (d : Snapshot), s.Ready chip → ¬ (s.chip chip).Accepts d →
    ∃ which, exec (.restore chip d) s = .fault (.badSnapshot which)

/-- R236: a snapshot taken of a legal instance and restored into any later state of it with the same configuration
gives the instance back exactly. -/
def Obligations.SnapshotRoundTrip : Prop :=
  ∀ (s u : State) (chip : Nat), s.Ready chip → u.Ready chip → (s.chip chip).Inv →
    (u.chip chip).SameConfig (s.chip chip) →
      ∃ d, Completes (exec (.snapshot chip) s) (fun t => t.response = .snapshot d) ∧
        RunsOn (exec (.restore chip d) u) u chip .done (· = s.chip chip)

/-! ### Host configuration -/

/-- R240, R243, R10, R62: Init with legal arguments gives every field its value after Init, whatever the instance
was before. -/
def Obligations.InitSetsEverything : Prop :=
  ∀ (s : State) (chip clockHz : Nat) (rom : List Byte) (romLen : Nat) (k d : Bool), chip < Config.maxChips →
    1 ≤ clockHz → 1 ≤ romLen → romLen ≤ rom.length →
      RunsOn (exec (.init chip clockHz rom romLen k d) s) s chip .done fun j =>
        j.initialised = true ∧ j.clockHz = clockHz ∧ j.romSize = romLen ∧
        (∀ a, a < romLen → rom[a]? = some (Memory.read j.rom a)) ∧
        (∃ n, j.romMask = 2 ^ n - 1 ∧ romLen ≤ 2 ^ n ∧ ∀ l, romLen ≤ 2 ^ l → n ≤ l) ∧
        j.ramSamples = 0x4000 + clockHz / 50 ∧ (∀ a, j.ramSample a = 0) ∧ (∀ a, j.reg a = 0) ∧
        (∀ c l, j.latch c l = 0) ∧ (∀ c, j.channel c = ⟨0, 0, 0, 0⟩) ∧ (∀ c : Fin 8, j.gain[c.val] = .rat 1) ∧
        j.volume = #v[.rat 1, .rat 1] ∧ j.routeMask = #v[1, 2] ∧ j.flags = ⟨k, d⟩ ∧ j.panCallback = false ∧
        j.reverbCursor = 0 ∧ j.zoneCursor = 0 ∧ j.zone = .rom 0 ∧ j.zoneLimit = 0x20000

/-- R260: on a valid index Init raises `BadArgument` exactly if the clock or the ROM length is below 1 or the
buffer is shorter than the length. -/
def Obligations.InitArgumentFault : Prop :=
  ∀ (s : State) (chip clockHz : Nat) (rom : List Byte) (romLen : Nat) (k d : Bool), chip < Config.maxChips →
    ((∃ w, exec (.init chip clockHz rom romLen k d) s = .fault (.badArgument w)) ↔
      clockHz < 1 ∨ romLen < 1 ∨ rom.length < romLen)

/-- R244: Exit completes whatever the state and ends every instance; then every operation but Init and Exit on a
valid index is `NotInitialised`, for an internal operation or decode form requested on its own by the model's choice
(R264, assumption 20). -/
def Obligations.ExitEndsAll : Prop :=
  ∀ s : State, Completes (exec .exit s) fun t =>
    (∀ id, (t.chip id).initialised = false ∧ (t.chip id).ram = [] ∧ (t.chip id).rom = []) ∧
      t.response = .done ∧ t.pending = s.pending ∧ t.panLog = s.panLog ∧
      ∀ (i : Instr) (id : Nat), i.target = some id → id < Config.maxChips →
        (∀ clockHz rom romLen k d, i ≠ .init id clockHz rom romLen k d) →
          exec i t = .fault (.notInitialised id)

/-- R280, R281: Reset clears registers, latches, channel states and cursors, and keeps the rest, the RAM too
(`RESET_CLEARS_RAM` is false). -/
def Obligations.ResetClears : Prop :=
  ∀ (s : State) (chip : Nat), s.Ready chip →
    let i := s.chip chip
    RunsOn (exec (.reset chip) s) s chip .done fun j =>
      (∀ a, j.reg a = 0) ∧ (∀ c k, j.latch c k = 0) ∧ (∀ c, j.channel c = ⟨0, 0, 0, 0⟩) ∧ j.reverbCursor = 0 ∧
      j.zoneCursor = 0 ∧ j.zone = .rom 0 ∧ j.zoneLimit = 0x20000 ∧ j.ram = i.ram ∧ j.flags = i.flags ∧
      j.SameConfig i

/-- R245, R246, R247: the three settings, each with its own field alone changed, for every real gain that is not
negative and every real volume. How a real is held is the model's choice (assumption 6). -/
def Obligations.HostSettings : Prop :=
  ∀ (s : State) (chip : Nat), s.Ready chip →
    let i := s.chip chip
    (∀ (c : Fin 8) (g : HostReal), 0 ≤ g.value →
      RunsOn (exec (.setgain chip c.val g) s) s chip .done fun j =>
        j = { i with gain := j.gain } ∧ ∀ e : Fin 8, j.gain[e.val] = if e = c then g else i.gain[e.val]) ∧
    (∀ (r : Fin 2) (v : HostReal) (m : BitVec 2),
      RunsOn (exec (.setroute chip r.val v m.toNat) s) s chip .done fun j =>
        j = { i with volume := j.volume, routeMask := j.routeMask } ∧
        ∀ e : Fin 2, j.volume[e.val] = (if e = r then v else i.volume[e.val]) ∧
          j.routeMask[e.val] = if e = r then m else i.routeMask[e.val]) ∧
    (∀ on : Bool,
      RunsOn (exec (.setpancb chip on) s) s chip .done fun j => j = { i with panCallback := on })

/-- R259: on a ready instance SetGain and SetRoute raise `BadArgument` exactly on arguments out of range, and the
fault names the operation and such an argument. -/
def Obligations.SettingArgumentFault : Prop :=
  ∀ (s : State) (chip : Nat), s.Ready chip →
    (∀ (c : Nat) (g : HostReal),
      ((∃ f, exec (.setgain chip c g) s = .fault f) ↔ 7 < c ∨ g.value < 0) ∧
      ∀ f, exec (.setgain chip c g) s = .fault f →
        (f = .badArgument (.gainChannel c) ∧ 7 < c) ∨ (f = .badArgument (.gainValue g) ∧ g.value < 0)) ∧
    (∀ (r : Nat) (v : HostReal) (m : Nat),
      ((∃ f, exec (.setroute chip r v m) s = .fault f) ↔ 1 < r ∨ 3 < m) ∧
      ∀ f, exec (.setroute chip r v m) s = .fault f →
        (f = .badArgument (.routeIndex r) ∧ 1 < r) ∨ (f = .badArgument (.routeMask m) ∧ 3 < m))

/-! ### The real numbers -/

/-- R57: the volume table's closed form, its first entry, and its law. -/
def Obligations.VolumeTable : Prop :=
  (∀ k : Byte, (volTab k).Denotes ((10 : ℝ) ^ ((-36 * (k.toNat : ℝ) / 64) / 20) / 4)) ∧
  (volTab 0).Denotes (1 / 4) ∧
  (∀ (k l : Byte) (x y : ℝ), k.toNat < l.toNat → (volTab k).Denotes x → (volTab l).Denotes y → 0 < y ∧ y < x)

/-- R58: the pan table's closed form, its ends, and its law; and, for the pair the auxiliary pan emits,
`l^2 + r^2 = 1` (R143). -/
def Obligations.PanTable : Prop :=
  (∀ k : Fin 15, (panTab k).Denotes (√((k.val : ℝ) / 14))) ∧ (panTab 0).Denotes 0 ∧ (panTab 14).Denotes 1 ∧
  (∀ (k l : Fin 15) (x y : ℝ), k < l → (panTab k).Denotes x → (panTab l).Denotes y → x < y) ∧
  (∀ (k : Fin 15) (x y : ℝ), (panTab k).Denotes x → (panTab ⟨14 - k.val, by omega⟩).Denotes y → x ^ 2 + y ^ 2 = 1)

/-- R171, R172, R173: the three gains of a channel are the capped real products the spec gives, from the channel's
volume, offset and pan bytes, whose places are the spec's decision D2, and the host's gain. The pan codes are its
decision D5, the tables D6. -/
def Obligations.ResolvedGains : Prop :=
  ∀ (i : ChipInstance) (c : Fin 8) (idx : Fin 15),
    let vol := (i.reg (0x20 * c.val + 3)).toNat
    let bval := min (vol + (i.reg (0x20 * c.val + 4)).toNat) 255
    let pan := (i.reg (0x20 * c.val + 5)).toNat
    let volume : Nat → ℝ := fun k => (10 : ℝ) ^ ((-36 * (k : ℝ) / 64) / 20) / 4
    idx.val = (if 0x81 ≤ pan ∧ pan ≤ 0x8F then pan - 0x81 else if 0x11 ≤ pan ∧ pan ≤ 0x1F then pan - 0x11 else 7) →
      (i.leftGain c).Denotes (min (volume vol * √((idx.val : ℝ) / 14) * i.gain[c.val].value) (9 / 5)) ∧
      (i.rightGain c).Denotes (min (volume vol * √((14 - idx.val : ℝ) / 14) * i.gain[c.val].value) (9 / 5)) ∧
      (i.reverbGain c).Denotes (min (volume bval * i.gain[c.val].value / 2) (9 / 5))

/-- R20: the arithmetic on exact reals is the arithmetic of the reals, products with a number of the host
among it. How the host's numbers are held is the model's choice (assumption 6). -/
def Obligations.ExactArithmetic : Prop :=
  (∀ (x y : Monomial) (a b : ℝ), x.Denotes a → y.Denotes b → (x.mul y).Denotes (a * b)) ∧
  (∀ (q : Rat) (x : Monomial) (a : ℝ), x.Denotes a → (x.scale q).Denotes (q * a)) ∧
  (∀ (x : ExactReal) (t : Monomial) (a b : ℝ), x.Denotes a → t.Denotes b → (x.add t).Denotes (a + b)) ∧
  (∀ (q : Rat) (x : ExactReal) (a : ℝ), x.Denotes a → (x.scale q).Denotes (q * a)) ∧
  (∀ (g : HostReal) (x : Monomial) (a : ℝ), x.Denotes a → (x.times g).Denotes (a * g.value)) ∧
  (∀ (g : HostReal) (x : ExactReal) (a : ℝ), x.Denotes a → (x.times g).Denotes (a * g.value)) ∧
  (∀ v : Int, (ExactReal.ofInt v).Denotes v)

/-- R15, R20: the truncation of every exact real is the integer part, toward zero, of the real it stands for,
whether that is rational, irrational or an integer that no finite enclosure tells from its neighbours; the rational
bounds enclose the real at every precision and close in on it. That reals are exact and truncated toward zero is
the spec's decision D7. -/
def Obligations.TruncationIsSound : Prop :=
  ∀ (x : ExactReal) (r : ℝ), x.Denotes r →
    IsTrunc r x.trunc ∧ (∀ bits, (x.lower bits : ℝ) ≤ r ∧ r ≤ x.upper bits) ∧
      ∀ ε : ℝ, 0 < ε → ∃ n, ∀ bits, n ≤ bits → (x.upper bits : ℝ) - x.lower bits < ε

/-! ### Invariants -/

/-- R60: every step keeps the invariants of every instance, the canonical form of its memories among them. -/
def Obligations.StepKeepsInv : Prop := ∀ s t : State, s.Inv → step s = .next t → t.Inv

/-- R60: the invariants hold at power-up. The values of an instance before Init are the model's choice
(assumption 1). -/
def Obligations.ResetInv : Prop := State.reset.Inv
end

