-- ==== Sys2Proof/Laws/Memory.lean ====
section
/-! SUPPORT. The laws of the sparse byte memory: read after write, and the canonical form kept by every
operation. -/

namespace Sys2Proof

@[simp] theorem Memory.read_nil (a : Nat) : Memory.read [] a = 0 := rfl

theorem Memory.read_insert (m : Memory) (k a : Nat) (b : Byte) (h : ∀ x ∈ m, x.1 ≠ k) :
    Memory.read (Memory.insert m k b) a = if a = k then b else Memory.read m a := by
  induction m with
  | nil => simp [Memory.insert, Memory.read, eq_comm]
  | cons x m ih =>
    obtain ⟨j, y⟩ := x
    have hj : j ≠ k := h _ List.mem_cons_self
    have ih := ih fun x hx => h x (List.mem_cons_of_mem _ hx)
    unfold Memory.insert
    split
    · simp only [Memory.read, eq_comm (a := a)]
    · simp only [Memory.read, ih]
      split_ifs <;> simp_all

theorem Memory.read_erase (m : Memory) (k a : Nat) :
    Memory.read (Memory.erase m k) a = if a = k then 0 else Memory.read m a := by
  induction m with
  | nil => simp [Memory.erase]
  | cons x m ih =>
    obtain ⟨j, y⟩ := x
    simp only [Memory.erase, List.filter_cons] at ih ⊢
    by_cases hj : j = k
    · subst hj
      simp only [bne_self_eq_false, Bool.false_eq_true, ↓reduceIte, ih, Memory.read]
      split_ifs <;> simp_all
    · simp only [bne_iff_ne, ne_eq, hj, not_false_eq_true, ↓reduceIte, Memory.read, ih]
      split_ifs <;> simp_all

theorem Memory.ne_of_mem_erase {m : Memory} {k : Nat} {x : Host.Cell} (h : x ∈ Memory.erase m k) : x.1 ≠ k := by
  simpa using (List.mem_filter.1 h).2

/-- Everything a store does to later reads. -/
@[simp] theorem Memory.read_write (m : Memory) (k a : Nat) (b : Byte) :
    Memory.read (Memory.write m k b) a = if a = k then b else Memory.read m a := by
  unfold Memory.write
  split
  · rename_i h; subst h; exact Memory.read_erase m k a
  · rw [Memory.read_insert _ _ _ _ fun x hx => Memory.ne_of_mem_erase hx, Memory.read_erase]
    split_ifs <;> rfl

theorem Memory.mem_insert {m : Memory} {k : Nat} {b : Byte} {x : Host.Cell} :
    x ∈ Memory.insert m k b ↔ x = (k, b) ∨ x ∈ m := by
  induction m with
  | nil => simp [Memory.insert]
  | cons y m ih =>
    unfold Memory.insert
    split
    · simp
    · simp only [List.mem_cons, ih]
      tauto

theorem Memory.insert_sorted {m : Memory} {k : Nat} {b : Byte} (h : m.Pairwise fun x y => x.1 < y.1)
    (hk : ∀ x ∈ m, x.1 ≠ k) : (Memory.insert m k b).Pairwise fun x y => x.1 < y.1 := by
  induction m with
  | nil => simp [Memory.insert]
  | cons y m ih =>
    obtain ⟨j, v⟩ := y
    have hj : j ≠ k := hk _ List.mem_cons_self
    rw [List.pairwise_cons] at h
    unfold Memory.insert
    split
    · rename_i hlt
      refine List.pairwise_cons.2 ⟨fun z hz => ?_, List.pairwise_cons.2 h⟩
      rcases List.mem_cons.1 hz with rfl | hz
      · exact hlt
      · exact lt_trans hlt (h.1 z hz)
    · rename_i hlt
      refine List.pairwise_cons.2 ⟨fun z hz => ?_, ih h.2 fun x hx => hk x (List.mem_cons_of_mem _ hx)⟩
      rcases Memory.mem_insert.1 hz with rfl | hz
      · dsimp only; omega
      · exact h.1 z hz

/-- A store keeps the canonical form. -/
theorem Memory.write_wf {m : Memory} (h : Memory.wf m) (k : Nat) (b : Byte) : Memory.wf (Memory.write m k b) := by
  have he : Memory.wf (Memory.erase m k) :=
    ⟨h.1.filter _, fun x hx => h.2 x (List.mem_filter.1 hx).1⟩
  unfold Memory.write
  split
  · exact he
  · rename_i hb
    refine ⟨Memory.insert_sorted he.1 fun x hx => Memory.ne_of_mem_erase hx, fun x hx => ?_⟩
    rcases Memory.mem_insert.1 hx with rfl | hx
    · exact hb
    · exact he.2 x hx

/-- A store below a bound keeps the bound. -/
theorem Memory.write_below {m : Memory} {n k : Nat} (h : Memory.below m n) (hk : k < n) (b : Byte) :
    Memory.below (Memory.write m k b) n := by
  intro x hx
  unfold Memory.write at hx
  split at hx
  · exact h x (List.mem_filter.1 hx).1
  · rcases Memory.mem_insert.1 hx with rfl | hx
    · exact hk
    · exact h x (List.mem_filter.1 hx).1

theorem Memory.ofBytesFrom_ge (bs : List Byte) (k : Nat) : ∀ x ∈ Memory.ofBytesFrom k bs, k ≤ x.1 := by
  induction bs generalizing k with
  | nil => simp [Memory.ofBytesFrom]
  | cons b bs ih =>
    intro x hx
    unfold Memory.ofBytesFrom at hx
    split at hx
    · exact le_of_lt (ih (k + 1) x hx)
    · rcases List.mem_cons.1 hx with rfl | hx
      · exact le_refl _
      · exact le_of_lt (ih (k + 1) x hx)

theorem Memory.ofBytesFrom_wf (bs : List Byte) (k : Nat) : Memory.wf (Memory.ofBytesFrom k bs) := by
  induction bs generalizing k with
  | nil => simp [Memory.ofBytesFrom, Memory.wf]
  | cons b bs ih =>
    unfold Memory.ofBytesFrom
    split
    · exact ih _
    · rename_i hb
      refine ⟨List.pairwise_cons.2 ⟨fun z hz => ?_, (ih _).1⟩, fun x hx => ?_⟩
      · exact Memory.ofBytesFrom_ge bs (k + 1) z hz
      · rcases List.mem_cons.1 hx with rfl | hx
        · exact hb
        · exact (ih _).2 x hx

theorem Memory.ofBytesFrom_below (bs : List Byte) (k : Nat) :
    Memory.below (Memory.ofBytesFrom k bs) (k + bs.length) := by
  induction bs generalizing k with
  | nil => simp [Memory.ofBytesFrom, Memory.below]
  | cons b bs ih =>
    intro x hx
    have := ih (k + 1) x
    unfold Memory.ofBytesFrom at hx
    simp only [List.length_cons]
    split at hx
    · have := this hx; omega
    · rcases List.mem_cons.1 hx with rfl | hx
      · dsimp only; omega
      · have := this hx; omega

theorem Memory.read_ofBytesFrom_lt (bs : List Byte) (k a : Nat) (h : a < k) :
    Memory.read (Memory.ofBytesFrom k bs) a = 0 := by
  induction bs generalizing k with
  | nil => rfl
  | cons b bs ih =>
    unfold Memory.ofBytesFrom
    split
    · exact ih _ (by omega)
    · rw [Memory.read, if_neg (by omega)]; exact ih _ (by omega)

theorem Memory.read_ofBytesFrom (bs : List Byte) (k a : Nat) :
    Memory.read (Memory.ofBytesFrom k bs) (k + a) = bs.getD a 0 := by
  induction bs generalizing k a with
  | nil => simp [Memory.ofBytesFrom]
  | cons b bs ih =>
    have step : Memory.read (Memory.ofBytesFrom k (b :: bs)) (k + a) =
        if a = 0 then b else Memory.read (Memory.ofBytesFrom (k + 1) bs) (k + a) := by
      rw [Memory.ofBytesFrom]
      split
      · rename_i hb
        split_ifs with ha
        · subst ha; rw [Memory.read_ofBytesFrom_lt _ _ _ (by omega)]; exact hb.symm
        · rfl
      · rw [Memory.read]
        split_ifs with h1 h2 h2
        · rfl
        · exact absurd h1 (by omega)
        · exact absurd h1 (by omega)
        · rfl
    rw [step]
    cases a with
    | zero => simp
    | succ a =>
      have := ih (k + 1) a
      rw [show k + 1 + a = k + (a + 1) by omega] at this
      simpa using this

/-- The bytes the ROM is built from are the bytes it reads. -/
theorem Memory.read_ofBytes (bs : List Byte) (a : Nat) : Memory.read (Memory.ofBytes bs) a = bs.getD a 0 := by
  simpa [Memory.ofBytes] using Memory.read_ofBytesFrom bs 0 a

theorem Memory.ofBytes_wf (bs : List Byte) : Memory.wf (Memory.ofBytes bs) := Memory.ofBytesFrom_wf bs 0

theorem Memory.ofBytes_below (bs : List Byte) : Memory.below (Memory.ofBytes bs) bs.length := by
  simpa [Memory.ofBytes] using Memory.ofBytesFrom_below bs 0

end Sys2Proof
end

