-- ==== Sys2Proof/Laws/State.lean ====
section
/-! SUPPORT. The record updates of the state, one lemma per field per update, so that no later proof unfolds
an update; and reading an instance back after an operation's end. -/

namespace Sys2Proof.Machine

/-! ### `setReg` -/

@[simp] theorem ChipInstance.setReg_initialised (i : ChipInstance) (o : Nat) (v : Byte) : (i.setReg o v).initialised = i.initialised := rfl

@[simp] theorem ChipInstance.setReg_clockHz (i : ChipInstance) (o : Nat) (v : Byte) : (i.setReg o v).clockHz = i.clockHz := rfl

@[simp] theorem ChipInstance.setReg_rom (i : ChipInstance) (o : Nat) (v : Byte) : (i.setReg o v).rom = i.rom := rfl

@[simp] theorem ChipInstance.setReg_romSize (i : ChipInstance) (o : Nat) (v : Byte) : (i.setReg o v).romSize = i.romSize := rfl

@[simp] theorem ChipInstance.setReg_romMask (i : ChipInstance) (o : Nat) (v : Byte) : (i.setReg o v).romMask = i.romMask := rfl

@[simp] theorem ChipInstance.setReg_posLatch (i : ChipInstance) (o : Nat) (v : Byte) : (i.setReg o v).posLatch = i.posLatch := rfl

@[simp] theorem ChipInstance.setReg_chan (i : ChipInstance) (o : Nat) (v : Byte) : (i.setReg o v).chan = i.chan := rfl

@[simp] theorem ChipInstance.setReg_gain (i : ChipInstance) (o : Nat) (v : Byte) : (i.setReg o v).gain = i.gain := rfl

@[simp] theorem ChipInstance.setReg_volume (i : ChipInstance) (o : Nat) (v : Byte) : (i.setReg o v).volume = i.volume := rfl

@[simp] theorem ChipInstance.setReg_routeMask (i : ChipInstance) (o : Nat) (v : Byte) : (i.setReg o v).routeMask = i.routeMask := rfl

@[simp] theorem ChipInstance.setReg_flags (i : ChipInstance) (o : Nat) (v : Byte) : (i.setReg o v).flags = i.flags := rfl

@[simp] theorem ChipInstance.setReg_panCallback (i : ChipInstance) (o : Nat) (v : Byte) : (i.setReg o v).panCallback = i.panCallback := rfl

@[simp] theorem ChipInstance.setReg_reverbCursor (i : ChipInstance) (o : Nat) (v : Byte) : (i.setReg o v).reverbCursor = i.reverbCursor := rfl

@[simp] theorem ChipInstance.setReg_zoneCursor (i : ChipInstance) (o : Nat) (v : Byte) : (i.setReg o v).zoneCursor = i.zoneCursor := rfl

@[simp] theorem ChipInstance.setReg_ram (i : ChipInstance) (o : Nat) (v : Byte) : (i.setReg o v).ram = i.ram := rfl

/-! ### `setChannel` -/

@[simp] theorem ChipInstance.setChannel_initialised (i : ChipInstance) (c : Fin 8) (v : ChanState) : (i.setChannel c v).initialised = i.initialised := rfl

@[simp] theorem ChipInstance.setChannel_clockHz (i : ChipInstance) (c : Fin 8) (v : ChanState) : (i.setChannel c v).clockHz = i.clockHz := rfl

@[simp] theorem ChipInstance.setChannel_rom (i : ChipInstance) (c : Fin 8) (v : ChanState) : (i.setChannel c v).rom = i.rom := rfl

@[simp] theorem ChipInstance.setChannel_romSize (i : ChipInstance) (c : Fin 8) (v : ChanState) : (i.setChannel c v).romSize = i.romSize := rfl

@[simp] theorem ChipInstance.setChannel_romMask (i : ChipInstance) (c : Fin 8) (v : ChanState) : (i.setChannel c v).romMask = i.romMask := rfl

@[simp] theorem ChipInstance.setChannel_regs (i : ChipInstance) (c : Fin 8) (v : ChanState) : (i.setChannel c v).regs = i.regs := rfl

@[simp] theorem ChipInstance.setChannel_posLatch (i : ChipInstance) (c : Fin 8) (v : ChanState) : (i.setChannel c v).posLatch = i.posLatch := rfl

@[simp] theorem ChipInstance.setChannel_gain (i : ChipInstance) (c : Fin 8) (v : ChanState) : (i.setChannel c v).gain = i.gain := rfl

@[simp] theorem ChipInstance.setChannel_volume (i : ChipInstance) (c : Fin 8) (v : ChanState) : (i.setChannel c v).volume = i.volume := rfl

@[simp] theorem ChipInstance.setChannel_routeMask (i : ChipInstance) (c : Fin 8) (v : ChanState) : (i.setChannel c v).routeMask = i.routeMask := rfl

@[simp] theorem ChipInstance.setChannel_flags (i : ChipInstance) (c : Fin 8) (v : ChanState) : (i.setChannel c v).flags = i.flags := rfl

@[simp] theorem ChipInstance.setChannel_panCallback (i : ChipInstance) (c : Fin 8) (v : ChanState) : (i.setChannel c v).panCallback = i.panCallback := rfl

@[simp] theorem ChipInstance.setChannel_reverbCursor (i : ChipInstance) (c : Fin 8) (v : ChanState) : (i.setChannel c v).reverbCursor = i.reverbCursor := rfl

@[simp] theorem ChipInstance.setChannel_zoneCursor (i : ChipInstance) (c : Fin 8) (v : ChanState) : (i.setChannel c v).zoneCursor = i.zoneCursor := rfl

@[simp] theorem ChipInstance.setChannel_ram (i : ChipInstance) (c : Fin 8) (v : ChanState) : (i.setChannel c v).ram = i.ram := rfl

/-! ### `setLatch` -/

@[simp] theorem ChipInstance.setLatch_initialised (i : ChipInstance) (c : Fin 8) (k : Fin 3) (b : Byte) : (i.setLatch c k b).initialised = i.initialised := rfl

@[simp] theorem ChipInstance.setLatch_clockHz (i : ChipInstance) (c : Fin 8) (k : Fin 3) (b : Byte) : (i.setLatch c k b).clockHz = i.clockHz := rfl

@[simp] theorem ChipInstance.setLatch_rom (i : ChipInstance) (c : Fin 8) (k : Fin 3) (b : Byte) : (i.setLatch c k b).rom = i.rom := rfl

@[simp] theorem ChipInstance.setLatch_romSize (i : ChipInstance) (c : Fin 8) (k : Fin 3) (b : Byte) : (i.setLatch c k b).romSize = i.romSize := rfl

@[simp] theorem ChipInstance.setLatch_romMask (i : ChipInstance) (c : Fin 8) (k : Fin 3) (b : Byte) : (i.setLatch c k b).romMask = i.romMask := rfl

@[simp] theorem ChipInstance.setLatch_regs (i : ChipInstance) (c : Fin 8) (k : Fin 3) (b : Byte) : (i.setLatch c k b).regs = i.regs := rfl

@[simp] theorem ChipInstance.setLatch_chan (i : ChipInstance) (c : Fin 8) (k : Fin 3) (b : Byte) : (i.setLatch c k b).chan = i.chan := rfl

@[simp] theorem ChipInstance.setLatch_gain (i : ChipInstance) (c : Fin 8) (k : Fin 3) (b : Byte) : (i.setLatch c k b).gain = i.gain := rfl

@[simp] theorem ChipInstance.setLatch_volume (i : ChipInstance) (c : Fin 8) (k : Fin 3) (b : Byte) : (i.setLatch c k b).volume = i.volume := rfl

@[simp] theorem ChipInstance.setLatch_routeMask (i : ChipInstance) (c : Fin 8) (k : Fin 3) (b : Byte) : (i.setLatch c k b).routeMask = i.routeMask := rfl

@[simp] theorem ChipInstance.setLatch_flags (i : ChipInstance) (c : Fin 8) (k : Fin 3) (b : Byte) : (i.setLatch c k b).flags = i.flags := rfl

@[simp] theorem ChipInstance.setLatch_panCallback (i : ChipInstance) (c : Fin 8) (k : Fin 3) (b : Byte) : (i.setLatch c k b).panCallback = i.panCallback := rfl

@[simp] theorem ChipInstance.setLatch_reverbCursor (i : ChipInstance) (c : Fin 8) (k : Fin 3) (b : Byte) : (i.setLatch c k b).reverbCursor = i.reverbCursor := rfl

@[simp] theorem ChipInstance.setLatch_zoneCursor (i : ChipInstance) (c : Fin 8) (k : Fin 3) (b : Byte) : (i.setLatch c k b).zoneCursor = i.zoneCursor := rfl

@[simp] theorem ChipInstance.setLatch_ram (i : ChipInstance) (c : Fin 8) (k : Fin 3) (b : Byte) : (i.setLatch c k b).ram = i.ram := rfl

/-! ### `setRamByte` -/

@[simp] theorem ChipInstance.setRamByte_initialised (i : ChipInstance) (a : Nat) (b : Byte) : (i.setRamByte a b).initialised = i.initialised := rfl

@[simp] theorem ChipInstance.setRamByte_clockHz (i : ChipInstance) (a : Nat) (b : Byte) : (i.setRamByte a b).clockHz = i.clockHz := rfl

@[simp] theorem ChipInstance.setRamByte_rom (i : ChipInstance) (a : Nat) (b : Byte) : (i.setRamByte a b).rom = i.rom := rfl

@[simp] theorem ChipInstance.setRamByte_romSize (i : ChipInstance) (a : Nat) (b : Byte) : (i.setRamByte a b).romSize = i.romSize := rfl

@[simp] theorem ChipInstance.setRamByte_romMask (i : ChipInstance) (a : Nat) (b : Byte) : (i.setRamByte a b).romMask = i.romMask := rfl

@[simp] theorem ChipInstance.setRamByte_regs (i : ChipInstance) (a : Nat) (b : Byte) : (i.setRamByte a b).regs = i.regs := rfl

@[simp] theorem ChipInstance.setRamByte_posLatch (i : ChipInstance) (a : Nat) (b : Byte) : (i.setRamByte a b).posLatch = i.posLatch := rfl

@[simp] theorem ChipInstance.setRamByte_chan (i : ChipInstance) (a : Nat) (b : Byte) : (i.setRamByte a b).chan = i.chan := rfl

@[simp] theorem ChipInstance.setRamByte_gain (i : ChipInstance) (a : Nat) (b : Byte) : (i.setRamByte a b).gain = i.gain := rfl

@[simp] theorem ChipInstance.setRamByte_volume (i : ChipInstance) (a : Nat) (b : Byte) : (i.setRamByte a b).volume = i.volume := rfl

@[simp] theorem ChipInstance.setRamByte_routeMask (i : ChipInstance) (a : Nat) (b : Byte) : (i.setRamByte a b).routeMask = i.routeMask := rfl

@[simp] theorem ChipInstance.setRamByte_flags (i : ChipInstance) (a : Nat) (b : Byte) : (i.setRamByte a b).flags = i.flags := rfl

@[simp] theorem ChipInstance.setRamByte_panCallback (i : ChipInstance) (a : Nat) (b : Byte) : (i.setRamByte a b).panCallback = i.panCallback := rfl

@[simp] theorem ChipInstance.setRamByte_reverbCursor (i : ChipInstance) (a : Nat) (b : Byte) : (i.setRamByte a b).reverbCursor = i.reverbCursor := rfl

@[simp] theorem ChipInstance.setRamByte_zoneCursor (i : ChipInstance) (a : Nat) (b : Byte) : (i.setRamByte a b).zoneCursor = i.zoneCursor := rfl

/-! ### `setRamSample` -/

@[simp] theorem ChipInstance.setRamSample_initialised (i : ChipInstance) (k : Nat) (v : Int) : (i.setRamSample k v).initialised = i.initialised := rfl

@[simp] theorem ChipInstance.setRamSample_clockHz (i : ChipInstance) (k : Nat) (v : Int) : (i.setRamSample k v).clockHz = i.clockHz := rfl

@[simp] theorem ChipInstance.setRamSample_rom (i : ChipInstance) (k : Nat) (v : Int) : (i.setRamSample k v).rom = i.rom := rfl

@[simp] theorem ChipInstance.setRamSample_romSize (i : ChipInstance) (k : Nat) (v : Int) : (i.setRamSample k v).romSize = i.romSize := rfl

@[simp] theorem ChipInstance.setRamSample_romMask (i : ChipInstance) (k : Nat) (v : Int) : (i.setRamSample k v).romMask = i.romMask := rfl

@[simp] theorem ChipInstance.setRamSample_regs (i : ChipInstance) (k : Nat) (v : Int) : (i.setRamSample k v).regs = i.regs := rfl

@[simp] theorem ChipInstance.setRamSample_posLatch (i : ChipInstance) (k : Nat) (v : Int) : (i.setRamSample k v).posLatch = i.posLatch := rfl

@[simp] theorem ChipInstance.setRamSample_chan (i : ChipInstance) (k : Nat) (v : Int) : (i.setRamSample k v).chan = i.chan := rfl

@[simp] theorem ChipInstance.setRamSample_gain (i : ChipInstance) (k : Nat) (v : Int) : (i.setRamSample k v).gain = i.gain := rfl

@[simp] theorem ChipInstance.setRamSample_volume (i : ChipInstance) (k : Nat) (v : Int) : (i.setRamSample k v).volume = i.volume := rfl

@[simp] theorem ChipInstance.setRamSample_routeMask (i : ChipInstance) (k : Nat) (v : Int) : (i.setRamSample k v).routeMask = i.routeMask := rfl

@[simp] theorem ChipInstance.setRamSample_flags (i : ChipInstance) (k : Nat) (v : Int) : (i.setRamSample k v).flags = i.flags := rfl

@[simp] theorem ChipInstance.setRamSample_panCallback (i : ChipInstance) (k : Nat) (v : Int) : (i.setRamSample k v).panCallback = i.panCallback := rfl

@[simp] theorem ChipInstance.setRamSample_reverbCursor (i : ChipInstance) (k : Nat) (v : Int) : (i.setRamSample k v).reverbCursor = i.reverbCursor := rfl

@[simp] theorem ChipInstance.setRamSample_zoneCursor (i : ChipInstance) (k : Nat) (v : Int) : (i.setRamSample k v).zoneCursor = i.zoneCursor := rfl

/-! ### `putle24` -/

@[simp] theorem ChipInstance.putle24_initialised (i : ChipInstance) (o v : Nat) : (i.putle24 o v).initialised = i.initialised := rfl

@[simp] theorem ChipInstance.putle24_clockHz (i : ChipInstance) (o v : Nat) : (i.putle24 o v).clockHz = i.clockHz := rfl

@[simp] theorem ChipInstance.putle24_rom (i : ChipInstance) (o v : Nat) : (i.putle24 o v).rom = i.rom := rfl

@[simp] theorem ChipInstance.putle24_romSize (i : ChipInstance) (o v : Nat) : (i.putle24 o v).romSize = i.romSize := rfl

@[simp] theorem ChipInstance.putle24_romMask (i : ChipInstance) (o v : Nat) : (i.putle24 o v).romMask = i.romMask := rfl

@[simp] theorem ChipInstance.putle24_posLatch (i : ChipInstance) (o v : Nat) : (i.putle24 o v).posLatch = i.posLatch := rfl

@[simp] theorem ChipInstance.putle24_chan (i : ChipInstance) (o v : Nat) : (i.putle24 o v).chan = i.chan := rfl

@[simp] theorem ChipInstance.putle24_gain (i : ChipInstance) (o v : Nat) : (i.putle24 o v).gain = i.gain := rfl

@[simp] theorem ChipInstance.putle24_volume (i : ChipInstance) (o v : Nat) : (i.putle24 o v).volume = i.volume := rfl

@[simp] theorem ChipInstance.putle24_routeMask (i : ChipInstance) (o v : Nat) : (i.putle24 o v).routeMask = i.routeMask := rfl

@[simp] theorem ChipInstance.putle24_flags (i : ChipInstance) (o v : Nat) : (i.putle24 o v).flags = i.flags := rfl

@[simp] theorem ChipInstance.putle24_panCallback (i : ChipInstance) (o v : Nat) : (i.putle24 o v).panCallback = i.panCallback := rfl

@[simp] theorem ChipInstance.putle24_reverbCursor (i : ChipInstance) (o v : Nat) : (i.putle24 o v).reverbCursor = i.reverbCursor := rfl

@[simp] theorem ChipInstance.putle24_zoneCursor (i : ChipInstance) (o v : Nat) : (i.putle24 o v).zoneCursor = i.zoneCursor := rfl

@[simp] theorem ChipInstance.putle24_ram (i : ChipInstance) (o v : Nat) : (i.putle24 o v).ram = i.ram := rfl

/-! ### `copyLatch` -/

@[simp] theorem ChipInstance.copyLatch_initialised (i : ChipInstance) (c : Fin 8) : (i.copyLatch c).initialised = i.initialised := rfl

@[simp] theorem ChipInstance.copyLatch_clockHz (i : ChipInstance) (c : Fin 8) : (i.copyLatch c).clockHz = i.clockHz := rfl

@[simp] theorem ChipInstance.copyLatch_rom (i : ChipInstance) (c : Fin 8) : (i.copyLatch c).rom = i.rom := rfl

@[simp] theorem ChipInstance.copyLatch_romSize (i : ChipInstance) (c : Fin 8) : (i.copyLatch c).romSize = i.romSize := rfl

@[simp] theorem ChipInstance.copyLatch_romMask (i : ChipInstance) (c : Fin 8) : (i.copyLatch c).romMask = i.romMask := rfl

@[simp] theorem ChipInstance.copyLatch_posLatch (i : ChipInstance) (c : Fin 8) : (i.copyLatch c).posLatch = i.posLatch := rfl

@[simp] theorem ChipInstance.copyLatch_chan (i : ChipInstance) (c : Fin 8) : (i.copyLatch c).chan = i.chan := rfl

@[simp] theorem ChipInstance.copyLatch_gain (i : ChipInstance) (c : Fin 8) : (i.copyLatch c).gain = i.gain := rfl

@[simp] theorem ChipInstance.copyLatch_volume (i : ChipInstance) (c : Fin 8) : (i.copyLatch c).volume = i.volume := rfl

@[simp] theorem ChipInstance.copyLatch_routeMask (i : ChipInstance) (c : Fin 8) : (i.copyLatch c).routeMask = i.routeMask := rfl

@[simp] theorem ChipInstance.copyLatch_flags (i : ChipInstance) (c : Fin 8) : (i.copyLatch c).flags = i.flags := rfl

@[simp] theorem ChipInstance.copyLatch_panCallback (i : ChipInstance) (c : Fin 8) : (i.copyLatch c).panCallback = i.panCallback := rfl

@[simp] theorem ChipInstance.copyLatch_reverbCursor (i : ChipInstance) (c : Fin 8) : (i.copyLatch c).reverbCursor = i.reverbCursor := rfl

@[simp] theorem ChipInstance.copyLatch_zoneCursor (i : ChipInstance) (c : Fin 8) : (i.copyLatch c).zoneCursor = i.zoneCursor := rfl

@[simp] theorem ChipInstance.copyLatch_ram (i : ChipInstance) (c : Fin 8) : (i.copyLatch c).ram = i.ram := rfl

/-! ### `advanceZone` -/

@[simp] theorem ChipInstance.advanceZone_initialised (i : ChipInstance) : i.advanceZone.initialised = i.initialised := rfl

@[simp] theorem ChipInstance.advanceZone_clockHz (i : ChipInstance) : i.advanceZone.clockHz = i.clockHz := rfl

@[simp] theorem ChipInstance.advanceZone_rom (i : ChipInstance) : i.advanceZone.rom = i.rom := rfl

@[simp] theorem ChipInstance.advanceZone_romSize (i : ChipInstance) : i.advanceZone.romSize = i.romSize := rfl

@[simp] theorem ChipInstance.advanceZone_romMask (i : ChipInstance) : i.advanceZone.romMask = i.romMask := rfl

@[simp] theorem ChipInstance.advanceZone_regs (i : ChipInstance) : i.advanceZone.regs = i.regs := rfl

@[simp] theorem ChipInstance.advanceZone_posLatch (i : ChipInstance) : i.advanceZone.posLatch = i.posLatch := rfl

@[simp] theorem ChipInstance.advanceZone_chan (i : ChipInstance) : i.advanceZone.chan = i.chan := rfl

@[simp] theorem ChipInstance.advanceZone_gain (i : ChipInstance) : i.advanceZone.gain = i.gain := rfl

@[simp] theorem ChipInstance.advanceZone_volume (i : ChipInstance) : i.advanceZone.volume = i.volume := rfl

@[simp] theorem ChipInstance.advanceZone_routeMask (i : ChipInstance) : i.advanceZone.routeMask = i.routeMask := rfl

@[simp] theorem ChipInstance.advanceZone_flags (i : ChipInstance) : i.advanceZone.flags = i.flags := rfl

@[simp] theorem ChipInstance.advanceZone_panCallback (i : ChipInstance) : i.advanceZone.panCallback = i.panCallback := rfl

@[simp] theorem ChipInstance.advanceZone_reverbCursor (i : ChipInstance) : i.advanceZone.reverbCursor = i.reverbCursor := rfl

@[simp] theorem ChipInstance.advanceZone_ram (i : ChipInstance) : i.advanceZone.ram = i.ram := rfl

/-! ### `advanceRing` -/

@[simp] theorem ChipInstance.advanceRing_initialised (i : ChipInstance) : i.advanceRing.initialised = i.initialised := rfl

@[simp] theorem ChipInstance.advanceRing_clockHz (i : ChipInstance) : i.advanceRing.clockHz = i.clockHz := rfl

@[simp] theorem ChipInstance.advanceRing_rom (i : ChipInstance) : i.advanceRing.rom = i.rom := rfl

@[simp] theorem ChipInstance.advanceRing_romSize (i : ChipInstance) : i.advanceRing.romSize = i.romSize := rfl

@[simp] theorem ChipInstance.advanceRing_romMask (i : ChipInstance) : i.advanceRing.romMask = i.romMask := rfl

@[simp] theorem ChipInstance.advanceRing_regs (i : ChipInstance) : i.advanceRing.regs = i.regs := rfl

@[simp] theorem ChipInstance.advanceRing_posLatch (i : ChipInstance) : i.advanceRing.posLatch = i.posLatch := rfl

@[simp] theorem ChipInstance.advanceRing_chan (i : ChipInstance) : i.advanceRing.chan = i.chan := rfl

@[simp] theorem ChipInstance.advanceRing_gain (i : ChipInstance) : i.advanceRing.gain = i.gain := rfl

@[simp] theorem ChipInstance.advanceRing_volume (i : ChipInstance) : i.advanceRing.volume = i.volume := rfl

@[simp] theorem ChipInstance.advanceRing_routeMask (i : ChipInstance) : i.advanceRing.routeMask = i.routeMask := rfl

@[simp] theorem ChipInstance.advanceRing_flags (i : ChipInstance) : i.advanceRing.flags = i.flags := rfl

@[simp] theorem ChipInstance.advanceRing_panCallback (i : ChipInstance) : i.advanceRing.panCallback = i.panCallback := rfl

@[simp] theorem ChipInstance.advanceRing_zoneCursor (i : ChipInstance) : i.advanceRing.zoneCursor = i.zoneCursor := rfl

@[simp] theorem ChipInstance.advanceRing_ram (i : ChipInstance) : i.advanceRing.ram = i.ram := rfl

/-! ### The changed field -/

theorem ChipInstance.setReg_regs (i : ChipInstance) (o : Nat) (v : Byte) :
    (i.setReg o v).regs = Memory.write i.regs o v := rfl

theorem ChipInstance.setChannel_chan (i : ChipInstance) (c : Fin 8) (v : ChanState) :
    (i.setChannel c v).chan = i.chan.set c.val v := rfl

theorem ChipInstance.setRamByte_ram (i : ChipInstance) (a : Nat) (b : Byte) :
    (i.setRamByte a b).ram = Memory.write i.ram a b := rfl

@[simp] theorem ChipInstance.advanceRing_reverbCursor (i : ChipInstance) :
    i.advanceRing.reverbCursor = (i.reverbCursor + 1) % 8192 := rfl

/-! ### The state's own updates -/

@[simp] theorem State.setChip_pending (s : State) (id : Nat) (c : ChipInstance) : (s.setChip id c).pending = s.pending := rfl

@[simp] theorem State.setChip_response (s : State) (id : Nat) (c : ChipInstance) : (s.setChip id c).response = s.response := rfl

@[simp] theorem State.setChip_panLog (s : State) (id : Nat) (c : ChipInstance) : (s.setChip id c).panLog = s.panLog := rfl

@[simp] theorem State.respond_chips (s : State) (r : Response) : (s.respond r).chips = s.chips := rfl

@[simp] theorem State.respond_chip (s : State) (r : Response) (id : Nat) : (s.respond r).chip id = s.chip id := rfl

@[simp] theorem State.respond_pending (s : State) (r : Response) : (s.respond r).pending = s.pending := rfl

@[simp] theorem State.respond_response (s : State) (r : Response) : (s.respond r).response = r := rfl

@[simp] theorem State.respond_panLog (s : State) (r : Response) : (s.respond r).panLog = s.panLog := rfl

@[simp] theorem State.emitPan_chips (s : State) (e : PanEvent) : (s.emitPan e).chips = s.chips := rfl

@[simp] theorem State.emitPan_chip (s : State) (e : PanEvent) (id : Nat) : (s.emitPan e).chip id = s.chip id := rfl

@[simp] theorem State.emitPan_pending (s : State) (e : PanEvent) : (s.emitPan e).pending = s.pending := rfl

@[simp] theorem State.emitPan_response (s : State) (e : PanEvent) : (s.emitPan e).response = s.response := rfl

@[simp] theorem State.emitPan_panLog (s : State) (e : PanEvent) : (s.emitPan e).panLog = s.panLog ++ [e] := rfl

@[simp] theorem State.withPending_chips (s : State) (p : List Request) : (s.withPending p).chips = s.chips := rfl

@[simp] theorem State.withPending_chip (s : State) (p : List Request) (id : Nat) : (s.withPending p).chip id = s.chip id := rfl

@[simp] theorem State.withPending_pending (s : State) (p : List Request) : (s.withPending p).pending = p := rfl

@[simp] theorem State.withPending_response (s : State) (p : List Request) : (s.withPending p).response = s.response := rfl

@[simp] theorem State.withPending_panLog (s : State) (p : List Request) : (s.withPending p).panLog = s.panLog := rfl

/-- Reading an instance after replacing one. -/
theorem State.chip_setChip (s : State) (id j : Nat) (c : ChipInstance) :
    (s.setChip id c).chip j = if j = id ∧ id < Config.maxChips then c else s.chip j := by
  simp only [State.chip, State.setChip, Vector.getElem?_setIfInBounds]
  split_ifs <;> simp_all [eq_comm]

@[simp] theorem State.chip_setChip_self (s : State) {id : Nat} (c : ChipInstance) (h : id < Config.maxChips) :
    (s.setChip id c).chip id = c := by
  simp [State.chip_setChip, h]

@[simp] theorem State.chip_setChip_ne (s : State) {id j : Nat} (c : ChipInstance) (h : j ≠ id) :
    (s.setChip id c).chip j = s.chip j := by
  simp [State.chip_setChip, h]

/-- Every instance of the reset state is blank. -/
@[simp] theorem State.reset_chip (id : Nat) : State.reset.chip id = ChipInstance.blank := by
  simp only [State.chip, State.reset]
  by_cases h : id < Config.maxChips
  · simp [h]
  · simp [Vector.getElem?_eq_none (Nat.le_of_not_lt h)]

end Sys2Proof.Machine
end

