-- ==== Sys2Proof/Laws/Ops.lean ====
section
/-! SUPPORT. What each shared operation can do, said once: the precondition and the end of an operation, the
register image, RAM, channels, the serial window, key-on and key-off. -/

namespace Sys2Proof.Machine

/-! ### Preconditions and ends -/

theorem withChip_ready {s : State} {id : Nat} (h : s.Ready id) (k : ChipInstance → Result) :
    withChip id s k = k (s.chip id) := by
  simp [withChip, withIndex, h.1, h.2]

/-- Whatever lets an operation complete, the instance was ready. -/
theorem withChip_next {s t : State} {id : Nat} {k : ChipInstance → Result} (h : withChip id s k = .next t) :
    s.Ready id ∧ k (s.chip id) = .next t := by
  unfold withChip withIndex at h
  split_ifs at h with h1 h2
  exact ⟨⟨h1, h2⟩, h⟩

theorem withChip_badChip {id : Nat} (h : Config.maxChips ≤ id) (s : State) (k : ChipInstance → Result) :
    withChip id s k = .fault (.badChip id) := by
  simp [withChip, withIndex, Nat.not_lt.2 h]

theorem withChip_notInitialised {s : State} {id : Nat} (h : id < Config.maxChips)
    (hi : (s.chip id).initialised = false) (k : ChipInstance → Result) :
    withChip id s k = .fault (.notInitialised id) := by
  simp [withChip, withIndex, h, hi]

theorem onChip_ready {s : State} {id : Nat} (h : s.Ready id) (k : ChipInstance → ChipInstance × Response) :
    onChip id s k = .next ((s.setChip id (k (s.chip id)).1).respond (k (s.chip id)).2) :=
  withChip_ready h _

theorem onChip_next {s t : State} {id : Nat} {k : ChipInstance → ChipInstance × Response}
    (h : onChip id s k = .next t) :
    s.Ready id ∧ t = (s.setChip id (k (s.chip id)).1).respond (k (s.chip id)).2 := by
  obtain ⟨hr, h⟩ := withChip_next h
  exact ⟨hr, (Host.Outcome.next.inj h).symm⟩

theorem updateChip_ready {s : State} {id : Nat} (h : s.Ready id) (k : ChipInstance → ChipInstance) :
    updateChip id s k = .next ((s.setChip id (k (s.chip id))).respond .done) :=
  onChip_ready h _

theorem storeReg_ready {s : State} {id : Nat} (h : s.Ready id) (o : Nat) (v : Byte) :
    storeReg id o v s = .next ((s.setChip id ((s.chip id).setReg o v)).respond .done) :=
  updateChip_ready h _

/-! ### The register image -/

/-- Everything a register store does to later reads. -/
@[simp] theorem ChipInstance.reg_setReg (i : ChipInstance) (o a : Nat) (v : Byte) :
    (i.setReg o v).reg a = if a = o then v else i.reg a := Memory.read_write _ _ _ _

@[simp] theorem ChipInstance.reg_setChannel (i : ChipInstance) (c : Fin 8) (v : ChanState) (a : Nat) :
    (i.setChannel c v).reg a = i.reg a := rfl

@[simp] theorem ChipInstance.reg_setLatch (i : ChipInstance) (c : Fin 8) (k : Fin 3) (b : Byte) (a : Nat) :
    (i.setLatch c k b).reg a = i.reg a := rfl

@[simp] theorem ChipInstance.reg_setRamSample (i : ChipInstance) (k : Nat) (v : Int) (a : Nat) :
    (i.setRamSample k v).reg a = i.reg a := rfl

@[simp] theorem ChipInstance.reg_advanceZone (i : ChipInstance) (a : Nat) : i.advanceZone.reg a = i.reg a := rfl

@[simp] theorem ChipInstance.reg_advanceRing (i : ChipInstance) (a : Nat) : i.advanceRing.reg a = i.reg a := rfl

theorem ChipInstance.setReg_eq (i : ChipInstance) (o : Nat) (v : Byte) :
    i.setReg o v = { i with regs := (i.setReg o v).regs } := rfl

/-- The three bytes of a `putle24`. -/
theorem ChipInstance.reg_putle24 (i : ChipInstance) (o v a : Nat) :
    (i.putle24 o v).reg a =
      if a = o + 2 then BitVec.ofNat 8 (v / 65536) else if a = o + 1 then BitVec.ofNat 8 (v / 256)
      else if a = o then BitVec.ofNat 8 v else i.reg a := by
  simp [ChipInstance.putle24]

theorem ChipInstance.le24_putle24 (i : ChipInstance) (o v : Nat) (h : v < 0x1000000) :
    (i.putle24 o v).le24 o = v := by
  simp only [ChipInstance.le24, ChipInstance.reg_putle24]
  simp
  omega

theorem ChipInstance.le24_lt (i : ChipInstance) (o : Nat) : i.le24 o < 0x1000000 := by
  have h0 := (i.reg o).isLt
  have h1 := (i.reg (o + 1)).isLt
  have h2 := (i.reg (o + 2)).isLt
  unfold ChipInstance.le24
  omega

theorem ChipInstance.le16_lt (i : ChipInstance) (o : Nat) : i.le16 o < 0x10000 := by
  have h0 := (i.reg o).isLt
  have h1 := (i.reg (o + 1)).isLt
  unfold ChipInstance.le16
  omega

/-! ### Channels and latches -/

theorem ChipInstance.channel_setChannel (i : ChipInstance) (c d : Fin 8) (v : ChanState) :
    (i.setChannel c v).channel d = if d = c then v else i.channel d := by
  simp only [ChipInstance.channel, ChipInstance.setChannel, Vector.getElem_set, Fin.ext_iff]
  split_ifs <;> simp_all [eq_comm]

theorem ChipInstance.latch_setLatch (i : ChipInstance) (c d : Fin 8) (k l : Fin 3) (b : Byte) :
    (i.setLatch c k b).latch d l = if d = c ∧ l = k then b else i.latch d l := by
  simp only [ChipInstance.latch, ChipInstance.setLatch, Vector.getElem_set, Fin.ext_iff]
  by_cases hd : c.val = d.val
  · simp only [hd, ↓reduceIte, Vector.getElem_set, true_and]
    split_ifs <;> simp_all [eq_comm]
  · have hd' : ¬ (d.val = c.val ∧ l.val = k.val) := fun h => hd h.1.symm
    simp only [hd, ↓reduceIte, hd']

/-! ### RAM -/

@[simp] theorem ChipInstance.ramByte_setRamByte (i : ChipInstance) (a k : Nat) (b : Byte) :
    (i.setRamByte k b).ramByte a = if a = k then b else i.ramByte a := Memory.read_write _ _ _ _

theorem ChipInstance.ramByte_setRamSample (i : ChipInstance) (k a : Nat) (v : Int) :
    (i.setRamSample k v).ramByte a =
      if a = 2 * k + 1 then BitVec.ofInt 8 (v / 256) else if a = 2 * k then BitVec.ofInt 8 v else i.ramByte a := by
  simp [ChipInstance.setRamSample]

theorem sext16_bounds (v : Int) : -32768 ≤ sext16 v ∧ sext16 v ≤ 32767 := by
  unfold sext16
  split_ifs <;> omega

theorem sext16_of_s16 {v : Int} (h1 : -32768 ≤ v) (h2 : v ≤ 32767) : sext16 v = v := by
  unfold sext16
  split_ifs <;> omega

theorem clamp16_bounds (v : Int) : -32768 ≤ clamp16 v ∧ clamp16 v ≤ 32767 := by
  unfold clamp16
  omega

theorem clamp16_of_s16 {v : Int} (h1 : -32768 ≤ v) (h2 : v ≤ 32767) : clamp16 v = v := by
  unfold clamp16
  omega

theorem isS16_iff (v : Int) : isS16 v = true ↔ -32768 ≤ v ∧ v ≤ 32767 := by simp [isS16]

/-- A sample read back is the sample stored, and every other sample stays. -/
theorem ChipInstance.ramSample_setRamSample (i : ChipInstance) (k a : Nat) (v : Int)
    (h1 : -32768 ≤ v) (h2 : v ≤ 32767) :
    (i.setRamSample k v).ramSample a = if a = k then v else i.ramSample a := by
  unfold ChipInstance.ramSample
  simp only [ChipInstance.ramByte_setRamSample]
  by_cases h : a = k
  · subst h
    simp [BitVec.toNat_ofInt]
    unfold sext16
    split_ifs <;> omega
  · rw [if_neg (by omega), if_neg (by omega), if_neg (by omega), if_neg (by omega), if_neg h]

/-! ### ROM -/

/-- `RomRead` sees an address only modulo `romMask + 1` (R84). -/
theorem ChipInstance.romRead_mod (i : ChipInstance) (a n : Int) :
    i.romRead (a + n * (i.romMask + 1)) = i.romRead a := by
  unfold ChipInstance.romRead
  rw [Int.add_mul_emod_self_right]

theorem ChipInstance.romRead_congr {i j : ChipInstance} (h1 : i.rom = j.rom) (h2 : i.romSize = j.romSize)
    (h3 : i.romMask = j.romMask) (a : Int) : i.romRead a = j.romRead a := by
  unfold ChipInstance.romRead
  rw [h1, h2, h3]

/-- The mask is one less than the least power of two that holds the ROM (R10). -/
theorem romMaskOf_spec (n : Nat) (_ : 1 ≤ n) : ∃ k, romMaskOf n = 2 ^ k - 1 ∧ n ≤ 2 ^ k ∧
    ∀ l, n ≤ 2 ^ l → k ≤ l := by
  unfold romMaskOf
  refine ⟨_, rfl, ?_, ?_⟩
  · split_ifs with h1
    · simpa using h1
    · have := Nat.lt_log2_self (n := n - 1)
      omega
  · intro l hl
    split_ifs with h1
    · exact Nat.zero_le _
    · have h2 := Nat.log2_self_le (n := n - 1) (by omega)
      by_contra hc
      have : 2 ^ l ≤ 2 ^ (n-1).log2 := Nat.pow_le_pow_right (by decide) (by omega)
      omega

/-! ### Key-on and key-off -/

theorem ChipInstance.keyOn_eq (i : ChipInstance) (c : Fin 8) : i.keyOn c = { i with regs := (i.keyOn c).regs } := by
  unfold ChipInstance.keyOn
  split <;> rfl

theorem ChipInstance.keyOff_eq (i : ChipInstance) (c : Fin 8) :
    i.keyOff c = { i with regs := (i.keyOff c).regs } := by
  unfold ChipInstance.keyOff
  split <;> rfl

/-- Key-on and key-off touch no register but the status (R154). -/
theorem ChipInstance.reg_keyOn (i : ChipInstance) (c : Fin 8) (a : Nat) :
    (i.keyOn c).reg a =
      if a = 0x22C ∧ i.inhibited = false then i.reg 0x22C ||| channelBit c else i.reg a := by
  unfold ChipInstance.keyOn
  split_ifs <;> simp_all

/-- Key-off touches no register but the status (R155). -/
theorem ChipInstance.reg_keyOff (i : ChipInstance) (c : Fin 8) (a : Nat) :
    (i.keyOff c).reg a =
      if a = 0x22C ∧ i.inhibited = false then i.reg 0x22C &&& ~~~channelBit c else i.reg a := by
  unfold ChipInstance.keyOff
  split_ifs <;> simp_all

theorem channelBit_bit (c d : Fin 8) : (channelBit c).getLsbD d.val = decide (d = c) := by
  revert c d
  decide

@[simp] theorem ChipInstance.inhibited_keyOn (i : ChipInstance) (c : Fin 8) : (i.keyOn c).inhibited = i.inhibited := by
  simp [ChipInstance.inhibited, ChipInstance.reg_keyOn]

@[simp] theorem ChipInstance.inhibited_keyOff (i : ChipInstance) (c : Fin 8) :
    (i.keyOff c).inhibited = i.inhibited := by
  simp [ChipInstance.inhibited, ChipInstance.reg_keyOff]

/-- Activity after a key-on. -/
theorem ChipInstance.active_keyOn (i : ChipInstance) (c d : Fin 8) :
    (i.keyOn c).active d = (i.active d || (decide (d = c) && !i.inhibited)) := by
  unfold ChipInstance.active
  rw [ChipInstance.reg_keyOn]
  have hb := channelBit_bit c d
  cases i.inhibited
  · simp only [and_self, ↓reduceIte, BitVec.getLsbD_or, hb, Bool.not_false, Bool.and_true]
  · simp

/-- Activity after a key-off. -/
theorem ChipInstance.active_keyOff (i : ChipInstance) (c d : Fin 8) :
    (i.keyOff c).active d = (i.active d && !(decide (d = c) && !i.inhibited)) := by
  unfold ChipInstance.active
  rw [ChipInstance.reg_keyOff]
  have hb := channelBit_bit c d
  cases i.inhibited
  · simp only [and_self, ↓reduceIte, BitVec.getLsbD_and, BitVec.getLsbD_not, hb, Bool.not_false, Bool.and_true,
      d.isLt, decide_true, Bool.true_and]
  · simp

/-- A byte is what its eight bits are. -/
theorem byte_ext {x y : Byte} (h : ∀ c : Fin 8, x.getLsbD c.val = y.getLsbD c.val) : x = y := by
  refine BitVec.eq_of_getLsbD_eq fun k hk => h ⟨k, hk⟩

/-! ### The latch copy -/

/-- The offset of position byte `k` of channel `c`. -/
def posOffset (c : Fin 8) (k : Fin 3) : Nat := blockBase c + 0x0C + k.val

theorem posOffset_inj {c d : Fin 8} {k l : Fin 3} : posOffset c k = posOffset d l ↔ c = d ∧ k = l := by
  constructor
  · intro h
    simp only [posOffset, blockBase] at h
    exact ⟨Fin.ext (by omega), Fin.ext (by omega)⟩
  · rintro ⟨rfl, rfl⟩; rfl

theorem posOffset_lt (c : Fin 8) (k : Fin 3) : posOffset c k < 0x100 := by
  simp only [posOffset, blockBase]
  omega

theorem ChipInstance.reg_copyLatch_pos (i : ChipInstance) (c d : Fin 8) (k : Fin 3) :
    (i.copyLatch c).reg (posOffset d k) = if d = c then i.latch c k else i.reg (posOffset d k) := by
  have e0 : blockBase c + 0x0C = posOffset c 0 := rfl
  have e1 : blockBase c + 0x0D = posOffset c 1 := rfl
  have e2 : blockBase c + 0x0E = posOffset c 2 := rfl
  simp only [ChipInstance.copyLatch, e0, e1, e2, ChipInstance.reg_setReg, posOffset_inj]
  by_cases h : d = c
  · subst h
    fin_cases k <;> simp
  · simp [h]

theorem ChipInstance.reg_copyLatch_other (i : ChipInstance) (c : Fin 8) (a : Nat)
    (h : ∀ k, a ≠ posOffset c k) : (i.copyLatch c).reg a = i.reg a := by
  have e0 : blockBase c + 0x0C = posOffset c 0 := rfl
  have e1 : blockBase c + 0x0D = posOffset c 1 := rfl
  have e2 : blockBase c + 0x0E = posOffset c 2 := rfl
  simp [ChipInstance.copyLatch, e0, e1, e2, h]

theorem ChipInstance.copyLatch_eq (i : ChipInstance) (c : Fin 8) :
    i.copyLatch c = { i with regs := (i.copyLatch c).regs } := rfl

/-! ### Masks -/

theorem mem_channels (c : Fin 8) : c ∈ channels := by
  revert c
  decide

/-- What a loop of an action over a list of channels keeps, if the action keeps it. -/
theorem forMask_keeps {P : ChipInstance → Prop} {act : ChipInstance → Fin 8 → ChipInstance} (mask : Byte)
    (h : ∀ i c, P i → P (act i c)) {i : ChipInstance} (hi : P i) : P (forMask mask act i) := by
  unfold forMask
  generalize channels = cs
  induction cs generalizing i with
  | nil => exact hi
  | cons c cs ih =>
    rw [List.foldl_cons]
    split
    · exact ih (h i c hi)
    · exact ih hi

/-- A loop whose action changes only registers changes only registers. -/
theorem forMask_eq {act : ChipInstance → Fin 8 → ChipInstance} (mask : Byte)
    (h : ∀ i c, act i c = { i with regs := (act i c).regs }) (i : ChipInstance) :
    forMask mask act i = { i with regs := (forMask mask act i).regs } := by
  refine forMask_keeps (P := fun j => j = { i with regs := j.regs }) mask (fun j c hj => ?_) rfl
  generalize hr : act j c = r
  have := h j c
  rw [hr] at this
  rw [this, hj]

/-- Key-off by mask: the status loses the selected bits unless inhibited, and nothing else changes (R145). -/
theorem forMask_keyOff (mask : Byte) (i : ChipInstance) :
    (∀ a, a ≠ 0x22C → (forMask mask ChipInstance.keyOff i).reg a = i.reg a) ∧
      (forMask mask ChipInstance.keyOff i).reg 0x22C =
        if i.inhibited then i.reg 0x22C else i.reg 0x22C &&& ~~~mask := by
  have key : ∀ (sel : Fin 8 → Bool) (cs : List (Fin 8)) (i : ChipInstance),
      let r := cs.foldl (fun j c => if sel c then j.keyOff c else j) i
      (∀ a, a ≠ 0x22C → r.reg a = i.reg a) ∧
        ∀ d : Fin 8, r.active d = (i.active d && !(sel d && decide (d ∈ cs) && !i.inhibited)) := by
    intro sel cs
    induction cs with
    | nil => simp
    | cons c cs ih =>
      intro i
      simp only [List.foldl_cons]
      by_cases hm : sel c
      · simp only [hm, ↓reduceIte]
        obtain ⟨h1, h2⟩ := ih (i.keyOff c)
        refine ⟨fun a ha => by rw [h1 a ha, ChipInstance.reg_keyOff]; simp [ha], fun d => ?_⟩
        rw [h2 d, ChipInstance.active_keyOff, ChipInstance.inhibited_keyOff]
        by_cases hd : d = c
        · subst hd; simp [hm]; cases i.active d <;> cases i.inhibited <;> simp
        · simp [hd]
      · simp only [hm, Bool.false_eq_true, ↓reduceIte]
        obtain ⟨h1, h2⟩ := ih i
        refine ⟨h1, fun d => ?_⟩
        rw [h2 d]
        by_cases hd : d = c
        · subst hd; simp [hm]
        · simp [hd]
  obtain ⟨h1, h2⟩ := key (fun c => mask.getLsbD c.val) channels i
  refine ⟨h1, byte_ext fun c => ?_⟩
  have := h2 c
  simp only [mem_channels, decide_true, Bool.and_true, ChipInstance.active] at this
  unfold forMask
  rw [this]
  cases i.inhibited <;> simp

/-- Key-on by mask (R144): the status gains the selected bits unless inhibited; with latching, the position
bytes of the selected channels come from the latch; no other register changes. -/
theorem forMask_startChannel (mask : Byte) (latching : Bool) (i : ChipInstance) :
    ((∀ a, a ≠ 0x22C → (∀ c k, a ≠ posOffset c k) →
        (forMask mask (ChipInstance.startChannel latching) i).reg a = i.reg a) ∧
      (∀ c k, (forMask mask (ChipInstance.startChannel latching) i).reg (posOffset c k) =
        if latching = true ∧ mask.getLsbD c.val = true then i.latch c k else i.reg (posOffset c k))) ∧
      (forMask mask (ChipInstance.startChannel latching) i).reg 0x22C =
        if i.inhibited then i.reg 0x22C else i.reg 0x22C ||| mask := by
  have one : ∀ (i : ChipInstance) (c : Fin 8), let r := ChipInstance.startChannel latching i c
      (r = { i with regs := r.regs } ∧ (∀ a, a ≠ 0x22C → (∀ c k, a ≠ posOffset c k) → r.reg a = i.reg a)) ∧
      (∀ d k, r.reg (posOffset d k) = if latching = true ∧ d = c then i.latch d k else i.reg (posOffset d k)) ∧
      (∀ d, r.active d = (i.active d || (decide (d = c) && !i.inhibited))) ∧ r.inhibited = i.inhibited := by
    intro i c
    have hne : ∀ d k, posOffset d k ≠ 0x22C := fun d k => by have := posOffset_lt d k; omega
    have hlt : ∀ d k, posOffset d k ≠ 0x22F := fun d k => by have := posOffset_lt d k; omega
    cases latching
    · simp only [ChipInstance.startChannel, Bool.false_eq_true, ↓reduceIte, false_and]
      refine ⟨⟨i.keyOn_eq c, fun a ha _ => ?_⟩, fun d k => ?_, fun d => i.active_keyOn c d, i.inhibited_keyOn c⟩
      · rw [ChipInstance.reg_keyOn]; simp [ha]
      · rw [ChipInstance.reg_keyOn]; simp [hne]
    · have h22F : (i.copyLatch c).reg 0x22F = i.reg 0x22F :=
        i.reg_copyLatch_other c _ fun k => (hlt c k).symm
      have h22C : (i.copyLatch c).reg 0x22C = i.reg 0x22C :=
        i.reg_copyLatch_other c _ fun k => (hne c k).symm
      have hinh : (i.copyLatch c).inhibited = i.inhibited := by
        simp only [ChipInstance.inhibited, h22F]
      simp only [ChipInstance.startChannel, ↓reduceIte, true_and]
      refine ⟨⟨?_, fun a ha hp => ?_⟩, fun d k => ?_, fun d => ?_, ?_⟩
      · have := (i.copyLatch c).keyOn_eq c
        rw [this, i.copyLatch_eq c]
      · rw [ChipInstance.reg_keyOn, i.reg_copyLatch_other c a fun k => hp c k]; simp [ha]
      · rw [ChipInstance.reg_keyOn]
        simp only [hne, false_and, ↓reduceIte, ChipInstance.reg_copyLatch_pos]
        split_ifs with h
        · subst h; rfl
        · rfl
      · rw [ChipInstance.active_keyOn, hinh]
        simp only [ChipInstance.active, h22C]
      · rw [ChipInstance.inhibited_keyOn, hinh]
  have key : ∀ (sel : Fin 8 → Bool) (cs : List (Fin 8)) (i : ChipInstance),
      let r := cs.foldl (fun j c => if sel c then ChipInstance.startChannel latching j c else j) i
      (∀ a, a ≠ 0x22C → (∀ c k, a ≠ posOffset c k) → r.reg a = i.reg a) ∧
      (∀ d k, r.reg (posOffset d k) =
        if latching = true ∧ sel d = true ∧ d ∈ cs then i.latch d k else i.reg (posOffset d k)) ∧
      ∀ d : Fin 8, r.active d = (i.active d || (sel d && decide (d ∈ cs) && !i.inhibited)) := by
    intro sel cs
    induction cs with
    | nil => simp
    | cons c cs ih =>
      intro i
      simp only [List.foldl_cons]
      by_cases hm : sel c
      · simp only [hm, ↓reduceIte]
        obtain ⟨⟨e, o1⟩, o2, o3, o4⟩ := one i c
        obtain ⟨h1, h2, h3⟩ := ih (ChipInstance.startChannel latching i c)
        have hl : ∀ d k, (ChipInstance.startChannel latching i c).latch d k = i.latch d k := by
          intro d k; rw [e]; rfl
        refine ⟨fun a ha hp => by rw [h1 a ha hp, o1 a ha hp], fun d k => ?_, fun d => ?_⟩
        · rw [h2 d k, o2 d k, hl]
          by_cases hd : d = c
          · subst hd; simp [hm]; grind
          · simp [hd]
        · rw [h3 d, o3, o4]
          by_cases hd : d = c
          · subst hd; simp [hm]; cases i.active d <;> cases i.inhibited <;> simp
          · simp [hd]
      · simp only [hm, Bool.false_eq_true, ↓reduceIte]
        obtain ⟨h1, h2, h3⟩ := ih i
        refine ⟨h1, fun d k => ?_, fun d => ?_⟩
        · rw [h2 d k]
          by_cases hd : d = c
          · subst hd; simp [hm]
          · simp [hd]
        · rw [h3 d]
          by_cases hd : d = c
          · subst hd; simp [hm]
          · simp [hd]
  obtain ⟨h1, h2, h3⟩ := key (fun c => mask.getLsbD c.val) channels i
  refine ⟨⟨h1, fun c k => ?_⟩, byte_ext fun c => ?_⟩
  · have := h2 c k
    simp only [mem_channels, and_true] at this
    exact this
  · have := h3 c
    simp only [mem_channels, decide_true, Bool.and_true, ChipInstance.active] at this
    unfold forMask
    rw [this]
    cases i.inhibited <;> simp

theorem ChipInstance.startChannel_eq (latching : Bool) (i : ChipInstance) (c : Fin 8) :
    ChipInstance.startChannel latching i c = { i with regs := (ChipInstance.startChannel latching i c).regs } := by
  cases latching
  · exact i.keyOn_eq c
  · simp only [ChipInstance.startChannel, ↓reduceIte]
    have := (i.copyLatch c).keyOn_eq c
    rw [this, i.copyLatch_eq c]

/-! ### The serial window -/

/-- The cursor stays inside the window (R60 (b)). -/
theorem ChipInstance.advanceZone_lt (i : ChipInstance) (h : i.zoneCursor < i.zoneLimit) :
    i.advanceZone.zoneCursor < i.zoneLimit := by
  simp only [ChipInstance.advanceZone]
  split_ifs <;> omega

theorem ChipInstance.zoneLimit_pos (i : ChipInstance) : 0 < i.zoneLimit := by
  unfold ChipInstance.zoneLimit zoneLimitOf
  split_ifs <;> decide

end Sys2Proof.Machine
end

