-- ==== Sys2Proof/Laws/Channel.lean ====
section
/-! SUPPORT. What a channel's tick can do: the bounds of the step loop, the ranges of the decode forms, and
what a tick touches and leaves alone. -/

namespace Sys2Proof.Machine

/-! ### The step loop -/

theorem overflows_iff (f : Int) : overflows f = true ↔ f < 0 ∨ 0xFFFF < f := by
  simp [overflows]

theorem Codec.step_f (k : Codec) (rev loopDis : Bool) (t : Stepping) :
    (k.step rev loopDis t).f = if rev then t.f + 0x10000 else t.f - 0x10000 := by
  unfold Codec.step
  dsimp only
  split_ifs <;> rfl

theorem Codec.step_pval (k : Codec) (rev loopDis : Bool) (t : Stepping) :
    (k.step rev loopDis t).pval = t.val := by
  unfold Codec.step
  dsimp only
  split_ifs <;> rfl

/-- With enough steps allowed, the loop is left with the fraction in range or the sample ended. Forward,
the fraction starts at 0 or above; in reverse, at `0xFFFF` or below (R176). -/
theorem Codec.steps_leaves (k : Codec) (rev loopDis : Bool) (n : Nat) (t : Stepping)
    (h : if rev then t.f ≤ 0xFFFF ∧ -t.f < 0x10000 * (n : Int) + 1 else 0 ≤ t.f ∧ t.f < 0x10000 * (n + 1 : Int)) :
    overflows (k.steps rev loopDis n t).f = false ∨ (k.steps rev loopDis n t).ended = true := by
  induction n generalizing t with
  | zero =>
    left
    rw [Codec.steps, ← Bool.not_eq_true, overflows_iff]
    cases rev <;> simp at h <;> omega
  | succ n ih =>
    rw [Codec.steps]
    split
    · rename_i hc
      rw [Bool.and_eq_true, overflows_iff] at hc
      refine ih _ ?_
      rw [Codec.step_f]
      cases rev
      · simp only [Bool.false_eq_true, ↓reduceIte] at h ⊢
        push_cast at h ⊢
        omega
      · simp only [↓reduceIte] at h ⊢
        push_cast at h ⊢
        omega
    · rename_i hc
      rw [Bool.and_eq_true, not_and_or] at hc
      rcases hc with hc | hc
      · left; simpa using hc
      · right; simpa using hc

/-- A property of the samples that a step keeps holds after any number of steps. -/
theorem Codec.steps_keeps {P : Int → Prop} (k : Codec) (rev loopDis : Bool) (h0 : P 0)
    (hv : ∀ p q, P (k.value (k.fetch p) p q)) (n : Nat) (t : Stepping) (hval : P t.val) (hpval : P t.pval) :
    P (k.steps rev loopDis n t).val ∧ P (k.steps rev loopDis n t).pval := by
  induction n generalizing t with
  | zero => exact ⟨hval, hpval⟩
  | succ n ih =>
    rw [Codec.steps]
    split
    · refine ih _ ?_ (by rw [Codec.step_pval]; exact hval)
      unfold Codec.step Codec.land
      dsimp only
      generalize (if rev = true then t.pos - k.stride else t.pos + k.stride) = p
      split_ifs <;> first | exact h0 | exact hv _ _
    · exact ⟨hval, hpval⟩

/-! ### Ranges -/

theorem fetch8_s16 (i : ChipInstance) (p : Int) : isS16 (i.fetch8 p) = true :=
  (isS16_iff _).2 (sext16_bounds _)

theorem fetch16_s16 (i : ChipInstance) (p : Int) : isS16 (i.fetch16 p) = true :=
  (isS16_iff _).2 (sext16_bounds _)

theorem clamp16_s16 (v : Int) : isS16 (clamp16 v) = true := (isS16_iff _).2 (clamp16_bounds _)

/-! ### The operands of a channel's tick as register bytes (R121) -/

theorem ChipInstance.delta_eq (i : ChipInstance) (c : Fin 8) : i.delta c = i.bytes24 (0x20 * c.val) := rfl

theorem ChipInstance.loopStart_eq (i : ChipInstance) (c : Fin 8) :
    i.loopStart c = i.bytes24 (0x20 * c.val + 8) := rfl

theorem ChipInstance.livePos_eq (i : ChipInstance) (c : Fin 8) :
    i.livePos c = i.bytes24 (0x20 * c.val + 0x0C) := rfl

theorem ChipInstance.loopDisabled_eq (i : ChipInstance) (c : Fin 8) :
    i.loopDisabled c = (i.reg (0x201 + 2 * c.val)).getLsbD 0 := by
  unfold ChipInstance.loopDisabled modeBase
  rw [show 0x200 + 2 * c.val + 1 = 0x201 + 2 * c.val by omega]
  rfl

/-- Where decoding starts (R175). -/
theorem ChipInstance.resume_eq (i : ChipInstance) (c : Fin 8) :
    i.resume c = if (i.bytes24 (0x20 * c.val + 0x0C) : Int) = (i.channel c).pos then i.channel c
      else ⟨i.bytes24 (0x20 * c.val + 0x0C), 0, 0, 0⟩ := rfl

theorem ChipInstance.active_eq (i : ChipInstance) (c : Fin 8) :
    i.active c = (i.reg 0x22C).getLsbD c.val := rfl

/-- The decode state a channel resumes from is legal if the saved one is (R175). -/
theorem ChipInstance.resume_ok (i : ChipInstance) (c : Fin 8) (h : ChannelOk (i.channel c)) :
    ChannelOk (i.resume c) := by
  unfold ChipInstance.resume
  dsimp only
  split
  · exact h
  · exact ⟨by simp, by simp [isS16], by simp [isS16]⟩

theorem ChipInstance.resume_pos (i : ChipInstance) (c : Fin 8) : (i.resume c).pos = i.livePos c := by
  unfold ChipInstance.resume
  dsimp only
  split
  · rename_i h; exact h.symm
  · rfl

theorem decodedPcm_ok (k : Codec) (rev loopDis : Bool) (delta : Nat) (pos f val pval : Int)
    (hv : ∀ p q, isS16 (k.value (k.fetch p) p q) = true) (h1 : isS16 val = true) (h2 : isS16 pval = true) :
    ChannelOk (k.run rev loopDis delta pos f val pval).decodedPcm.chan := by
  have := k.steps_keeps (P := fun v => isS16 v = true) rev loopDis (by decide) hv
    ((if rev = true then f - delta else f + delta).natAbs / 0x10000 + 1)
    ⟨pos, if rev = true then f - delta else f + delta, val, pval, false⟩ h1 h2
  refine ⟨?_, this.1, this.2⟩
  simp only [Stepping.decodedPcm]
  omega

theorem decodePcm8_ok (i : ChipInstance) (c : Fin 8) (rev : Bool) (st : ChanState) (h : ChannelOk st) :
    ChannelOk (decodePcm8 i c rev st).chan :=
  decodedPcm_ok _ _ _ _ _ _ _ _ (fun p _ => fetch8_s16 i p) h.2.1 h.2.2

theorem decodePcm16_ok (i : ChipInstance) (c : Fin 8) (rev : Bool) (st : ChanState) (h : ChannelOk st) :
    ChannelOk (decodePcm16 i c rev st).chan :=
  decodedPcm_ok _ _ _ _ _ _ _ _ (fun p _ => fetch16_s16 i p) h.2.1 h.2.2

theorem dpcmScaleDown_le (p2 f : Int) : (dpcmScaleDown p2 f).2 ≤ 0xFFFF := by
  simp only [dpcmScaleDown]
  split_ifs <;> omega

theorem decodeDpcm4_ok (i : ChipInstance) (c : Fin 8) (rev : Bool) (st : ChanState) (h : ChannelOk st) :
    ChannelOk (decodeDpcm4 i c rev st).chan := by
  refine ⟨dpcmScaleDown_le _ _, ?_⟩
  exact (codecDpcm4 i c).steps_keeps (P := fun v => isS16 v = true) rev _ (by decide)
    (fun _ _ => clamp16_s16 _) _ _ h.2.1 h.2.2

/-- Whatever the format, a tick leaves a legal decode state (R190 (a), (c)). -/
theorem ChipInstance.decodeSample_ok (i : ChipInstance) (c : Fin 8) (h : ChannelOk (i.channel c)) :
    ChannelOk (i.decodeSample c).chan := by
  have hr := i.resume_ok c h
  unfold ChipInstance.decodeSample
  dsimp only
  split
  · exact decodePcm8_ok i c _ _ hr
  · exact decodePcm16_ok i c _ _ hr
  · exact decodeDpcm4_ok i c _ _ hr
  · exact hr

/-! ### What the parts of a tick touch -/

theorem ChipInstance.reverbSlot_lt (i : ChipInstance) (c : Fin 8) : i.reverbSlot c < 8192 :=
  Nat.mod_lt _ (by decide)

theorem ChipInstance.endSample_eq (i : ChipInstance) (c : Fin 8) (e : Bool) :
    i.endSample c e = { i with regs := (i.endSample c e).regs } := by
  unfold ChipInstance.endSample
  split
  · exact i.keyOff_eq c
  · rfl

theorem ChipInstance.reg_endSample (i : ChipInstance) (c : Fin 8) (e : Bool) {a : Nat} (h : a ≠ 0x22C) :
    (i.endSample c e).reg a = i.reg a := by
  unfold ChipInstance.endSample
  split
  · rw [ChipInstance.reg_keyOff]; simp [h]
  · rfl

/-- What a decode form does to the instance (R185). -/
theorem ChipInstance.endSample_spec (i : ChipInstance) (c : Fin 8) (e : Bool) :
    i.EndsSample (i.endSample c e) c e := by
  refine ⟨⟨i.endSample_eq c e, fun a ha => i.reg_endSample c e ha⟩, ?_⟩
  unfold ChipInstance.endSample
  cases e
  · simp
  · rw [if_pos rfl, ChipInstance.reg_keyOff]
    have : i.inhibited = (i.reg 0x22F).getLsbD 7 := rfl
    rw [← this]
    cases i.inhibited <;> simp [channelBit]

theorem ChipInstance.writeBack_eq (i : ChipInstance) (c : Fin 8) (p : Int) :
    i.writeBack c p = { i with regs := (i.writeBack c p).regs } := by
  unfold ChipInstance.writeBack
  split <;> rfl

theorem ChipInstance.reg_writeBack_other (i : ChipInstance) (c : Fin 8) (p : Int) {a : Nat}
    (h : ∀ k, a ≠ posOffset c k) : (i.writeBack c p).reg a = i.reg a := by
  have h0 := h 0
  have h1 := h 1
  have h2 := h 2
  simp only [posOffset, Fin.val_zero, Fin.val_one, Fin.val_two] at h0 h1 h2
  unfold ChipInstance.writeBack
  split
  · rfl
  · rw [ChipInstance.reg_putle24, if_neg (by omega), if_neg (by omega), if_neg (by omega)]

/-- A channel's tick changes registers, the channel states and the RAM, and nothing else. -/
theorem channelTick_chip (x : Mixing) (c : Fin 8) :
    (channelTick x c).chip = { x.chip with
      regs := (channelTick x c).chip.regs
      chan := x.chip.chan.set c.val (x.chip.decodeSample c).chan
      ram := (channelTick x c).chip.ram } := by
  unfold channelTick
  dsimp only
  rw [ChipInstance.writeBack_eq]
  split
  · simp only [Mixing.mix, ChipInstance.sendReverb]
    rw [ChipInstance.endSample_eq]
    rfl
  · rw [ChipInstance.endSample_eq]
    rfl

/-- A channel's tick changes no register but its position bytes and the status (R208). -/
theorem channelTick_reg (x : Mixing) (c : Fin 8) {a : Nat} (h : a ≠ 0x22C) (hp : ∀ k, a ≠ posOffset c k) :
    (channelTick x c).chip.reg a = x.chip.reg a := by
  unfold channelTick
  dsimp only
  rw [ChipInstance.reg_setChannel, ChipInstance.reg_writeBack_other _ _ _ hp]
  split
  · simp only [Mixing.mix, ChipInstance.sendReverb, ChipInstance.reg_setRamSample]
    exact ChipInstance.reg_endSample _ _ _ h
  · exact ChipInstance.reg_endSample _ _ _ h

/-- A channel's tick persists what its decode form left (R189) and touches no other channel. -/
theorem channelTick_channel (x : Mixing) (c d : Fin 8) :
    (channelTick x c).chip.channel d = if d = c then (x.chip.decodeSample c).chan else x.chip.channel d := by
  unfold ChipInstance.channel
  rw [channelTick_chip]
  exact ChipInstance.channel_setChannel x.chip c d _

/-- The status a channel's tick leaves: its own bit falls at a sample's end unless inhibited (R185). -/
theorem channelTick_status (x : Mixing) (c : Fin 8) :
    (channelTick x c).chip.reg 0x22C =
      if (x.chip.decodeSample c).ended = true ∧ x.chip.inhibited = false then
        x.chip.reg 0x22C &&& ~~~channelBit c else x.chip.reg 0x22C := by
  have hne : ∀ k, (0x22C : Nat) ≠ posOffset c k := fun k => by have := posOffset_lt c k; omega
  have he : (x.chip.endSample c (x.chip.decodeSample c).ended).reg 0x22C =
      if (x.chip.decodeSample c).ended = true ∧ x.chip.inhibited = false then
        x.chip.reg 0x22C &&& ~~~channelBit c else x.chip.reg 0x22C := by
    unfold ChipInstance.endSample
    split_ifs with h1 h2 h2
    · rw [ChipInstance.reg_keyOff]; simp [h2.2]
    · rw [ChipInstance.reg_keyOff]; simp_all
    · exact absurd h2.1 h1
    · rfl
  rw [← he]
  unfold channelTick
  dsimp only
  rw [ChipInstance.reg_setChannel, ChipInstance.reg_writeBack_other _ _ _ hne]
  split
  · simp only [Mixing.mix, ChipInstance.sendReverb, ChipInstance.reg_setRamSample]
  · rfl

theorem channelTick_active_ne (x : Mixing) {c d : Fin 8} (h : d ≠ c) :
    (channelTick x c).chip.active d = x.chip.active d := by
  unfold ChipInstance.active
  rw [channelTick_status]
  split
  · have hb := channelBit_bit c d
    simp only [BitVec.getLsbD_and, BitVec.getLsbD_not, hb, h, decide_false, Bool.not_false, d.isLt,
      decide_true, Bool.and_self, Bool.and_true]
  · rfl

/-- The position bytes after a channel's tick: the low 24 bits of the position reached, unless inhibited
(R188). -/
theorem channelTick_livePos (x : Mixing) (c : Fin 8) :
    ((channelTick x c).chip.livePos c : Int) =
      if x.chip.inhibited then (x.chip.livePos c : Int) else (x.chip.decodeSample c).chan.pos % 0x1000000 := by
  have hreg : ∀ (i : ChipInstance) (p : Int), i.inhibited = x.chip.inhibited →
      (∀ a, a ≠ 0x22C → i.reg a = x.chip.reg a) →
      ((i.writeBack c p).livePos c : Int) =
        if x.chip.inhibited then (x.chip.livePos c : Int) else p % 0x1000000 := by
    intro i p hi ha
    unfold ChipInstance.writeBack
    rw [hi]
    split
    · have e : blockBase c + 0x0C < 0x200 := by simp only [blockBase]; omega
      unfold ChipInstance.livePos ChipInstance.le24
      rw [ha _ (by omega), ha _ (by omega), ha _ (by omega)]
    · unfold ChipInstance.livePos
      rw [ChipInstance.le24_putle24 _ _ _ (by omega)]
      omega
  have hinh : ∀ e, (x.chip.endSample c e).inhibited = x.chip.inhibited := by
    intro e
    simp only [ChipInstance.inhibited, ChipInstance.reg_endSample _ _ _ (show (0x22F : Nat) ≠ 0x22C by decide)]
  unfold channelTick
  dsimp only
  split
  · refine hreg _ _ ?_ ?_
    · simp only [Mixing.mix, ChipInstance.sendReverb]
      exact hinh _
    · intro a ha
      simp only [Mixing.mix, ChipInstance.sendReverb, ChipInstance.reg_setRamSample]
      exact ChipInstance.reg_endSample _ _ _ ha
  · exact hreg _ _ (hinh _) fun a ha => ChipInstance.reg_endSample _ _ _ ha

/-- The RAM after a channel's tick: only the slot it sends to may change (R187). -/
theorem channelTick_ram (x : Mixing) (c : Fin 8) {k : Nat} (h : k ≠ x.chip.reverbSlot c) :
    (channelTick x c).chip.ramSample k = x.chip.ramSample k := by
  have hslot : ∀ e, (x.chip.endSample c e).reverbSlot c = x.chip.reverbSlot c := by
    intro e
    have hb : blockBase c + 7 < 0x200 := by simp only [blockBase]; omega
    unfold ChipInstance.reverbSlot ChipInstance.rdelay ChipInstance.le16
    rw [ChipInstance.reg_endSample _ _ _ (by omega), ChipInstance.reg_endSample _ _ _ (by omega),
      ChipInstance.endSample_eq]
  have hram : ∀ e, (x.chip.endSample c e).ramSample k = x.chip.ramSample k := by
    intro e; rw [ChipInstance.endSample_eq]; rfl
  have hwb : ∀ (i : ChipInstance) p v, ((i.writeBack c p).setChannel c v).ramSample k = i.ramSample k := by
    intro i p v; rw [ChipInstance.writeBack_eq]; rfl
  unfold channelTick
  dsimp only
  rw [hwb]
  split
  · simp only [Mixing.mix, ChipInstance.sendReverb, wrap16]
    rw [ChipInstance.ramSample_setRamSample _ _ _ _ (sext16_bounds _).1 (sext16_bounds _).2, hslot, if_neg h, hram]
  · exact hram _

/-- Ending a sample moves no ring slot. -/
theorem ChipInstance.reverbSlot_endSample (i : ChipInstance) (c : Fin 8) (e : Bool) :
    (i.endSample c e).reverbSlot c = i.reverbSlot c := by
  have hb : blockBase c + 7 < 0x200 := by simp only [blockBase]; omega
  unfold ChipInstance.reverbSlot ChipInstance.rdelay ChipInstance.le16
  rw [ChipInstance.reg_endSample _ _ _ (by omega), ChipInstance.reg_endSample _ _ _ (by omega),
      ChipInstance.endSample_eq]

/-- Ending a sample changes no gain. -/
theorem ChipInstance.gains_endSample (i : ChipInstance) (c : Fin 8) (e : Bool) :
    (i.endSample c e).reverbGain c = i.reverbGain c ∧ (i.endSample c e).leftGain c = i.leftGain c ∧
        (i.endSample c e).rightGain c = i.rightGain c := by
  have hb : blockBase c + 7 < 0x200 := by simp only [blockBase]; omega
  have hg : (i.endSample c e).gain = i.gain := by rw [ChipInstance.endSample_eq]
  unfold ChipInstance.reverbGain ChipInstance.leftGain ChipInstance.rightGain ChipInstance.bval ChipInstance.vol
      ChipInstance.panb
  simp only [ChipInstance.reg_endSample _ _ _ (show blockBase c + 3 ≠ 0x22C by omega),
      ChipInstance.reg_endSample _ _ _ (show blockBase c + 4 ≠ 0x22C by omega),
      ChipInstance.reg_endSample _ _ _ (show blockBase c + 5 ≠ 0x22C by omega), hg, and_self]

/-- The RAM after a channel's tick: the slot it sends to takes the send, wrapped (R187). -/
theorem channelTick_ramSample (x : Mixing) (c : Fin 8) (k : Nat) :
    (channelTick x c).chip.ramSample k = if k = x.chip.reverbSlot c ∧ (x.chip.decodeSample c).mixed = true then
   sext16 (x.chip.ramSample k + (ExactReal.zero.add ((x.chip.reverbGain c).scale
       (x.chip.decodeSample c).chan.val)).trunc) else x.chip.ramSample k := by
  have hwb : ∀ (i : ChipInstance) p v, ((i.writeBack c p).setChannel c v).ramSample k = i.ramSample k := by
    intro i p v; rw [ChipInstance.writeBack_eq]; rfl
  have hes : ∀ e k, (x.chip.endSample c e).ramSample k = x.chip.ramSample k := by
    intro e k; rw [ChipInstance.endSample_eq]; rfl
  unfold channelTick
  dsimp only
  rw [hwb]
  split
  · rename_i hm
    simp only [Mixing.mix, ChipInstance.sendReverb, wrap16]
    rw [ChipInstance.ramSample_setRamSample _ _ _ _ (sext16_bounds _).1 (sext16_bounds _).2,
        ChipInstance.reverbSlot_endSample, (ChipInstance.gains_endSample _ _ _).1, hes, hes]
    split_ifs with h1 h2 h2 <;> simp_all
  · rename_i hm
    rw [hes, if_neg (fun h => hm h.2)]

/-- What a channel's tick adds to the accumulators (R187). -/
theorem channelTick_mix (x : Mixing) (c : Fin 8) : (channelTick x c).left = (if
    (x.chip.decodeSample c).mixed then x.left.add ((x.chip.leftGain c).scale
    (x.chip.decodeSample c).chan.val) else x.left) ∧ (channelTick x c).right = (if
    (x.chip.decodeSample c).mixed then x.right.add ((x.chip.rightGain c).scale
    (x.chip.decodeSample c).chan.val) else x.right) := by
  unfold channelTick
  dsimp only
  split
  · simp [Mixing.mix, ChipInstance.gains_endSample]
  · exact ⟨rfl, rfl⟩

/-- A channel's tick starts no channel. -/
theorem active_of_channelTick (x : Mixing) (c d : Fin 8) (h :
    (channelTick x c).chip.active d = true) : x.chip.active d = true := by
  by_cases hd : d = c
  · subst hd
    unfold ChipInstance.active at *
    rw [channelTick_status] at h
    split at h
    · rw [BitVec.getLsbD_and] at h; simp at h; exact h.1
    · exact h
  · rwa [channelTick_active_ne _ hd] at h

/-- What the decoding of a channel depends on: the ROM, its own block and mode bytes, and its own decode state. -/
theorem ChipInstance.decodeSample_congr {i j : ChipInstance} (c : Fin 8) (h1 : i.rom = j.rom)
    (h2 : i.romSize = j.romSize) (h3 : i.romMask = j.romMask)
    (hr : ∀ l, l < 0x20 → i.reg (0x20 * c.val + l) = j.reg (0x20 * c.val + l)) (hm : ∀ l, l < 2 →
        i.reg (0x200 + 2 * c.val + l) = j.reg (0x200 + 2 * c.val + l))
    (hc : i.channel c = j.channel c) : i.decodeSample c = j.decodeSample c := by
  have rom : i.romRead = j.romRead := funext fun a => ChipInstance.romRead_congr h1 h2 h3 a
  have m0 : i.mode c = j.mode c := hm 0 (by decide)
  have m1 : i.loopDisabled c = j.loopDisabled c := by unfold ChipInstance.loopDisabled; rw [show modeBase c + 1 =
      0x200 + 2 * c.val + 1 from rfl, hm 1 (by decide)]
  have le : ∀ l, l + 2 < 0x20 → i.le24 (blockBase c + l) = j.le24 (blockBase c + l) := fun l hl => by
    unfold ChipInstance.le24 blockBase
    rw [hr l (by omega), show 0x20 * c.val + l + 1 = 0x20 * c.val + (l+1) from rfl,
        show 0x20 * c.val + l + 2 = 0x20 * c.val + (l+2) from rfl, hr (l+1) (by omega), hr (l+2) (by omega)]
  have e1 : i.delta c = j.delta c := le 0 (by decide)
  have e2 : i.loopStart c = j.loopStart c := le 8 (by decide)
  have e3 : i.livePos c = j.livePos c := le 0x0C (by decide)
  have e4 : i.resume c = j.resume c := by unfold ChipInstance.resume; rw [hc, e3]
  have f8 : i.fetch8 = j.fetch8 := by funext p; unfold ChipInstance.fetch8; rw [rom]
  have f16 : i.fetch16 = j.fetch16 := by funext p; unfold ChipInstance.fetch16; rw [rom]
  have fn : i.nibbleByte = j.nibbleByte := by funext p; unfold ChipInstance.nibbleByte; rw [rom]
  unfold ChipInstance.decodeSample decodePcm8 decodePcm16 decodeDpcm4 codecPcm8 codecPcm16 codecDpcm4
  rw [m0, m1, e1, e2, e4, f8, f16, fn]

/-- What the gains of a channel depend on. -/
theorem ChipInstance.gains_congr {i j : ChipInstance} (c : Fin 8) (hg : i.gain = j.gain)  (hr : ∀ l, l < 0x0C →
    i.reg (0x20 * c.val + l) = j.reg (0x20 * c.val + l)) :
    i.reverbGain c = j.reverbGain c ∧ i.leftGain c = j.leftGain c ∧ i.rightGain c = j.rightGain c := by
  unfold ChipInstance.reverbGain ChipInstance.leftGain ChipInstance.rightGain ChipInstance.bval ChipInstance.vol
      ChipInstance.panb blockBase
  simp only [hr 3 (by decide), hr 4 (by decide), hr 5 (by decide), hg, and_self]

/-! ### All channels -/

/-- What a channel's tick keeps, the loop over the channels keeps. -/
theorem runChannels_keeps {P : Mixing → Prop} (h : ∀ x c, P x → P (channelTick x c)) {x : Mixing} (hx : P x) :
    P (runChannels x) := by
  unfold runChannels
  generalize channels = cs
  induction cs generalizing x with
  | nil => exact hx
  | cons c cs ih =>
    rw [List.foldl_cons]
    split
    · exact ih (h x c hx)
    · exact ih hx

/-- The same, where the step may use that its channel is active and was so before. -/
theorem runChannels_keeps_active {P : Mixing → Prop} {i : ChipInstance}
    (hact : ∀ x c, P x → x.chip.active c = true → i.active c = true)
    (h : ∀ x c, P x → i.active c = true → P (channelTick x c)) {x : Mixing} (hx : P x) :
    P (runChannels x) := by
  unfold runChannels
  generalize channels = cs
  induction cs generalizing x with
  | nil => exact hx
  | cons c cs ih =>
    rw [List.foldl_cons]
    split
    · rename_i hc
      exact ih (h x c hx (hact x c hx hc))
    · exact ih hx

/-- The loop over the channels changes registers, channel states and RAM, and nothing else. -/
theorem runChannels_chip (x : Mixing) :
    (runChannels x).chip = { x.chip with
      regs := (runChannels x).chip.regs, chan := (runChannels x).chip.chan, ram := (runChannels x).chip.ram } := by
  refine runChannels_keeps (P := fun y => y.chip = { x.chip with
      regs := y.chip.regs, chan := y.chip.chan, ram := y.chip.ram }) (fun y c hy => ?_) rfl
  have h1 := channelTick_chip y c
  generalize (channelTick y c).chip = z at h1 ⊢
  rw [h1, hy]

theorem runChannels_of_inactive {x : Mixing} (h : ∀ c, x.chip.active c = false) : runChannels x = x := by
  unfold runChannels
  generalize channels = cs
  induction cs with
  | nil => rfl
  | cons c cs ih => rw [List.foldl_cons, h c]; simpa using ih

end Sys2Proof.Machine
end

