-- ==== Sys2Proof/Laws/Codec.lean ====
section
/-! SUPPORT. What the step loop of a decode form can do (R176, R185): play through without a sentinel, end the
sample at the first one, or jump to the loop start. -/

namespace Sys2Proof.Machine

/-- The loop runs exactly `m` steps if it may at each of the first `m` and may not after them. -/
theorem Codec.steps_eq_iterate (k : Codec) (rev loopDis : Bool) (m fuel : Nat) (t : Stepping) (hm : m ≤ fuel)
    (hgo : ∀ j, j < m → (overflows ((k.step rev loopDis)^[j] t).f && !((k.step rev loopDis)^[j] t).ended) = true)
    (hstop : (overflows ((k.step rev loopDis)^[m] t).f && !((k.step rev loopDis)^[m] t).ended) = false) :
    k.steps rev loopDis fuel t = (k.step rev loopDis)^[m] t := by
  induction m generalizing fuel t with
  | zero =>
    cases fuel with
    | zero => rfl
    | succ fuel => rw [Codec.steps]; simp only [Function.iterate_zero, id_eq] at hstop ⊢; rw [hstop]; rfl
  | succ m ih =>
    obtain ⟨fuel, rfl⟩ : ∃ f, fuel = f + 1 := ⟨fuel - 1, by omega⟩
    rw [Codec.steps]
    have h0 := hgo 0 (by omega)
    simp only [Function.iterate_zero, id_eq] at h0
    rw [h0, if_pos rfl, Function.iterate_succ_apply]
    exact ih fuel _ (by omega) (fun j hj => by simpa [Function.iterate_succ_apply] using hgo (j + 1) (by omega))
        (by simpa [Function.iterate_succ_apply] using hstop)

/-- What one step does. -/
theorem Codec.step_stepsTo (k : Codec) (rev loopDis : Bool) (t : Stepping) :
    k.StepsTo rev loopDis t (k.step rev loopDis t) := by
  have land : ∀ p, k.land loopDis p = ((if k.fetch p = k.sentinel ∧ loopDis = false then k.loopTo else p),
      k.fetch (if k.fetch p = k.sentinel ∧ loopDis = false then k.loopTo else p)) := by
    intro p
    unfold Codec.land
    split_ifs <;> rfl
  unfold Codec.StepsTo Codec.step
  dsimp only
  rw [land]
  generalize (if k.fetch _ = k.sentinel ∧ loopDis = false then k.loopTo else _) = q
  by_cases h : k.fetch q = k.sentinel <;> simp [h]

/-- The bounded loop is the step, iterated while the loop's condition holds. -/
theorem Codec.steps_iterate (k : Codec) (rev loopDis : Bool) (n : Nat) (t : Stepping) :
    ∃ m, k.steps rev loopDis n t = (k.step rev loopDis)^[m] t ∧
      ∀ j, j < m → (overflows ((k.step rev loopDis)^[j] t).f && !((k.step rev loopDis)^[j] t).ended) = true := by
  induction n generalizing t with
  | zero => exact ⟨0, rfl, fun j hj => absurd hj (Nat.not_lt_zero j)⟩
  | succ n ih =>
    rw [Codec.steps]
    split
    · rename_i hc
      obtain ⟨m, h1, h2⟩ := ih (k.step rev loopDis t)
      refine ⟨m + 1, h1, fun j hj => ?_⟩
      cases j with
      | zero => exact hc
      | succ j => exact h2 j (by omega)
    · exact ⟨0, rfl, fun j hj => absurd hj (Nat.not_lt_zero j)⟩

/-- The fraction after `m` steps. -/
theorem Codec.iterate_f (k : Codec) (rev loopDis : Bool) (t : Stepping) (m : Nat) :
    ((k.step rev loopDis)^[m] t).f = if rev then t.f + 0x10000 * m else t.f - 0x10000 * m := by
  induction m with
  | zero => cases rev <;> simp
  | succ m ih =>
    rw [Function.iterate_succ_apply', Codec.step_f, ih]
    cases rev <;> simp only [Bool.false_eq_true, if_false, if_true] <;> push_cast <;> omega

/-- The whole loop, from a fraction in range and a 24-bit pitch delta (R171, R176, R190 (b)). -/
theorem Codec.run_loopsTo (k : Codec) (rev loopDis : Bool) (delta : Nat) (pos f val pval : Int) (h0 : 0 ≤ f)
    (h1 : f ≤ 0xFFFF) (hd : delta ≤ 0xFFFFFF) :
    k.LoopsTo rev loopDis ⟨pos, f + (if rev then -(delta : Int) else delta), val, pval, false⟩
      (k.run rev loopDis delta pos f val pval) := by
  have e : (if rev = true then f - delta else f + delta) = f + (if rev then -(delta : Int) else delta) := by
    cases rev <;> simp; ring
  have hl := k.steps_leaves rev loopDis ((if rev = true then f - delta else f + delta).natAbs / 0x10000 + 1)
    ⟨pos, if rev = true then f - delta else f + delta, val, pval, false⟩ (by
      cases rev <;> simp only [Bool.false_eq_true, if_false, if_true] <;> omega)
  obtain ⟨m, hm, hgo⟩ := k.steps_iterate rev loopDis
    ((if rev = true then f - delta else f + delta).natAbs / 0x10000 + 1)
    ⟨pos, if rev = true then f - delta else f + delta, val, pval, false⟩
  unfold Codec.run
  dsimp only
  rw [hm] at hl ⊢
  rw [e] at hl hgo ⊢
  have hf := k.iterate_f rev loopDis ⟨pos, f + (if rev then -(delta : Int) else delta), val, pval, false⟩
  refine ⟨m, fun j => (k.step rev loopDis)^[j] _, ?_, rfl, rfl, fun j hj => ?_, ?_⟩
  · have side : ∀ j, j ≤ m → if rev then f - delta + 0x10000 * (j : Int) ≤ 0xFFFF
        else 0 ≤ f + delta - 0x10000 * (j : Int) := by
      intro j
      induction j with
      | zero => cases rev <;> simp <;> omega
      | succ j ih =>
        intro hj
        have h2 := ih (by omega)
        have h3 := hgo j (by omega)
        rw [Bool.and_eq_true, overflows_iff, hf] at h3
        cases rev <;> simp only [Bool.false_eq_true, if_false, if_true] at * <;> omega
    rcases m with _ | m
    · omega
    · have h2 := side m (by omega)
      have h3 := hgo m (by omega)
      rw [Bool.and_eq_true, overflows_iff, hf] at h3
      cases rev <;> simp only [Bool.false_eq_true, if_false, if_true] at * <;> omega
  · have h2 := hgo j hj
    rw [Bool.and_eq_true, overflows_iff] at h2
    dsimp only
    rw [Function.iterate_succ_apply']
    exact ⟨h2.1, by simpa using h2.2, k.step_stepsTo rev loopDis _⟩
  · rcases hl with hl | hl
    · left
      rw [← Bool.not_eq_true, overflows_iff] at hl
      omega
    · exact .inr hl

/-- How far one step moves. -/
def Codec.move (k : Codec) (rev : Bool) : Int := if rev then -k.stride else k.stride

/-- The samples of a stretch without sentinel. -/
def Codec.played (k : Codec) (rev : Bool) (t : Stepping) (m : Nat) : Int :=
  (List.range m).foldl (fun v (l : Nat) => k.value (k.fetch (t.pos + k.move rev * ((l : Int) + 1)))
      (t.pos + k.move rev * ((l : Int) + 1)) v) t.val

/-- One more step. -/
theorem Codec.played_succ (k : Codec) (rev : Bool) (t : Stepping) (m : Nat) : k.played rev t (m+1) = k.value
    (k.fetch (t.pos + k.move rev * (m + 1))) (t.pos + k.move rev * (m + 1)) (k.played rev t m) := by
  unfold Codec.played; rw [List.range_succ, List.foldl_append]; rfl

/-- The locals after `m` steps with no sentinel on the way. -/
theorem Codec.iterate_through (k : Codec) (rev loopDis : Bool) (t : Stepping) (m : Nat) (he : t.ended = false)
    (hs : ∀ j : Nat, 1 ≤ j → j ≤ m → k.fetch (t.pos + k.move rev * j) ≠ k.sentinel) :
    (k.step rev loopDis)^[m] t = ⟨t.pos + k.move rev * m, t.f + (if rev then 0x10000 else -0x10000) * m,
        k.played rev t m,
      if m = 0 then t.pval else k.played rev t (m - 1), false⟩ := by
  induction m with
  | zero => simp [Codec.played, ← he]
  | succ m ih =>
    rw [Function.iterate_succ_apply', ih fun j h1 h2 => hs j h1 (by omega)]
    have hm := hs (m + 1) (by omega) (le_refl _)
    have hp : (if rev = true then t.pos + k.move rev * m - k.stride else t.pos + k.move rev * m + k.stride) =
        t.pos + k.move rev * ((m + 1 : Nat) : Int) := by
      unfold Codec.move; push_cast; cases rev <;> simp <;> ring
    unfold Codec.step Codec.land
    simp only [hp, hm, false_and, if_false, Codec.played_succ]
    push_cast
    have hf : (if rev = true then t.f + (if rev = true then 0x10000 else -0x10000) * (m:Int) + 65536 else t.f +
        (if rev = true then 0x10000 else -0x10000) * (m:Int) - 65536) = t.f +
        (if rev then 0x10000 else -0x10000) * ((m : Int) + 1) := by
      cases rev <;> simp only [Bool.false_eq_true, if_false, if_true] <;> ring
    rw [hf]

/-- With no sentinel on the way the loop runs until the fraction is in range: as many steps as the fraction
holds. -/
theorem Codec.run_through (k : Codec) (rev loopDis : Bool) (delta : Nat) (pos f val pval : Int) (h0 : 0 ≤ f)
    (h1 : f ≤ 0xFFFF) :
   let f0 := f + (if rev then -1 else 1) * delta
   let n : Nat := (if rev then (0xFFFF - f0) / 0x10000 else f0 / 0x10000).toNat
   let t : Stepping := ⟨pos, f0, val, pval, false⟩
   (∀ j : Nat, 1 ≤ j → j ≤ n → k.fetch (pos + k.move rev * j) ≠ k.sentinel) →
   k.run rev loopDis delta pos f val pval = ⟨pos + k.move rev * n, f0 + (if rev then 0x10000 else -0x10000) * n,
       k.played rev t n,
      if n = 0 then pval else k.played rev t (n - 1), false⟩ := by
  intro f0 n t hs
  unfold Codec.run
  have e : (if rev = true then f - delta else f + delta) = f0 := by cases rev <;> simp [f0]; ring
  simp only [e]
  have key := fun m (hm : m ≤ n) => k.iterate_through rev loopDis t m rfl fun j a b => hs j a (by omega)
  have hov : ∀ m : Nat, m ≤ n → overflows (f0 + (if rev then 0x10000 else -0x10000) * (m : Int)) = decide
      (m < n) := by
    intro m hm
    rw [Bool.eq_iff_iff, overflows_iff, decide_eq_true_eq]
    cases rev <;> simp only [n, f0, Bool.false_eq_true, if_false, if_true] at * <;> omega
  rw [k.steps_eq_iterate rev loopDis n _ t ?_ ?_ ?_, key n (le_refl _)]
  · cases rev <;> simp only [n, f0, Bool.false_eq_true, if_false, if_true] <;> omega
  · intro j hj
    rw [key j (by omega)]
    simp only [t, Bool.not_false, Bool.and_true]
    rw [hov j (by omega)]; simpa using hj
  · rw [key n (le_refl _)]
    simp only [t, Bool.not_false, Bool.and_true]
    rw [hov n (le_refl _)]; simp

/-- At the first sentinel, with looping disabled or a sentinel at the loop start, the sample ends. -/
theorem Codec.run_ends (k : Codec) (rev loopDis : Bool) (delta : Nat) (pos f val pval : Int) (h0 : 0 ≤ f)
    (h1 : f ≤ 0xFFFF) (m : Nat) :
   let f0 := f + (if rev then -1 else 1) * delta
   let n : Nat := (if rev then (0xFFFF - f0) / 0x10000 else f0 / 0x10000).toNat
   let t : Stepping := ⟨pos, f0, val, pval, false⟩
   1 ≤ m → m ≤ n →
   (∀ j : Nat, 1 ≤ j → j < m → k.fetch (pos + k.move rev * j) ≠ k.sentinel) →
   k.fetch (pos + k.move rev * m) = k.sentinel → (loopDis = true ∨ k.fetch k.loopTo = k.sentinel) →
   k.run rev loopDis delta pos f val pval = ⟨if loopDis then pos + k.move rev * m else k.loopTo,
       f0 + (if rev then 0x10000 else -0x10000) * m, 0,
      k.played rev t (m - 1), true⟩ := by
  intro f0 n t hm1 hmn hs hend hl
  unfold Codec.run
  have e : (if rev = true then f - delta else f + delta) = f0 := by cases rev <;> simp [f0]; ring
  simp only [e]
  have key := fun m' (hm : m' < m) => k.iterate_through rev loopDis t m' rfl fun j a b => hs j a (by omega)
  have hov : ∀ m' : Nat, m' < n → overflows (f0 + (if rev then 0x10000 else -0x10000) * (m' : Int)) = true := by
    intro m' hm
    rw [overflows_iff]
    cases rev <;> simp only [n, f0, Bool.false_eq_true, if_false, if_true] at * <;> omega
  obtain ⟨q, rfl⟩ : ∃ q, m = q + 1 := ⟨m - 1, by omega⟩
  have last : (k.step rev loopDis)^[q+1] t = ⟨if loopDis then pos + k.move rev *
      ((q + 1 : Nat) : Int) else k.loopTo, f0 + (if rev then 0x10000 else -0x10000) * ((q + 1 : Nat) : Int), 0,
      k.played rev t q, true⟩ := by
    rw [Function.iterate_succ_apply', key q (by omega)]
    have hp : (if rev = true then t.pos + k.move rev * q - k.stride else t.pos + k.move rev * q + k.stride) =
        t.pos + k.move rev * ((q + 1 : Nat) : Int) := by
      unfold Codec.move; push_cast; cases rev <;> simp <;> ring
    unfold Codec.step Codec.land
    simp only [hp]
    have ht : t.pos = pos := rfl
    rw [ht, hend]
    have hf : (if rev = true then f0 + (if rev = true then 0x10000 else -0x10000) * (q:Int) + 65536 else f0 +
        (if rev = true then 0x10000 else -0x10000) * (q:Int) - 65536) = f0 +
        (if rev then 0x10000 else -0x10000) * ((q + 1 : Nat) : Int) := by
      push_cast; cases rev <;> simp <;> ring
    cases loopDis
    · have hl' : k.fetch k.loopTo = k.sentinel := by simpa using hl
      simp only [and_self, if_true, hl', Bool.false_eq_true, if_false]
      exact congrArg (fun z => Stepping.mk _ z _ _ _) hf
    · simp only [Bool.true_eq_false, and_false, if_true, if_false]
      exact congrArg (fun z => Stepping.mk _ z _ _ _) hf
  rw [k.steps_eq_iterate rev loopDis (q+1) _ t ?_ ?_ ?_, last]
  · rfl
  · have : q + 1 ≤ n := hmn
    cases rev <;> simp only [n, f0, Bool.false_eq_true, if_false, if_true] at * <;> omega
  · intro j hj
    rw [key j (by omega)]
    simp only [t, Bool.not_false, Bool.and_true]
    rw [hov j (by omega)]
  · rw [last]; simp

/-- A single step onto a sentinel with looping on plays the unit at the loop start. -/
theorem Codec.run_loops (k : Codec) (rev : Bool) (delta : Nat) (pos f val pval : Int) (_h0 : 0 ≤ f)
    (_h1 : f ≤ 0xFFFF)  :
   let f0 := f + (if rev then -1 else 1) * delta
   (if rev then (0xFFFF - f0) / 0x10000 else f0 / 0x10000) = 1 →
   k.fetch (pos + k.move rev) = k.sentinel → k.fetch k.loopTo ≠ k.sentinel →
   k.run rev false delta pos f val pval = ⟨k.loopTo, f0 + (if rev then 0x10000 else -0x10000),
       k.value (k.fetch k.loopTo) k.loopTo val, val, false⟩ := by
  intro f0 hn hend hl
  unfold Codec.run
  have e : (if rev = true then f - delta else f + delta) = f0 := by cases rev <;> simp [f0]; ring
  simp only [e]
  have last : (k.step rev false)^[1] ⟨pos, f0, val, pval, false⟩ = ⟨k.loopTo,
      f0 + (if rev then 0x10000 else -0x10000), k.value (k.fetch k.loopTo) k.loopTo val, val, false⟩ := by
    rw [Function.iterate_one]
    have hp : (if rev = true then pos - k.stride else pos + k.stride) = pos + k.move rev := by
      unfold Codec.move; cases rev <;> simp; ring
    unfold Codec.step Codec.land
    simp only [hp, hend, and_self, if_true, hl, if_false]
    congr 1
    cases rev <;> simp; ring
  rw [k.steps_eq_iterate rev false 1 _ _ ?_ ?_ ?_, last]
  · cases rev <;> simp only [f0, Bool.false_eq_true, if_false, if_true] at * <;> omega
  · intro j hj
    obtain rfl : j = 0 := by omega
    simp only [Function.iterate_zero, id_eq, Bool.not_false, Bool.and_true]
    rw [overflows_iff]
    cases rev <;> simp only [f0, Bool.false_eq_true, if_false, if_true] at * <;> omega
  · rw [last]
    simp only [Bool.not_false, Bool.and_true]
    rw [← Bool.not_eq_true, overflows_iff]
    cases rev <;> simp only [f0, Bool.false_eq_true, if_false, if_true] at * <;> omega
end Sys2Proof.Machine
end

