-- ==== Sys2Proof/Laws/Exec.lean ====
section
/-! SUPPORT. What running an operation can do: its shape, the inversion of a next state, and how a completed
operation is stated in the terms of Safety. -/

namespace Sys2Proof.Machine

/-- Every operation that names an instance, but Init, is its precondition check followed by its own part. -/
theorem exec_withChip (i : Instr) (s : State) {id : Nat} (ht : i.target = some id)
    (hn : ∀ clockHz rom romLen k d, i ≠ .init id clockHz rom romLen k d) :
    ∃ k, exec i s = withChip id s k := by
  cases i <;> simp only [Instr.target, Option.some.injEq, reduceCtorEq] at ht <;> subst ht
  case init => exact absurd rfl (hn _ _ _ _ _)
  all_goals
    simp only [exec, execWrPos0, execWrPos1, execWrPos2, execWrApan, execWrKon, execWrKoff, execWrKstat,
      execWrSdata, execWrZone, execWrCtrl, execWrMode, execWrChan, execWrPlain, execRdSdata, execRdPlain,
      execFmtPcm8, execFmtPcm16, execFmtDpcm4, execFmtNone, execReset, execSetgain, execSetroute, execSetpancb,
      execUpdate, execSnapshot, execRestore, execTick, execChtick, execKeyon, execKeyoff, storeReg, runDecode,
      updateChip, onChip]
    exact ⟨_, rfl⟩

theorem withIndex_badChip {id : Nat} (h : Config.maxChips ≤ id) (k : Result) :
    withIndex id k = .fault (.badChip id) := by
  simp [withIndex, Nat.not_lt.2 h]

theorem withIndex_next {t : State} {id : Nat} {k : Result} (h : withIndex id k = .next t) :
    id < Config.maxChips ∧ k = .next t := by
  unfold withIndex at h
  split_ifs at h with h1
  exact ⟨h1, h⟩

theorem finish_next {id : Nat} {s t : State} {c : ChipInstance} {r : Response} (h : finish id s c r = .next t) :
    t = (s.setChip id c).respond r := (Host.Outcome.next.inj h).symm

/-- A completed operation that names an instance replaced that instance and answered; only `WR.APAN` also
emitted. -/
theorem exec_next {i : Instr} {s t : State} {id : Nat} (ht : i.target = some id) (h : exec i s = .next t) :
    id < Config.maxChips ∧ ∃ c r log, t = State.mk (s.setChip id c).chips s.pending r log := by
  cases i <;> simp only [Instr.target, Option.some.injEq, reduceCtorEq] at ht <;> subst ht <;>
    simp only [exec, execWrPos0, execWrPos1, execWrPos2, execWrApan, execWrKon, execWrKoff, execWrKstat,
    execWrSdata, execWrZone, execWrCtrl, execWrMode, execWrChan, execWrPlain, execRdSdata, execRdPlain,
    execFmtPcm8, execFmtPcm16, execFmtDpcm4, execFmtNone, execInit, execReset, execSetgain, execSetroute,
    execSetpancb, execUpdate, execSnapshot, execRestore, execTick, execChtick, execKeyon, execKeyoff, storeReg,
    runDecode, updateChip] at h
  case init =>
    obtain ⟨h1, h⟩ := withIndex_next h
    split_ifs at h
    exact ⟨h1, _, _, _, finish_next h⟩
  case update | setgain | setroute =>
    obtain ⟨h1, h⟩ := withChip_next h
    split_ifs at h
    exact ⟨h1.1, _, _, _, finish_next h⟩
  case wrPlain | rdPlain =>
    obtain ⟨h1, h⟩ := withChip_next h
    split_ifs at h
    exact ⟨h1.1, _, _, _, finish_next h⟩
  case restore =>
    obtain ⟨h1, h⟩ := withChip_next h
    split at h
    · cases h
    · exact ⟨h1.1, _, _, _, finish_next h⟩
  case wrApan =>
    obtain ⟨h1, h⟩ := withChip_next h
    rw [finish_next h]
    split <;> exact ⟨h1.1, _, _, _, rfl⟩
  all_goals
    obtain ⟨h1, h⟩ := onChip_next h
    exact ⟨h1.1, _, _, _, h⟩

/-! ### Stating completion -/

/-- An operation that cannot fault past the precondition, on a ready instance. -/
theorem runsOn_onChip {s : State} {id : Nat} (h : s.Ready id) (k : ChipInstance → ChipInstance × Response)
    {r : Response} {p : ChipInstance → Prop} (hr : (k (s.chip id)).2 = r) (hp : p (k (s.chip id)).1) :
    RunsOn (onChip id s k) s id r p := by
  refine ⟨_, onChip_ready h k, ⟨fun j hj => ?_, rfl, rfl⟩, hr, ?_⟩
  · simp [hj]
  · simpa [h.1] using hp

/-- What a decode form run on its own does. -/
theorem runsOn_runDecode {s : State} {id : Nat} (h : s.Ready id) (c : Fin 8) (form : ChipInstance → Decoded) :
    RunsOn (runDecode id c form s) s id (.decoded (form (s.chip id)).chan (form (s.chip id)).mixed)
      fun j => (s.chip id).EndsSample j c (form (s.chip id)).ended :=
  runsOn_onChip h _ rfl ((s.chip id).endSample_spec c _)

theorem runsOn_updateChip {s : State} {id : Nat} (h : s.Ready id) (k : ChipInstance → ChipInstance)
    {p : ChipInstance → Prop} (hp : p (k (s.chip id))) : RunsOn (updateChip id s k) s id .done p :=
  runsOn_onChip h _ rfl hp

/-- The end of an operation on a valid index. -/
theorem runsOn_finish {s : State} {id : Nat} (h : id < Config.maxChips) {c : ChipInstance} {r : Response}
    {p : ChipInstance → Prop} (hp : p c) : RunsOn (finish id s c r) s id r p := by
  refine ⟨_, rfl, ⟨fun j hj => ?_, rfl, rfl⟩, rfl, ?_⟩
  · simp [hj]
  · simpa [h] using hp

theorem RunsOn.mono {res : Result} {s : State} {id : Nat} {r : Response} {p q : ChipInstance → Prop}
    (h : RunsOn res s id r p) (hpq : ∀ j, p j → q j) : RunsOn res s id r q := by
  obtain ⟨t, e, ho, hr, hp⟩ := h
  exact ⟨t, e, ho, hr, hpq _ hp⟩

/-- A register store changes that register and nothing else. -/
theorem regsOnly_setReg (i : ChipInstance) (o : Nat) (v : Byte) :
    i.RegsOnly (i.setReg o v) (· = o) ∧ (i.setReg o v).reg o = v :=
  ⟨⟨rfl, fun a ha => by simp [ha]⟩, by simp⟩

theorem storesByte_storeReg {s : State} {id : Nat} (h : s.Ready id) (o : Nat) (v : Byte) :
    StoresByte (storeReg id o v s) s id o v := runsOn_updateChip h _ (regsOnly_setReg _ _ _)

end Sys2Proof.Machine
end

