-- ==== Sys2Proof/Laws/Inv.lean ====
section
/-! SUPPORT. The invariants of R60 under the operations that several meanings share. -/

namespace Sys2Proof.Machine

theorem ChipInstance.blank_inv : ChipInstance.blank.Inv where
  mask := ⟨0, rfl, Nat.le_refl _⟩
  zoneCursor := by decide
  reverbCursor := by decide
  channels := by decide
  memories := by simp [ChipInstance.blank, Memory.wf, ChipInstance.MemoriesOk, Memory.below]
  gains := by decide +kernel

/-- Init leaves a legal instance. -/
theorem ChipInstance.afterInit_inv (clockHz : Nat) (rom : List Byte) (romLen : Nat) (k d : Bool) (h : 1 ≤ romLen) :
    (ChipInstance.afterInit clockHz rom romLen k d).Inv where
  mask := by
    obtain ⟨m, hm, h1, -⟩ := romMaskOf_spec romLen h
    refine ⟨m, hm, ?_⟩
    show romLen - 1 ≤ romMaskOf romLen
    omega
  zoneCursor := (by decide : (0 : Nat) < 0x20000)
  reverbCursor := (by decide : (0 : Nat) ≤ 8191)
  channels := ChipInstance.blank_inv.channels
  memories := by
    refine ⟨by simp [ChipInstance.afterInit, ChipInstance.blank, Memory.wf],
      by simp [ChipInstance.afterInit, ChipInstance.blank, Memory.wf], Memory.ofBytes_wf _, fun x hx => ?_⟩
    have := Memory.ofBytes_below (rom.take romLen) x hx
    simp at this
    exact this.1
  gains := ChipInstance.blank_inv.gains

theorem ChipInstance.setReg_inv {i : ChipInstance} (h : i.Inv) {o : Nat} (ho : o < 0x230) (hz : o ≠ 0x22E)
    (v : Byte) : (i.setReg o v).Inv where
  mask := h.mask
  zoneCursor := by
    have := h.zoneCursor
    unfold ChipInstance.zoneLimit at *
    rw [ChipInstance.reg_setReg, if_neg (Ne.symm hz)]; exact this
  reverbCursor := h.reverbCursor
  channels := h.channels
  memories := ⟨⟨Memory.write_wf h.memories.1.1 _ _, Memory.write_below h.memories.1.2 ho _⟩, h.memories.2⟩
  gains := h.gains

theorem ChipInstance.setRamByte_inv {i : ChipInstance} (h : i.Inv) {a : Nat} (ha : a < 2 * i.ramSamples)
    (v : Byte) : (i.setRamByte a v).Inv where
  mask := h.mask
  zoneCursor := h.zoneCursor
  reverbCursor := h.reverbCursor
  channels := h.channels
  memories := ⟨h.memories.1, ⟨Memory.write_wf h.memories.2.1.1 _ _, Memory.write_below h.memories.2.1.2 ha _⟩,
      h.memories.2.2⟩
  gains := h.gains

theorem ChipInstance.ramSamples_ge (i : ChipInstance) : 0x4000 ≤ i.ramSamples := Nat.le_add_right _ _

theorem ChipInstance.setRamSample_inv {i : ChipInstance} (h : i.Inv) {k : Nat} (hk : k < 0x4000) (v : Int) :
    (i.setRamSample k v).Inv := by
  have := i.ramSamples_ge
  exact ChipInstance.setRamByte_inv (ChipInstance.setRamByte_inv h (by omega) _)
      (by show _ < 2 * i.ramSamples; omega) _

theorem ChipInstance.setLatch_inv {i : ChipInstance} (h : i.Inv) (c k b) : (i.setLatch c k b).Inv := ⟨h.1, h.2,
    h.3, h.4, h.5, h.6⟩

theorem ChipInstance.setChannel_inv {i : ChipInstance} (h : i.Inv) (c) {v : ChanState} (hv : ChannelOk v) :
    (i.setChannel c v).Inv where
  mask := h.mask
  zoneCursor := h.zoneCursor
  reverbCursor := h.reverbCursor
  channels := fun d => by rw [ChipInstance.channel_setChannel]; split; exact hv; exact h.channels d
  memories := h.memories
  gains := h.gains

theorem ChipInstance.keyOn_inv {i : ChipInstance} (h : i.Inv) (c) : (i.keyOn c).Inv := by
  unfold ChipInstance.keyOn; split
  · exact h
  · exact ChipInstance.setReg_inv h (by decide) (by decide) _

theorem ChipInstance.keyOff_inv {i : ChipInstance} (h : i.Inv) (c) : (i.keyOff c).Inv := by
  unfold ChipInstance.keyOff; split
  · exact h
  · exact ChipInstance.setReg_inv h (by decide) (by decide) _

theorem ChipInstance.copyLatch_inv {i : ChipInstance} (h : i.Inv) (c : Fin 8) : (i.copyLatch c).Inv := by
  have hb : blockBase c + 0x10 ≤ 0x100 := by unfold blockBase; omega
  unfold ChipInstance.copyLatch
  exact ChipInstance.setReg_inv (ChipInstance.setReg_inv (ChipInstance.setReg_inv h (by omega) (by omega) _)
      (by omega) (by omega) _) (by omega) (by omega) _

theorem ChipInstance.putle24_inv {i : ChipInstance} (h : i.Inv) {o : Nat} (ho : o + 2 < 0x100) (v : Nat) :
    (i.putle24 o v).Inv := by
  unfold ChipInstance.putle24
  exact ChipInstance.setReg_inv (ChipInstance.setReg_inv (ChipInstance.setReg_inv h (by omega) (by omega) _)
      (by omega) (by omega) _) (by omega) (by omega) _

theorem ChipInstance.advanceZone_inv {i : ChipInstance} (h : i.Inv) : i.advanceZone.Inv :=
  ⟨h.1, i.advanceZone_lt h.2, h.3, h.4, h.5, h.6⟩

theorem ChipInstance.zoneWrite_inv {i : ChipInstance} (h : i.Inv) (b) : (i.zoneWrite b).Inv := by
  unfold ChipInstance.zoneWrite
  split
  · rename_i hz
    refine ChipInstance.advanceZone_inv (ChipInstance.setRamByte_inv h ?_ _)
    have := h.zoneCursor
    have := i.ramSamples_ge
    unfold ChipInstance.zone zoneDecode at hz
    unfold ChipInstance.zoneLimit zoneLimitOf at *
    split at hz
    · simp_all [Config.zoneRamLimit]; omega
    · cases hz
  · exact ChipInstance.advanceZone_inv h

theorem ChipInstance.endSample_inv {i : ChipInstance} (h : i.Inv) (c e) : (i.endSample c e).Inv := by
  unfold ChipInstance.endSample; split
  · exact ChipInstance.keyOff_inv h c
  · exact h

theorem ChipInstance.writeBack_inv {i : ChipInstance} (h : i.Inv) (c : Fin 8) (p) : (i.writeBack c p).Inv := by
  unfold ChipInstance.writeBack; split
  · exact h
  · exact ChipInstance.putle24_inv h (by unfold blockBase; omega) _

end Sys2Proof.Machine
end

