-- ==== Sys2Proof/Laws/Numbers.lean ====
section
/-! SUPPORT. What the exact arithmetic stands for: the real value of a monomial and of a sum, the normal form,
the comparison of R173's cap, the bounds and that they close in, and the integer part. -/

namespace Sys2Proof

/-- The real a sum of monomials stands for (R20). -/
noncomputable def sumValue (l : List Monomial) : ℝ := (l.map Monomial.value).sum

theorem Monomial.denotes_iff (x : Monomial) (r : ℝ) : x.Denotes r ↔ r = x.value := Iff.rfl

theorem ExactReal.denotes_iff (x : ExactReal) (r : ℝ) : x.Denotes r ↔ r = sumValue x.terms := Iff.rfl

theorem rootValue_nonneg (t d : Nat) : 0 ≤ rootValue t d := by unfold rootValue; positivity

theorem rootValue_one : rootValue 0 1 = 1 := by simp [rootValue]

/-- A monomial without factors. -/
theorem Monomial.value_nil (c : Rat) (t d : Nat) : Monomial.value ⟨c, t, d, []⟩ = c * rootValue t d := by
  simp [Monomial.value]

/-! ### The normal form -/

/-- The parts `squareSplit` answers multiply back. -/
theorem squareSplit_spec (m n : Nat) : (squareSplit m n).1 * (squareSplit m n).1 * (squareSplit m n).2 = n := by
  induction m with
  | zero => simp [squareSplit]
  | succ m ih =>
    rw [squareSplit]
    split
    · rename_i h; exact Nat.mul_div_cancel' (Nat.dvd_of_mod_eq_zero h)
    · exact ih

/-- What the normal form does to the power of ten: each whole 320 divides by 10, a remaining 160 is `√10 / 10`. -/
theorem pow_ten_half (t : Nat) : (10 : ℝ) ^ (-(t : ℝ) / 320) =
    (10 : ℝ) ^ (-((t % 160 : Nat) : ℝ) / 320) * (if (t/160) % 2 = 0 then 1 else √10) / ((10 ^
        ((t/160 + 1) / 2) : Nat) : ℝ) := by
  have h10 : (0:ℝ) < 10 := by norm_num
  have ht : (t : ℝ) = 160 * ((t / 160 : Nat) : ℝ) + ((t % 160 : Nat) : ℝ) := by
    exact_mod_cast (Nat.div_add_mod t 160).symm
  generalize t / 160 = h at *
  rw [show -(t:ℝ)/320 = -((t % 160 : Nat) : ℝ) / 320 + (-(h:ℝ)/2) by rw [ht]; ring, Real.rpow_add h10,
      mul_div_assoc]
  congr 1
  push_cast
  rw [eq_div_iff (by positivity), ← Real.rpow_natCast, ← Real.rpow_add h10]
  rcases Nat.mod_two_eq_zero_or_one h with e | e
  · rw [if_pos e]
    have : ((h + 1) / 2 : Nat) = h / 2 := by omega
    rw [this]
    have h2 : (h:ℝ) = 2 * ((h/2 : Nat) : ℝ) := by exact_mod_cast (by omega : h = 2 * (h/2))
    rw [show -(h:ℝ)/2 + ((h/2:Nat):ℝ) = 0 by linarith]; simp
  · rw [if_neg (by omega)]
    have h2 : (h:ℝ) + 1 = 2 * (((h+1)/2 : Nat) : ℝ) := by exact_mod_cast (by omega : h + 1 = 2 * ((h+1)/2))
    rw [show -(h:ℝ)/2 + (((h+1)/2:Nat):ℝ) = 1/2 by linarith, Real.sqrt_eq_rpow]

/-- The normal form is the same real. -/
theorem Monomial.value_norm (x : Monomial) : x.norm.value = x.value := by
  unfold Monomial.norm
  split
  · rename_i h
    unfold Monomial.value Monomial.zero rootValue
    rcases h with h | h <;> simp [h]
  · dsimp only
    have hs := squareSplit_spec (2 ^ ((if x.tens / 160 % 2 = 0 then x.rad else 10 * x.rad).log2 / 2 + 1))
        (if x.tens / 160 % 2 = 0 then x.rad else 10 * x.rad)
    generalize squareSplit _ _ = sp at *
    unfold Monomial.value rootValue
    dsimp only
    rw [pow_ten_half x.tens]
    have e : (if x.tens/160 % 2 = 0 then 1 else √10) * √(x.rad:ℝ) = sp.1 * √(sp.2:ℝ) := by
      have h1 : √(((if x.tens / 160 % 2 = 0 then x.rad else 10 * x.rad : Nat)) : ℝ) = sp.1 * √(sp.2:ℝ) := by
        rw [← hs]; push_cast
        rw [Real.sqrt_mul (by positivity), Real.sqrt_mul_self (by positivity)]
      rw [← h1]; split
      · simp
      · push_cast; rw [Real.sqrt_mul (by norm_num)]
    have hp : ((10 ^ ((x.tens/160 + 1) / 2) : Nat) : ℝ) ≠ 0 := by positivity
    push_cast at hp ⊢
    congr 1
    calc _ = (x.coeff:ℝ) / 10 ^ ((x.tens/160+1)/2) * (10:ℝ) ^ (-((x.tens%160 : Nat):ℝ)/320) *
        (sp.1 * √(sp.2:ℝ)) := by ring
      _ = _ := by rw [← e]; ring

/-! ### The comparison -/

/-- The 320th power of a root is rational. -/
theorem rootValue_pow (t d : Nat) : rootValue t d ^ 320 * 10 ^ t = (d:ℝ)^160 := by
  unfold rootValue
  rw [mul_pow, ← Real.rpow_mul_natCast (by norm_num),
      show -(t:ℝ)/320 * ((320:Nat):ℝ) = -(t:ℝ) by push_cast; ring, Real.rpow_neg (by norm_num), Real.rpow_natCast]
  have : √(d:ℝ)^320 = (d:ℝ)^160 := by
    rw [show 320 = 2*160 by norm_num, pow_mul, Real.sq_sqrt (by positivity)]
  rw [this]
  have : (10:ℝ)^t ≠ 0 := by positivity
  field_simp

/-- A rational that is not negative, as a quotient of naturals. -/
theorem ratCast_eq (q : Rat) (h : 0 ≤ q) : (q:ℝ) = (q.num.toNat : ℝ) / q.den := by
  have hn : 0 ≤ q.num := Rat.num_nonneg.2 h
  have : ((q.num.toNat : Int):ℝ) = q.num := by rw [Int.toNat_of_nonneg hn]
  rw [← Int.cast_natCast, this]
  exact_mod_cast (Rat.num_div_den q).symm

/-- The comparison at the 320th power is the comparison of the reals. -/
theorem Monomial.leRat_iff (x : Monomial) (c : Rat) (hc : 0 < c) (hx : x.factors = []) :
    x.leRat c = true ↔ x.value ≤ c := by
  obtain ⟨q, t, d, fs⟩ := x
  obtain rfl : fs = [] := hx
  rw [Monomial.value_nil]
  unfold Monomial.leRat
  rw [Bool.or_eq_true, decide_eq_true_iff, decide_eq_true_iff]
  have hcR : (0:ℝ) < c := by exact_mod_cast hc
  have hr := rootValue_nonneg t d
  dsimp only
  by_cases h : q ≤ 0
  · simp only [h, true_or, true_iff]
    have h' : (q:ℝ) ≤ 0 := by exact_mod_cast h
    have := mul_nonpos_of_nonpos_of_nonneg h' hr
    linarith
  · simp only [h, false_or]
    push Not at h
    have h' : (0:ℝ) < q := by exact_mod_cast h
    rw [← pow_le_pow_iff_left₀ (by positivity) hcR.le (show 320 ≠ 0 by norm_num), mul_pow]
    have hp := rootValue_pow t d
    rw [ratCast_eq q h.le, ratCast_eq c hc.le]
    have d1 : (0:ℝ) < q.den := by exact_mod_cast q.den_pos
    have d2 : (0:ℝ) < c.den := by exact_mod_cast c.den_pos
    have t10 : (0:ℝ) < 10 ^ t := by positivity
    generalize rootValue t d = R at *
    rw [div_pow, div_pow, le_div_iff₀ (by positivity), div_mul_eq_mul_div, div_mul_eq_mul_div,
      div_le_iff₀ (by positivity), ← Nat.cast_le (α := ℝ)]
    push_cast
    rw [← hp]
    have e1 : (q.num.toNat : ℝ) ^ 320 * (R ^ 320 * 10 ^ t) * (c.den : ℝ) ^ 320 =
        (q.num.toNat : ℝ) ^ 320 * R ^ 320 * (c.den : ℝ) ^ 320 * 10 ^ t := by ring
    have e2 : (c.num.toNat : ℝ) ^ 320 * 10 ^ t * (q.den : ℝ) ^ 320 =
        (c.num.toNat : ℝ) ^ 320 * (q.den : ℝ) ^ 320 * 10 ^ t := by ring
    rw [e1, e2]
    exact mul_le_mul_iff_of_pos_right t10

/-! ### The enclosure of a root -/

/-- `rootAtMost` says the root is at least `r / 2^B`. -/
theorem rootAtMost_iff (B t d r : Nat) : rootAtMost B t d r = true ↔ (r:ℝ) ≤ 2 ^ B * rootValue t d := by
  have hx0 := rootValue_nonneg t d
  unfold rootAtMost
  have hp := rootValue_pow t d
  generalize rootValue t d = x at *
  rw [decide_eq_true_iff, ← pow_le_pow_iff_left₀ (a := (r:ℝ)) (by positivity) (by positivity)
      (show 320 ≠ 0 by norm_num), mul_pow, ← pow_mul]
  rw [← Nat.cast_le (α := ℝ)]
  push_cast
  rw [← hp]
  have t10 : (0:ℝ) < 10 ^ t := by positivity
  generalize (2:ℝ) ^ (B * 320) = C at *
  generalize (10:ℝ) ^ t = D at *
  generalize x ^ 320 = E at *
  generalize (r:ℝ) ^ 320 = F at *
  rw [← mul_assoc]
  exact mul_le_mul_iff_of_pos_right t10

/-- Deciding bit by bit finds the greatest number that qualifies. -/
theorem rootFrom_spec (B t d k acc : Nat) (h1 : rootAtMost B t d acc = true)
    (h2 : rootAtMost B t d (acc + 2 ^ k) = false) :
    rootAtMost B t d (rootFrom B t d k acc) = true ∧ rootAtMost B t d (rootFrom B t d k acc + 1) = false := by
  induction k generalizing acc with
  | zero => exact ⟨h1, h2⟩
  | succ k ih =>
    rw [rootFrom]
    split
    · rename_i h; exact ih _ h (by rw [add_assoc, ← two_mul, ← pow_succ']; exact h2)
    · rename_i h; exact ih _ h1 (by simpa using h)

/-- The number of bits `rootFloor` decides is enough. -/
theorem rootValue_lt (t d : Nat) : rootValue t d < 2 ^ (d.log2 / 2 + 1) := by
  unfold rootValue
  have h1 : (10:ℝ) ^ (-(t:ℝ)/320) ≤ 1 := Real.rpow_le_one_of_one_le_of_nonpos (by norm_num) (by
    have : (0:ℝ) ≤ t := by positivity
    linarith)
  have h2 : √(d:ℝ) < 2 ^ (d.log2 / 2 + 1) := by
    rw [Real.sqrt_lt' (by positivity), ← pow_mul]
    have : d < 2 ^ ((d.log2 / 2 + 1) * 2) := lt_of_lt_of_le (Nat.lt_log2_self) (Nat.pow_le_pow_right
        (by norm_num) (by omega))
    exact_mod_cast this
  have h3 : (0:ℝ) ≤ 10 ^ (-(t:ℝ)/320) := by positivity
  have h4 : 0 ≤ √(d:ℝ) := by positivity
  nlinarith

/-- `rootFloor` is the integer part of the root times `2^B`. -/
theorem rootFloor_spec (B t d : Nat) : ((rootFloor B t d : Nat):ℝ) ≤ 2 ^ B * rootValue t d ∧
    2 ^ B * rootValue t d < ((rootFloor B t d + 1 : Nat):ℝ) := by
  have h0 : rootAtMost B t d 0 = true := by
    rw [rootAtMost_iff, Nat.cast_zero]
    have := rootValue_nonneg t d
    positivity
  have h1 : rootAtMost B t d (0 + 2 ^ (B + d.log2 / 2 + 1)) = false := by
    rw [← Bool.not_eq_true, rootAtMost_iff, not_le]
    push_cast
    rw [zero_add, add_assoc, pow_add]
    exact mul_lt_mul_of_pos_left (rootValue_lt t d) (by positivity)
  have h := rootFrom_spec B t d (B + d.log2 / 2 + 1) 0 h0 h1
  rw [← Bool.not_eq_true, rootAtMost_iff, rootAtMost_iff, not_le] at h
  exact h

/-- The two bounds enclose the root. -/
theorem root_bounds (B t d : Nat) : (0:ℝ) ≤ rootLower B t d ∧ (rootLower B t d : ℝ) ≤ rootValue t d ∧
    rootValue t d ≤ rootUpper B t d := by
  unfold rootLower rootUpper
  split
  · rename_i h; rw [h.1, h.2, rootValue_one]; norm_num
  · obtain ⟨h1, h2⟩ := rootFloor_spec B t d
    have hB : (0:ℝ) < 2 ^ B := by positivity
    push_cast at h2 ⊢
    generalize (2:ℝ) ^ B = C at *
    refine ⟨by positivity, ?_, ?_⟩
    · rw [div_le_iff₀ hB]; linarith
    · rw [le_div_iff₀ hB]; linarith

/-! ### The host's numbers -/

/-- Leading digits as a natural are the leading terms of the digit sum. -/
theorem leadingBits_sum (bit : Nat → Bool) (n : Nat) :
    (leadingBits bit n : ℝ) = 2 ^ n * ∑ l ∈ Finset.range n, Real.ofDigitsTerm (fun m => (if bit m then 1 else 0 :
      Fin 2)) l := by
  induction n with
  | zero => simp [leadingBits]
  | succ n ih =>
    rw [leadingBits, Finset.sum_range_succ, mul_add]
    push_cast
    rw [ih, pow_succ]
    congr 1
    · ring
    · unfold Real.ofDigitsTerm
      cases h : bit n
      · simp [h]
      · simp only [h, if_true]
        field_simp
        simp [pow_succ]

/-- The two bounds enclose the size of the host's number, which is positive. -/
theorem size_bounds (B k : Nat) : (0:ℝ) < sizeLower B k ∧ (sizeLower B k : ℝ) ≤ sizeValue k ∧
    sizeValue k ≤ sizeUpper B k := by
  unfold sizeLower sizeUpper sizeWith sizeValue digitsValue
  have e := Real.ofDigits_eq_sum_add_ofDigits (fun n => (if Config.hostBit k n then 1 else 0 : Fin 2)) B
  have h0 := Real.ofDigits_nonneg fun l => (if Config.hostBit k (l + B) then 1 else 0 : Fin 2)
  have h1 := Real.ofDigits_le_one fun l => (if Config.hostBit k (l + B) then 1 else 0 : Fin 2)
  have hl := leadingBits_sum (Config.hostBit k) B
  have hB : (0:ℝ) < 2 ^ B := by positivity
  have hn : (0:ℝ) ≤ leadingBits (Config.hostBit k) B := by positivity
  rw [e]
  push_cast
  generalize Real.ofDigits _ = F at *
  generalize (∑ l ∈ Finset.range B, _ : ℝ) = S at *
  generalize (2:ℝ) ^ B = C at *
  rw [hl]
  have hS : C * S / C = S := by field_simp
  have hS1 : (C * S + 1) / C = S + C⁻¹ := by field_simp
  have hi : 0 < C⁻¹ := by positivity
  rw [hS, hS1]
  rw [hl] at hn
  have : 0 ≤ S := by nlinarith
  refine ⟨by positivity, ?_, ?_⟩ <;> gcongr
  · nlinarith
  · nlinarith

theorem sizeValue_pos (k : Nat) : 0 < sizeValue k := (size_bounds 0 k).1.trans_le (size_bounds 0 k).2.1

/-- A number of the host is negative exactly if its name says so. -/
theorem HostReal.isNegative_iff (g : HostReal) : g.isNegative = true ↔ g.value < 0 := by
  cases g with
  | rat q => simp [HostReal.isNegative, HostReal.value]
  | named negative k =>
    have := sizeValue_pos k
    cases negative <;> simp [HostReal.isNegative, HostReal.value] <;> linarith

/-- A number of the host that is not negative. -/
theorem HostReal.value_nonneg (g : HostReal) (h : g.isNegative = false) : 0 ≤ g.value :=
  not_lt.1 fun hn => by simp [(HostReal.isNegative_iff g).2 hn] at h

/-- Every positive real has the form of a host number's size, for some digits: the free functions shut no real
out (assumption 6). -/
theorem digitsValue_surjective (x : ℝ) (hx : 0 < x) : ∃ whole shift bit, digitsValue whole shift bit = x := by
  obtain ⟨shift, hs⟩ : ∃ n : Nat, 1 ≤ x * 2 ^ n := by
    obtain ⟨n, hn⟩ := pow_unbounded_of_one_lt (1 / x) (show (1:ℝ) < 2 by norm_num)
    refine ⟨n, ?_⟩
    rw [div_lt_iff₀ hx] at hn
    linarith
  have h1 := Nat.floor_le (show 0 ≤ x * 2 ^ shift by positivity)
  have h2 := Nat.lt_floor_add_one (x * 2 ^ shift)
  have h3 : 1 ≤ ⌊x * 2 ^ shift⌋₊ := Nat.le_floor (by simpa using hs)
  obtain ⟨d, -, hd⟩ := Real.ofDigits_SurjOn (b := 2) (by norm_num)
    (show x * 2 ^ shift - ⌊x * 2 ^ shift⌋₊ ∈ Set.Icc (0:ℝ) 1 from ⟨by linarith, by linarith⟩)
  refine ⟨⌊x * 2 ^ shift⌋₊ - 1, shift, fun n => decide (d n = 1), ?_⟩
  have e : (fun n => (if decide (d n = 1) = true then 1 else 0 : Fin 2)) = d := by
    funext n
    generalize d n = v
    revert v; decide
  unfold digitsValue
  rw [e, hd, Nat.cast_sub h3]
  push_cast
  field_simp
  ring

/-! ### The enclosure of a monomial -/

theorem volCap_cast : ((Config.volCap : Rat) : ℝ) = 9 / 5 := by unfold Config.volCap; norm_num

/-- The two bounds enclose the factor. -/
theorem Factor.bounds (f : Factor) (B : Nat) :
    (0:ℝ) ≤ f.lower B ∧ (f.lower B : ℝ) ≤ f.value ∧ f.value ≤ f.upper B := by
  cases f with
  | size k => exact ⟨(size_bounds B k).1.le, (size_bounds B k).2⟩
  | capped num den tens rad k =>
    obtain ⟨r0, r1, r2⟩ := root_bounds B tens rad
    obtain ⟨s0, s1, s2⟩ := size_bounds B k
    have hq : (0:ℝ) ≤ (num:ℝ) / den := by positivity
    have s0' := s0.le
    simp only [Factor.lower, Factor.upper, Factor.value]
    push_cast
    rw [volCap_cast]
    refine ⟨le_min (by positivity) (by norm_num), min_le_min ?_ le_rfl, min_le_min ?_ le_rfl⟩
    · have := rootValue_nonneg tens rad
      gcongr
    · have := sizeValue_pos k
      have := r0.trans (r1.trans r2)
      gcongr

/-- The two bounds enclose what multiplies the coefficient. -/
theorem Monomial.weight_bounds (x : Monomial) (B : Nat) : (0:ℝ) ≤ x.weightLower B ∧
    (x.weightLower B : ℝ) ≤ rootValue x.tens x.rad * (x.factors.map Factor.value).prod ∧
    rootValue x.tens x.rad * (x.factors.map Factor.value).prod ≤ x.weightUpper B := by
  unfold Monomial.weightLower Monomial.weightUpper
  induction x.factors with
  | nil => simpa using root_bounds B x.tens x.rad
  | cons f fs ih =>
    obtain ⟨f0, f1, f2⟩ := f.bounds B
    obtain ⟨h0, h1, h2⟩ := ih
    simp only [List.foldr_cons, List.map_cons, List.prod_cons]
    push_cast
    have hv := h0.trans h1
    rw [show rootValue x.tens x.rad * (f.value * (fs.map Factor.value).prod) =
      f.value * (rootValue x.tens x.rad * (fs.map Factor.value).prod) by ring]
    have := f0.trans f1
    have := this.trans f2
    exact ⟨by positivity, by gcongr, by gcongr⟩

/-- The two bounds enclose the monomial. -/
theorem Monomial.bounds (x : Monomial) (B : Nat) : (x.lower B : ℝ) ≤ x.value ∧ x.value ≤ x.upper B := by
  obtain ⟨h0, h1, h2⟩ := x.weight_bounds B
  unfold Monomial.lower Monomial.upper Monomial.value
  rw [mul_assoc]
  generalize rootValue x.tens x.rad * _ = w at *
  by_cases hc : x.coeff < 0
  · have hc' : (x.coeff:ℝ) < 0 := by exact_mod_cast hc
    simp only [hc, if_true]
    push_cast
    constructor <;> nlinarith
  · have hc' : (0:ℝ) ≤ x.coeff := by exact_mod_cast not_lt.1 hc
    simp only [hc, if_false]
    push_cast
    constructor <;> gcongr

/-! ### The integer part -/

/-- Truncation is the floor of what is not negative and the ceiling of the rest (R15). -/
theorem truncRat_eq (q : Rat) : truncRat q = if 0 ≤ q then ⌊q⌋ else ⌈q⌉ := by
  unfold truncRat
  split
  · rename_i h
    rw [Int.tdiv_eq_ediv_of_nonneg (Rat.num_nonneg.2 h)]; exact (Rat.floor_def q).symm
  · rename_i h
    push Not at h
    have h1 : ⌈q⌉ = -⌊-q⌋ := by rw [Int.floor_neg]; ring
    rw [h1]; change _ = -(Rat.floor (-q)); rw [Rat.floor_def]
    have hn : 0 ≤ -q.num := by have := Rat.num_neg.2 h; omega
    rw [show (-q).num = -q.num from rfl, show (-q).den = q.den from rfl, ← Int.tdiv_eq_ediv_of_nonneg hn,
        Int.neg_tdiv, neg_neg]

/-- Truncation is monotone. -/
theorem truncRat_mono {p q : Rat} (h : p ≤ q) : truncRat p ≤ truncRat q := by
  rw [truncRat_eq, truncRat_eq]
  split_ifs with h1 h2 h2
  · exact Int.floor_mono h
  · exact absurd (le_trans h1 h) h2
  · push Not at h1
    have : ⌈p⌉ ≤ 0 := Int.ceil_le.2 (by simpa using h1.le)
    have : 0 ≤ ⌊q⌋ := Int.floor_nonneg.2 h2
    omega
  · exact Int.ceil_mono h

/-- Bounds with one integer part give the real's between them. -/
theorem isTrunc_of_bounds (r : ℝ) (p q : Rat) (h1 : (p:ℝ) ≤ r) (h2 : r ≤ q) (h : truncRat p = truncRat q) :
    IsTrunc r (truncRat p) := by
  rw [truncRat_eq, truncRat_eq] at h
  rw [truncRat_eq]
  have f1 := Int.floor_le (p:ℝ); have f2 := Int.lt_floor_add_one (q:ℝ)
  have f3 := Int.le_ceil (q:ℝ); have f4 := Int.ceil_lt_add_one (p:ℝ)
  have f5 := Int.floor_le (q:ℝ); have f6 := Int.lt_floor_add_one (p:ℝ)
  have f7 := Int.le_ceil (p:ℝ); have f8 := Int.ceil_lt_add_one (q:ℝ)
  rw [Rat.floor_cast] at f1 f2 f5 f6
  rw [Rat.ceil_cast] at f3 f4 f7 f8
  unfold IsTrunc
  by_cases a : 0 ≤ p
  · have a' : (0:ℝ) ≤ p := by exact_mod_cast a
    have b : 0 ≤ q := by exact_mod_cast (by linarith : (0:ℝ) ≤ q)
    simp only [a, b, if_true] at h ⊢
    rw [if_pos (by linarith), h]
    rw [h] at f1
    exact ⟨by linarith, by linarith⟩
  · have a' : (p:ℝ) < 0 := by exact_mod_cast not_le.1 a
    simp only [a, if_false] at h ⊢
    by_cases b : 0 ≤ q
    · have b' : (0:ℝ) ≤ q := by exact_mod_cast b
      simp only [b, if_true] at h
      have e1 : ⌈p⌉ ≤ 0 := Int.ceil_le.2 (by simpa using (not_le.1 a).le)
      have e2 : 0 ≤ ⌊q⌋ := Int.floor_nonneg.2 b
      have e3 : ⌈p⌉ = 0 := by omega
      have e4 : ⌊q⌋ = 0 := by omega
      rw [e3] at f4 f7 ⊢; rw [e4] at f2 f5
      push_cast at *
      split_ifs
      · exact ⟨by linarith, by linarith⟩
      · exact ⟨by linarith, by linarith⟩
    · have b' : (q:ℝ) < 0 := by exact_mod_cast not_le.1 b
      simp only [b, if_false] at h
      rw [if_neg (by linarith), h]
      rw [h] at f4
      exact ⟨by linarith, by linarith⟩

/-! ### The bounds close in -/

open Filter Topology

/-- Bounds at most `2^-n` apart close in. -/
theorem tendsto_of_width {l u : Nat → ℝ} {v : ℝ} (h1 : ∀ n, l n ≤ v) (h2 : ∀ n, v ≤ u n)
    (hw : ∀ n, u n ≤ l n + (1 / 2) ^ n) : Tendsto l atTop (𝓝 v) ∧ Tendsto u atTop (𝓝 v) := by
  have h0 : Tendsto (fun n : Nat => ((1:ℝ) / 2) ^ n) atTop (𝓝 0) :=
    tendsto_pow_atTop_nhds_zero_of_lt_one (by norm_num) (by norm_num)
  constructor
  · refine tendsto_of_tendsto_of_tendsto_of_le_of_le (g := fun n => v - (1 / 2) ^ n) (h := fun _ => v)
      (by simpa using tendsto_const_nhds.sub h0) tendsto_const_nhds (fun n => ?_) h1
    have := h2 n; have := hw n; dsimp only; linarith
  · refine tendsto_of_tendsto_of_tendsto_of_le_of_le (g := fun _ => v) (h := fun n => v + (1 / 2) ^ n)
      tendsto_const_nhds (by simpa using tendsto_const_nhds.add h0) h2 (fun n => ?_)
    have := h1 n; have := hw n; dsimp only; linarith

theorem root_tendsto (t d : Nat) : Tendsto (fun B => (rootLower B t d : ℝ)) atTop (𝓝 (rootValue t d)) ∧
    Tendsto (fun B => (rootUpper B t d : ℝ)) atTop (𝓝 (rootValue t d)) := by
  refine tendsto_of_width (fun B => (root_bounds B t d).2.1) (fun B => (root_bounds B t d).2.2) fun B => ?_
  unfold rootLower rootUpper
  split
  · simp
  · push_cast
    rw [add_div, one_div_pow]

theorem size_tendsto (k : Nat) : Tendsto (fun B => (sizeLower B k : ℝ)) atTop (𝓝 (sizeValue k)) ∧
    Tendsto (fun B => (sizeUpper B k : ℝ)) atTop (𝓝 (sizeValue k)) := by
  refine tendsto_of_width (fun B => (size_bounds B k).2.1) (fun B => (size_bounds B k).2.2) fun B => ?_
  unfold sizeLower sizeUpper sizeWith
  push_cast
  have h : (1:ℝ) / 2 ^ B / 2 ^ Config.hostShift k ≤ 1 / 2 ^ B :=
    div_le_self (by positivity) (one_le_pow₀ (by norm_num))
  rw [add_div _ (1:ℝ), ← add_assoc, add_div, one_div_pow]
  linarith

theorem Factor.tendsto (f : Factor) : Tendsto (fun B => (f.lower B : ℝ)) atTop (𝓝 f.value) ∧
    Tendsto (fun B => (f.upper B : ℝ)) atTop (𝓝 f.value) := by
  cases f with
  | size k => exact size_tendsto k
  | capped num den tens rad k =>
    simp only [Factor.lower, Factor.upper, Factor.value]
    push_cast
    rw [volCap_cast]
    exact ⟨((tendsto_const_nhds.mul (root_tendsto tens rad).1).mul (size_tendsto k).1).min tendsto_const_nhds,
      ((tendsto_const_nhds.mul (root_tendsto tens rad).2).mul (size_tendsto k).2).min tendsto_const_nhds⟩

theorem Monomial.weight_tendsto (x : Monomial) :
    Tendsto (fun B => (x.weightLower B : ℝ)) atTop
      (𝓝 (rootValue x.tens x.rad * (x.factors.map Factor.value).prod)) ∧
    Tendsto (fun B => (x.weightUpper B : ℝ)) atTop
      (𝓝 (rootValue x.tens x.rad * (x.factors.map Factor.value).prod)) := by
  unfold Monomial.weightLower Monomial.weightUpper
  induction x.factors with
  | nil => simpa using root_tendsto x.tens x.rad
  | cons f fs ih =>
    simp only [List.foldr_cons, List.map_cons, List.prod_cons]
    push_cast
    rw [mul_left_comm]
    exact ⟨f.tendsto.1.mul ih.1, f.tendsto.2.mul ih.2⟩

theorem Monomial.tendsto (x : Monomial) : Tendsto (fun B => (x.lower B : ℝ)) atTop (𝓝 x.value) ∧
    Tendsto (fun B => (x.upper B : ℝ)) atTop (𝓝 x.value) := by
  obtain ⟨h1, h2⟩ := x.weight_tendsto
  unfold Monomial.lower Monomial.upper Monomial.value
  rw [mul_assoc]
  by_cases hc : x.coeff < 0 <;> simp only [hc, if_true, if_false] <;> push_cast
  · exact ⟨tendsto_const_nhds.mul h2, tendsto_const_nhds.mul h1⟩
  · exact ⟨tendsto_const_nhds.mul h1, tendsto_const_nhds.mul h2⟩

theorem foldl_add (l : List Rat) (a : Rat) : l.foldl (· + ·) a = a + l.sum := by
  induction l generalizing a with
  | nil => simp
  | cons x l ih => rw [List.foldl_cons, ih, List.sum_cons, add_assoc]

/-- The two bounds enclose the real. -/
theorem ExactReal.bounds (x : ExactReal) (B : Nat) : (x.lower B : ℝ) ≤ sumValue x.terms ∧
    sumValue x.terms ≤ x.upper B := by
  unfold ExactReal.lower ExactReal.upper sumValue
  rw [foldl_add, foldl_add, zero_add, zero_add]
  induction x.terms with
  | nil => simp
  | cons t ts ih =>
    have := t.bounds B
    simp only [List.map_cons, List.sum_cons, Rat.cast_add]
    exact ⟨add_le_add this.1 ih.1, add_le_add this.2 ih.2⟩

/-- The two bounds close in on the real. -/
theorem ExactReal.tendsto (x : ExactReal) : Tendsto (fun B => (x.lower B : ℝ)) atTop (𝓝 (sumValue x.terms)) ∧
    Tendsto (fun B => (x.upper B : ℝ)) atTop (𝓝 (sumValue x.terms)) := by
  unfold ExactReal.lower ExactReal.upper sumValue
  simp only [foldl_add, zero_add]
  induction x.terms with
  | nil => simp
  | cons t ts ih =>
    simp only [List.map_cons, List.sum_cons, Rat.cast_add]
    exact ⟨t.tendsto.1.add ih.1, t.tendsto.2.add ih.2⟩

/-! ### The search -/

/-- What the search finds is good. -/
theorem firstFrom_some {good : Nat → Bool} {n m : Nat} (h : firstFrom good n = some m) : good m = true := by
  refine firstFrom.partial_correctness good (fun _ m => good m = true) (fun find ih n m h => ?_) n m h
  split at h
  · cases h; assumption
  · exact ih _ _ h

/-- The search finds nothing only if there is nothing. -/
theorem firstFrom_none {good : Nat → Bool} {n : Nat} (h : firstFrom good n = none) (m : Nat) (hm : n ≤ m) :
    good m = false := by
  obtain ⟨k, rfl⟩ := Nat.exists_eq_add_of_le hm
  clear hm
  induction k generalizing n with
  | zero =>
    rw [firstFrom] at h
    split at h
    · cases h
    · simpa using ‹¬ good n = true›
  | succ k ih =>
    rw [firstFrom] at h
    split at h
    · cases h
    · rw [show n + (k + 1) = n + 1 + k by omega]; exact ih h

/-- The search finds the first good number. -/
theorem firstFrom_eq {good : Nat → Bool} {n k : Nat} (hk : good (n + k) = true)
    (h : ∀ j, j < k → good (n + j) = false) :
    firstFrom good n = some (n + k) := by
  induction k generalizing n with
  | zero => rw [firstFrom, if_pos (by simpa using hk)]; rfl
  | succ k ih =>
    have h0 : good n = false := h 0 (by omega)
    have e := ih (n := n + 1) (by rw [← hk]; congr 1; omega) fun j hj => by
      rw [← h (j + 1) (by omega)]; congr 1; omega
    rw [firstFrom, if_neg (by simp [h0]), e]
    congr 1; omega

/-- Some bounds are close enough to hold at most one integer. -/
theorem ExactReal.exists_narrow (x : ExactReal) : ∃ B, x.narrow B = true := by
  have h := (x.tendsto.2.sub x.tendsto.1).eventually_lt_const (show sumValue x.terms - sumValue x.terms < 1 by simp)
  obtain ⟨B, hB⟩ := h.exists
  refine ⟨B, ?_⟩
  unfold ExactReal.narrow
  rw [decide_eq_true_iff]
  exact_mod_cast hB

/-- The terms of an integer. -/
theorem ofInt_terms (v : Int) : ExactReal.ofInt v = ⟨if v = 0 then [] else [⟨v, 0, 1, []⟩]⟩ := by
  unfold ExactReal.ofInt ExactReal.add ExactReal.zero addTerm Monomial.ofRat
  simp

end Sys2Proof
end

