-- ==== Sys2Proof/Laws/PerInstr.lean ====
section
/-! SUPPORT. Every operation's encoding is a word of its own row of the opcode table, said once per
constructor. -/

namespace Sys2Proof

/-! ### The data byte of a bus word -/

theorem busWord_toNat (w : Bool) (o : BitVec 10) (d : Byte) :
    (busWord w o d).toNat = w.toNat * 0x40000 + o.toNat * 0x100 + d.toNat := by
  have ho := o.isLt
  have hd := d.isLt
  unfold busWord
  rw [BitVec.toNat_append, BitVec.toNat_append, Nat.shiftLeft_eq, Nat.shiftLeft_eq, BitVec.toNat_ofBool,
    ← Nat.shiftLeft_eq, ← Nat.shiftLeft_eq, ← Nat.shiftLeft_add_eq_or_of_lt (by omega),
    ← Nat.shiftLeft_add_eq_or_of_lt (by omega)]
  omega

/-- The fields of a bus word are the ones it was built from. -/
theorem busWrite_busWord (w : Bool) (o : BitVec 10) (d : Byte) : busWrite (busWord w o d) = w := by
  have h := busWord_toNat w o d
  have ho := o.isLt
  have hd := d.isLt
  unfold busWrite
  rw [BitVec.getLsbD, Nat.testBit_eq_decide_div_mod_eq, h]
  cases w <;> simp <;> omega

theorem busOffset_busWord (w : Bool) (o : BitVec 10) (d : Byte) : busOffset (busWord w o d) = o := by
  have h := busWord_toNat w o d
  have ho := o.isLt
  have hd := d.isLt
  apply BitVec.eq_of_toNat_eq
  unfold busOffset
  rw [BitVec.extractLsb'_toNat, h, Nat.shiftRight_eq_div_pow]
  cases w <;> simp <;> omega

theorem busData_busWord (w : Bool) (o : BitVec 10) (d : Byte) : busData (busWord w o d) = d := by
  have h := busWord_toNat w o d
  have ho := o.isLt
  have hd := d.isLt
  apply BitVec.eq_of_toNat_eq
  unfold busData
  rw [BitVec.extractLsb'_toNat, h, Nat.shiftRight_eq_div_pow]
  cases w <;> simp <;> omega

/-- A mask with clear low bits does not see the low bits. -/
theorem and_ignores_low_bits (b x d k : Nat) (hd : d < 2 ^ b) :
    (2 ^ b * x + d) &&& (2 ^ b * k) = 2 ^ b * (x &&& k) := by
  apply Nat.eq_of_testBit_eq
  intro i
  rw [Nat.testBit_and, Nat.testBit_two_pow_mul_add _ hd, Nat.testBit_two_pow_mul, Nat.testBit_two_pow_mul,
    Nat.testBit_and]
  by_cases hi : i < b
  · simp [Nat.not_le.2 hi]
  · simp [hi, Nat.le_of_not_lt hi]

/-- A mask with a clear low byte does not see the data. -/
theorem and_ignores_low_byte (x d m : Nat) (hd : d < 256) (hm : m % 256 = 0) :
    (256 * x + d) &&& m = 256 * (x &&& (m / 256)) := by
  have := and_ignores_low_bits 8 x d (m / 256) hd
  rwa [show 2 ^ 8 * (m / 256) = m from Nat.mul_div_cancel' (Nat.dvd_of_mod_eq_zero hm)] at this

/-- The row of a bus word does not depend on its data byte. -/
theorem mnemonic_busWord (w : Bool) (o : BitVec 10) (d : Byte) :
    (OpWord.bus (busWord w o d)).mnemonic? = (OpWord.bus (busWord w o 0)).mnemonic? := by
  have hrow : ∀ r ∈ opcodeTable, r.format = .busw ∨ r.format = .busr → r.mask % 256 = 0 := by decide
  have hfit : ∀ r ∈ opcodeTable, OpcodeRow.fits (.bus (busWord w o d)) r = OpcodeRow.fits (.bus (busWord w o 0)) r := by
    intro r hr
    unfold OpcodeRow.fits OpWord.format OpWord.bits
    simp only [busWrite_busWord]
    by_cases hf : r.format = if w then .busw else .busr
    · have hm := hrow r hr (by cases w <;> simp_all)
      have e : ∀ d : Byte, (busWord w o d).toNat = 256 * (w.toNat * 0x400 + o.toNat) + d.toNat := by
        intro d; rw [busWord_toNat]; omega
      rw [e, e, and_ignores_low_byte _ _ _ d.isLt hm, and_ignores_low_byte _ _ _ (0 : Byte).isLt hm]
    · have hne : (r.format == if w then OpFormat.busw else OpFormat.busr) = false := by simpa using hf
      simp only [hne, Bool.false_and]
  unfold OpWord.mnemonic?
  congr 1
  generalize opcodeTable = rows at hfit
  induction rows with
  | nil => rfl
  | cons r rows ih =>
    rw [List.find?_cons, List.find?_cons, hfit r List.mem_cons_self,
      ih fun x hx => hfit x (List.mem_cons_of_mem _ hx)]

theorem mnemonic_chan_row (c : Fin 8) (f : BitVec 5) (d : Byte) :
    (OpWord.bus (busWord true (chanOffset c f) d)).mnemonic? =
      some (if f = 0x0C then "WR.POS0" else if f = 0x0D then "WR.POS1" else if f = 0x0E then "WR.POS2"
        else "WR.CHAN") := by
  rw [mnemonic_busWord]
  revert c f
  decide +kernel

/-- The rows of the mode bytes (R122). -/
theorem mnemonic_modeByte (format : BitVec 2) (rev : Bool) :
    (OpWord.mode (modeByte format rev)).mnemonic? = ["FMT.PCM8", "FMT.PCM16", "FMT.DPCM4", "FMT.NONE"][format.toNat]? := by
  revert format rev
  decide

/-- The rows of the `HOST` selectors (R112). -/
theorem mnemonic_host (h : BitVec 4) :
    (OpWord.host h).mnemonic? = ["INIT", "EXIT", "RESET", "SETGAIN", "SETROUTE", "SETPANCB", "UPDATE", "SNAPSHOT",
      "RESTORE"][h.toNat]? := by
  revert h
  decide

/-- The rows of the `INT` selectors (R112). -/
theorem mnemonic_int (i : BitVec 2) :
    (OpWord.int i).mnemonic? = ["TICK", "CHTICK", "KEYON", "KEYOFF"][i.toNat]? := by
  revert i
  decide

namespace Laws.RowMatches

/-- A well-formed operation's encoding is a word whose first fitting row is the operation's own (R128). -/
def Statement (i : Instr) : Prop := i.wellFormed = true → (encode i).word.mnemonic? = some i.mnemonic

theorem wrPos0 (chip : Nat) (c : Fin 8) (data : Byte) : Statement (.wrPos0 chip c data) := fun _ =>
  mnemonic_chan_row c 0x0C data

theorem wrPos1 (chip : Nat) (c : Fin 8) (data : Byte) : Statement (.wrPos1 chip c data) := fun _ =>
  mnemonic_chan_row c 0x0D data

theorem wrPos2 (chip : Nat) (c : Fin 8) (data : Byte) : Statement (.wrPos2 chip c data) := fun _ =>
  mnemonic_chan_row c 0x0E data

theorem wrApan (chip : Nat) (data : Byte) : Statement (.wrApan chip data) := fun _ =>
  (mnemonic_busWord _ _ _).trans rfl

theorem wrKon (chip : Nat) (data : Byte) : Statement (.wrKon chip data) := fun _ =>
  (mnemonic_busWord _ _ _).trans rfl

theorem wrKoff (chip : Nat) (data : Byte) : Statement (.wrKoff chip data) := fun _ =>
  (mnemonic_busWord _ _ _).trans rfl

theorem wrKstat (chip : Nat) (data : Byte) : Statement (.wrKstat chip data) := fun _ =>
  (mnemonic_busWord _ _ _).trans rfl

theorem wrSdata (chip : Nat) (data : Byte) : Statement (.wrSdata chip data) := fun _ =>
  (mnemonic_busWord _ _ _).trans rfl

theorem wrZone (chip : Nat) (data : Byte) : Statement (.wrZone chip data) := fun _ =>
  (mnemonic_busWord _ _ _).trans rfl

theorem wrCtrl (chip : Nat) (data : Byte) : Statement (.wrCtrl chip data) := fun _ =>
  (mnemonic_busWord _ _ _).trans rfl

theorem wrMode (chip : Nat) (c : Fin 8) (second : Bool) (data : Byte) : Statement (.wrMode chip c second data) :=
  fun _ => (mnemonic_busWord _ _ _).trans <| by
    have key : ∀ (c : Fin 8) (second : Bool),
        (OpWord.bus (busWord true (modeOffset c second) 0)).mnemonic? = some "WR.MODE" := by decide
    exact key c second

theorem wrChan (chip : Nat) (c : Fin 8) (field : BitVec 5) (data : Byte) :
    Statement (.wrChan chip c field data) := by
  intro h
  refine (mnemonic_chan_row c field data).trans ?_
  have hf : field ≠ 0x0C ∧ field ≠ 0x0D ∧ field ≠ 0x0E := by
    simp only [Instr.wellFormed, isChanField] at h
    refine ⟨?_, ?_, ?_⟩ <;> rintro rfl <;> simp at h
  rw [if_neg hf.1, if_neg hf.2.1, if_neg hf.2.2]
  rfl

theorem wrPlain (chip : Nat) (offset : BitVec 10) (data : Byte) : Statement (.wrPlain chip offset data) := by
  intro h
  refine (mnemonic_busWord _ _ _).trans ?_
  have key : ∀ o : BitVec 10, isPlainOffset o = true →
      (OpWord.bus (busWord true o 0)).mnemonic? = some "WR.PLAIN" := by decide +kernel
  exact key offset h

theorem rdSdata (chip : Nat) : Statement (.rdSdata chip) := fun _ => (mnemonic_busWord _ _ _).trans rfl

theorem rdPlain (chip : Nat) (offset : BitVec 10) : Statement (.rdPlain chip offset) := by
  intro h
  have key : ∀ o : BitVec 10, isReadOffset o = true →
      (OpWord.bus (busWord false o 0)).mnemonic? = some "RD.PLAIN" := by decide +kernel
  exact key offset h

theorem fmtPcm8 (chip : Nat) (c : Fin 8) (rev : Bool) : Statement (.fmtPcm8 chip c rev) := fun _ => mnemonic_modeByte 0 rev

theorem fmtPcm16 (chip : Nat) (c : Fin 8) (rev : Bool) : Statement (.fmtPcm16 chip c rev) := fun _ => mnemonic_modeByte 1 rev

theorem fmtDpcm4 (chip : Nat) (c : Fin 8) (rev : Bool) : Statement (.fmtDpcm4 chip c rev) := fun _ => mnemonic_modeByte 2 rev

theorem fmtNone (chip : Nat) (c : Fin 8) : Statement (.fmtNone chip c) := fun _ => mnemonic_modeByte 3 false

theorem init (chip clockHz : Nat) (rom : List Byte) (romLen : Nat) (updateAtKeyon reverbDisable : Bool) :
    Statement (.init chip clockHz rom romLen updateAtKeyon reverbDisable) := fun _ => mnemonic_host 0

theorem exit : Statement .exit := fun _ => mnemonic_host 1

theorem reset (chip : Nat) : Statement (.reset chip) := fun _ => mnemonic_host 2

theorem setgain (chip channel : Nat) (gain : HostReal) : Statement (.setgain chip channel gain) := fun _ => mnemonic_host 3

theorem setroute (chip route : Nat) (volume : HostReal) (mask : Nat) : Statement (.setroute chip route volume mask) :=
  fun _ => mnemonic_host 4

theorem setpancb (chip : Nat) (registered : Bool) : Statement (.setpancb chip registered) := fun _ => mnemonic_host 5

theorem update (chip : Nat) (out : List Frame) (count : Nat) (host : HostParams) :
    Statement (.update chip out count host) := fun _ => mnemonic_host 6

theorem snapshot (chip : Nat) : Statement (.snapshot chip) := fun _ => mnemonic_host 7

theorem restore (chip : Nat) (data : Snapshot) : Statement (.restore chip data) := fun _ => mnemonic_host 8

theorem tick (chip : Nat) : Statement (.tick chip) := fun _ => mnemonic_int 0

theorem chtick (chip : Nat) (c : Fin 8) : Statement (.chtick chip c) := fun _ => mnemonic_int 1

theorem keyon (chip : Nat) (c : Fin 8) : Statement (.keyon chip c) := fun _ => mnemonic_int 2

theorem keyoff (chip : Nat) (c : Fin 8) : Statement (.keyoff chip c) := fun _ => mnemonic_int 3

end Laws.RowMatches

end Sys2Proof
end

