-- ==== Sys2Proof/Laws/Update.lean ====
section
/-! SUPPORT. What the resampler's two passes and the checks of Restore can do. -/

namespace Sys2Proof.Machine

/-- The first pass: the instance after `n` ticks, and the frame of each (R218). -/
theorem ticks_spec (n : Nat) (i : ChipInstance) : (i.ticks n).1 = i.afterTicks n ∧ (i.ticks n).2.length = n ∧
    ∀ k, k < n → (i.ticks n).2[k]? = some (i.afterTicks k).tick.2 := by
  induction n generalizing i with
  | zero => simp [ChipInstance.ticks, ChipInstance.afterTicks]
  | succ n ih =>
    obtain ⟨h1, h2, h3⟩ := ih i.tick.1
    have e : i.ticks (n+1) = ((ChipInstance.ticks n i.tick.1).1,
        i.tick.2 :: (ChipInstance.ticks n i.tick.1).2) := rfl
    rw [e]
    refine ⟨?_, by simp [h2], fun k hk => ?_⟩
    · rw [h1]; unfold ChipInstance.afterTicks; rw [Function.iterate_succ_apply]
    · cases k with
      | zero => rfl
      | succ k =>
        have := h3 k (by omega)
        simp only [List.getElem?_cons_succ, this]
        unfold ChipInstance.afterTicks; rw [Function.iterate_succ_apply]

/-- The second pass, frame by frame (R220, R221). -/
theorem mixBuffer_spec (native : List Frame) (m j : Nat) (out : List Frame) :
   (mixBuffer native m j out).length = out.length ∧ ∀ k, (mixBuffer native m j out)[k]? = out[k]?.map fun f => if
       j + k < m then Frame.mixed f (nativeFrame native m (j+k)) else f := by
  induction out generalizing j with
  | nil => simp [mixBuffer]
  | cons f out ih =>
    obtain ⟨h1, h2⟩ := ih (j+1)
    refine ⟨by simp [mixBuffer, h1], fun k => ?_⟩
    cases k with
    | zero => simp [mixBuffer]
    | succ k => simp only [mixBuffer, List.getElem?_cons_succ, h2, Nat.add_assoc, Nat.add_comm 1 k]

/-- A positive request takes a positive number of ticks (R217 (b)). -/
theorem nativeTicks_pos (c hp m) (h : 1 ≤ m) : 1 ≤ Config.nativeTicks c hp m := by
  unfold Config.nativeTicks Config.capTicks; rw [if_neg (by omega)]; omega

/-- Restore finds no defect exactly in what it accepts (R235). -/
theorem snapshotDefect_none (i : ChipInstance) (d : Snapshot) : i.snapshotDefect d = none ↔ i.Accepts d := by
  have hch : (∀ c : Fin 8, ChannelOk d.chan[c.val]) ↔ (d.chan.toList.any (fun c => decide
      (0x10000 ≤ c.pfrac)) = false ∧ d.chan.toList.any (fun c => !samplesFit c) = false) := by
    rw [← Bool.not_eq_true, ← Bool.not_eq_true, List.any_eq_true, List.any_eq_true]
    push Not
    constructor
    · intro h
      constructor <;>
      · intro x hx
        rw [Vector.mem_toList_iff, Vector.mem_iff_getElem] at hx
        obtain ⟨k, hk, rfl⟩ := hx
        have := h ⟨k, hk⟩
        simp [samplesFit, ChannelOk] at *
        grind
    · rintro ⟨h1, h2⟩ c
      have hm : d.chan[c.val] ∈ d.chan.toList := by simp
      have a := h1 _ hm
      have b := h2 _ hm
      simp [samplesFit] at a b
      exact ⟨by omega, b.1, b.2⟩
  constructor
  · intro h
    unfold ChipInstance.snapshotDefect at h
    split_ifs at h with h1 h2 h3 h4 h5 h6

    push Not at h1 h3 h4
    exact ⟨h1, ⟨h2.1, h2.2.1⟩, ⟨h2.2.2.1, h2.2.2.2⟩, h3, by simp only [Config.ringLen] at h4; omega,
        hch.2 ⟨by simpa using h5, by simpa using h6⟩⟩
  · intro ⟨h1, h2, h3, h4, h5, h6⟩
    have := hch.1 h6
    unfold ChipInstance.snapshotDefect
    have hz : ¬ zoneLimitOf (Memory.read d.regs 0x22E) ≤ d.zoneCursor := by
      simp only [zoneLimitOf, Config.zoneRamLimit, Config.zoneRomLimit]
      omega
    have hr : ¬ Config.ringLen ≤ d.reverbCursor := by
      simp only [Config.ringLen]
      omega
    rw [if_neg (by simpa using h1), if_neg (by tauto), if_neg hz, if_neg hr, this.1, this.2]
    rfl

end Sys2Proof.Machine
end

