-- ==== Sys2Proof/Tests/Slice0.lean ====
section
/-! SUPPORT. Tests. Expected values come from the spec: `V-…` names a vector of `95_test_vectors.md`, `R…` a rule
whose worked example or table gives the value. A theorem `witness_X` shows that the hypotheses of the statement
`X` are met, at the ends of their ranges where they have a range. -/

namespace Sys2Proof.Tests

-- The theorems one after the other: each waits for the kernel, and together they hold too many threads.
set_option Elab.async false

open Sys2Proof.Machine

/-! ### Small states -/

/-- Store the listed bytes in the register image. -/
def withRegs (i : ChipInstance) (l : List (Nat × Byte)) : ChipInstance := l.foldl (fun j x => j.setReg x.1 x.2) i

/-- Instance 0 as given, instance 1 not initialised, nothing pending. -/
def only0 (i : ChipInstance) : State := State.reset.setChip 0 i

/-- An instance right after Init. -/
def fresh : ChipInstance := ChipInstance.afterInit 50 [10, 20, 30, 0x80] 4 false false

/-- The same with position latching active: `updateAtKeyon` and `EN`. -/
def latching : ChipInstance := { fresh with flags := ⟨true, false⟩ }.setReg 0x22F 0x01

/-- The common setup `STD(rom, m, m2, p)` of `95_test_vectors.md`, its clock and ROM length aside. -/
def std (rom : List Byte) (m m2 p : Byte) : ChipInstance :=
  let i := ChipInstance.afterInit 50 rom rom.length false false
  withRegs { i with gain := i.gain.set 0 (.rat 4) }
    [(0x002, 0x01), (0x005, 0x18), (0x00C, p), (0x200, m), (0x201, m2), (0x214, 0x01), (0x22C, 0x01), (0x22F, 0x01)]

/-- The source's ROM. -/
def rom4 : List Byte := [0x0A, 0x14, 0x1E, 0x80]

/-- What an operation answers, if it completes. -/
def answer (r : Result) : Option Response :=
  match r with
  | .next t => some t.response
  | _ => none

/-- Instance 0 after an operation; blank if it does not complete. -/
def after (r : Result) : ChipInstance :=
  match r with
  | .next t => t.chip 0
  | _ => ChipInstance.blank

/-- The operation completes. -/
def completes (r : Result) : Bool := (answer r).isSome

/-- The fault of an operation. -/
def faultOf (r : Result) : Option Fault :=
  match r with
  | .fault f => some f
  | _ => none

/-- The number of steps a tick makes if no sentinel is met (R176). -/
def stepCount (rev : Bool) (pf : Int) (delta : Nat) : Nat :=
  let f : Int := pf + (if rev then -1 else 1) * delta
  (if rev then (0xFFFF - f) / 0x10000 else f / 0x10000).toNat

/-! ### Well-formedness -/

theorem test_wf_chan_field : (Instr.wrChan 0 0 0x0C 0).wellFormed = false ∧
    (Instr.wrChan 0 0 0x0E 0).wellFormed = false ∧
    (Instr.wrChan 0 0 0x0B 0).wellFormed = true ∧ (Instr.wrChan 0 0 0x0F 0).wellFormed = true := by decide

theorem test_wf_plain_offset : (Instr.wrPlain 0 0x0FF 0).wellFormed = false ∧
    (Instr.wrPlain 0 0x13F 0).wellFormed = false ∧
    (Instr.wrPlain 0 0x214 0).wellFormed = false ∧ (Instr.wrPlain 0 0x22C 0).wellFormed = false ∧
    (Instr.wrPlain 0 0x230 0).wellFormed = false ∧ (Instr.wrPlain 0 0x22B 0).wellFormed = true := by decide

theorem test_wf_read_offset : (Instr.rdPlain 0 0x22D).wellFormed = false ∧
    (Instr.rdPlain 0 0x230).wellFormed = false ∧
    (Instr.rdPlain 0 0x22F).wellFormed = true := by decide

theorem test_wf_frames : (Instr.update 0 [⟨32768, 0⟩] 1 ⟨0, 0, 0⟩).wellFormed = false ∧
    (Instr.update 0 [⟨0, -32769⟩] 1 ⟨0, 0, 0⟩).wellFormed = false ∧
    (Instr.update 0 [⟨32767, -32768⟩] 1 ⟨0, 0, 0⟩).wellFormed = true := by decide

/-! ### Decoding: every constructor from a word written out (V-ENC1, V-ENC2, R112) -/

/-- What the decoder reads from a bus word. -/
def bus (t : BitVec 19) : Except DecodeError Instr := decode { chip := 0, word := .bus t }

/-- What the decoder reads from a mode byte at the tick of channel 3. -/
def modeOf (m : Byte) : Except DecodeError Instr := decode { chip := 0, word := .mode m, args := { channel := 3 } }

theorem test_decode_positions : bus 0x40C03 = .ok (.wrPos0 0 0 0x03) ∧ bus 0x4ED55 = .ok (.wrPos1 0 7 0x55) ∧
    bus 0x44EAA = .ok (.wrPos2 0 2 0xAA) := by decide +kernel

theorem test_decode_blocks : bus 0x40B00 = .ok (.wrChan 0 0 0x0B 0x00) ∧ bus 0x40F12 = .ok (.wrChan 0 0 0x0F 0x12) ∧
    bus 0x4FF00 = .ok (.wrChan 0 7 0x1F 0x00) := by decide +kernel

theorem test_decode_plain : bus 0x50C77 = .ok (.wrPlain 0 0x10C 0x77) ∧ bus 0x53E18 = .ok (.wrPlain 0 0x13E 0x18) ∧
    bus 0x61000 = .ok (.wrPlain 0 0x210 0x00) := by decide +kernel

theorem test_decode_modes : bus 0x60024 = .ok (.wrMode 0 0 false 0x24) ∧
    bus 0x60F01 = .ok (.wrMode 0 7 true 0x01) := by
  decide +kernel

theorem test_decode_commands : bus 0x53F18 = .ok (.wrApan 0 0x18) ∧ bus 0x61401 = .ok (.wrKon 0 0x01) ∧
    bus 0x61580 = .ok (.wrKoff 0 0x80) ∧ bus 0x62CFF = .ok (.wrKstat 0 0xFF) ∧ bus 0x62D55 = .ok (.wrSdata 0 0x55) ∧
    bus 0x62E80 = .ok (.wrZone 0 0x80) ∧ bus 0x62F91 = .ok (.wrCtrl 0 0x91) := by decide +kernel

theorem test_decode_reads : bus 0x22D00 = .ok (.rdSdata 0) ∧ bus 0x22C00 = .ok (.rdPlain 0 0x22C) ∧
    bus 0x00C00 = .ok (.rdPlain 0 0x00C) := by decide +kernel

theorem test_decode_no_operation : bus 0x63000 = .error (.badOffset 0x230) ∧
    bus 0x3FF00 = .error (.badOffset 0x3FF) ∧
    decode { chip := 0, word := .host 9 } = .error (.noOperation 9) ∧
    decode { chip := 0, word := .host 6, args := { out := [⟨40000, 0⟩] } } = .error .notFrames := by decide +kernel

theorem test_decode_mode_bytes : modeOf 0x00 = .ok (.fmtPcm8 0 3 false) ∧ modeOf 0x04 = .ok (.fmtPcm16 0 3 false) ∧
    modeOf 0x08 = .ok (.fmtDpcm4 0 3 false) ∧ modeOf 0x0C = .ok (.fmtNone 0 3) ∧
        modeOf 0x20 = .ok (.fmtPcm8 0 3 true) ∧
    modeOf 0x24 = .ok (.fmtPcm16 0 3 true) ∧ modeOf 0x28 = .ok (.fmtDpcm4 0 3 true) ∧
    modeOf 0xD3 = .ok (.fmtPcm8 0 3 false) ∧ modeOf 0xFF = .ok (.fmtNone 0 3) := by decide +kernel

/-- A request for a named operation on instance 1. -/
def host1 (h : BitVec 4) (a : OpArgs) : Request := ⟨1, .host h, a⟩

theorem test_decode_host :
    decode (host1 0
      { clockHz := 9, rom := [7], romLen := 1, updateAtKeyon := some false, reverbDisable := some true }) =
        .ok (.init 1 9 [7] 1 false true) ∧
    decode (host1 1 {}) = .ok .exit ∧ decode (host1 2 {}) = .ok (.reset 1) ∧
    decode (host1 3 { index := 7, amount := .rat 4 }) = .ok (.setgain 1 7 (.rat 4)) ∧
    decode (host1 4 { index := 1, amount := .named true 2, mask := 3 }) =
      .ok (.setroute 1 1 (.named true 2) 3) ∧
    decode (host1 5 { registered := true }) = .ok (.setpancb 1 true) ∧
    decode (host1 6 { out := [⟨5, -5⟩], count := 1 }) =
      .ok (.update 1 [⟨5, -5⟩] 1 ⟨0, 0, 0⟩) ∧
    decode (host1 7 {}) = .ok (.snapshot 1) ∧
    decode (host1 8 { data := fresh.snapshot }) = .ok (.restore 1 fresh.snapshot) := by
  decide +kernel

/-- R240: `INIT` without its strap parameters. -/
theorem test_init_straps : decode (host1 0 { clockHz := 9, rom := [7], romLen := 1 }) =
    .ok (.init 1 9 [7] 1 true false) ∧
    (after (step (State.reset.withPending [⟨0, .host 0, { clockHz := 1, rom := [0], romLen := 1 }⟩]))).flags =
      ⟨true, false⟩ := by
  decide +kernel

theorem test_decode_int : decode { chip := 1, word := .int 0 } = .ok (.tick 1) ∧
    decode { chip := 1, word := .int 1, args := { channel := 5 } } = .ok (.chtick 1 5) ∧
    decode { chip := 1, word := .int 2, args := { channel := 5 } } = .ok (.keyon 1 5) ∧
    decode { chip := 1, word := .int 3, args := { channel := 5 } } = .ok (.keyoff 1 5) := by decide +kernel

theorem test_table_words : decodeTableWord 19 0x62F91 = some (.wrCtrl 0 0x91) ∧
    decodeTableWord 8 0x04 = some (.setroute 0 0 (.rat 0) 0) ∧
    decodeTableWord 8 0x0C = some (.fmtNone 0 0) ∧ decodeTableWord 2 3 = some (.keyoff 0 0) := by decide +kernel

/-! ### Requests, faults, encoding -/

theorem witness_StepRunsDecodedOperation :
    (State.reset.withFetchWord 19 0x62F91).pending = { chip := 0, word := .bus 0x62F91 } :: [] ∧
      decode { chip := 0, word := .bus 0x62F91 } = .ok (.wrCtrl 0 0x91) := by decide +kernel

theorem witness_EmptyQueueIdles : State.reset.pending = [] := rfl

/-- V-X1, V-X2, V-X14, V-X15; and the last valid offset. -/
theorem witness_BusOffsetRange :
    faultOf (step ((only0 fresh).withFetchWord 19 0x63000)) = some (.badOffset 0x230) ∧
    faultOf (step ((only0 fresh).withFetchWord 19 0x3FF00)) = some (.badOffset 0x3FF) ∧
    faultOf (step ((only0 fresh).withPending [{ chip := 5, word := .bus 0x70000 }])) = some (.badChip 5) ∧
    faultOf (step ((only0 fresh).withPending [{ chip := 1, word := .bus 0x70000 }])) = some (.notInitialised 1) ∧
    (busOffset 0x63000).toNat = 0x230 ∧ (busOffset 0x22F00).toNat = 0x22F ∧
    answer (step ((only0 fresh).withFetchWord 19 0x22F00)) = some (.byte 0) := by decide +kernel

theorem witness_UnnamedSelectorsRefused :
    ((State.reset.withPending [{ chip := 0, word := .host 9 }]).pending = [{ chip := 0, word := .host 9 }] ∧
      9 ≤ (9 : BitVec 4).toNat) ∧
    ((State.reset.withPending [{ chip := 0, word := .host 15 }]).pending = [{ chip := 0, word := .host 15 }] ∧
      9 ≤ (15 : BitVec 4).toNat) := by decide +kernel

/-- V-X3. -/
theorem witness_BadChipFault : (Instr.wrCtrl 2 0x01).target = some 2 ∧ Config.maxChips ≤ 2 ∧
    (Instr.init 2 0 [] 0 false false).target = some 2 := by decide

/-- V-X4; and a completed operation for the third clause. -/
theorem witness_NotInitialisedFault : (Instr.rdPlain 1 0x22C).target = some 1 ∧ 1 < Config.maxChips ∧
    ((only0 fresh).chip 1).initialised = false ∧ completes (exec (.wrCtrl 0 1) (only0 fresh)) = true ∧
    completes (exec (.init 1 50 [1] 1 false false) (only0 fresh)) = true ∧
        completes (exec .exit (only0 fresh)) = true := by
  decide +kernel

theorem witness_OtherInstancesUntouched : (Instr.wrCtrl 0 1).target = some 0 ∧
    completes (exec (.wrCtrl 0 1) (only0 fresh)) = true ∧ (1 : Nat) ≠ 0 := by decide +kernel

theorem witness_RomAndClockNeverWritten : completes (exec (.wrSdata 0 0x55)
    (only0 fresh)) = true := by decide +kernel

theorem witness_DecodeEncode : (Instr.wrPlain 0 0x22B 0xFF).wellFormed = true ∧
    (Instr.wrPlain 0 0x100 0).wellFormed = true ∧
    (Instr.rdPlain 0 0x000).wellFormed = true ∧ (Instr.update 0 [⟨32767, -32768⟩] 1 ⟨1, 2,
        3⟩).wellFormed = true := by decide

/-- And a request whose buffer is just outside s16 on one side. -/
theorem witness_DecodedAreWellFormed : bus 0x50C77 = .ok (.wrPlain 0 0x10C 0x77) ∧
    ((State.reset.withPending [host1 6 { out := [⟨0, -32769⟩] }]).pending = [host1 6 { out := [⟨0, -32769⟩] }] ∧
      (host1 6 { out := [⟨0, -32769⟩] }).word = .host 6 ∧
      (⟨0, -32769⟩ : Frame) ∈ (host1 6 { out := [⟨0, -32769⟩] }).args.out ∧ ¬ (-32768 ≤ (-32769 : Int))) := by
  decide +kernel

theorem witness_DecodeFollowsTable : bus 0x62F00 = .ok (.wrCtrl 0 0) ∧
    (busOffset 0x62F00).toNat ≤ 0x22F := by decide +kernel

/-! ### Bus writes -/

/-- V-L1, V-L2 (b), (c). -/
theorem witness_PositionWrite : (only0 latching).Ready 0 ∧ latching.flags.updateAtKeyon = true ∧
    (latching.reg 0x22F).getLsbD 0 = true ∧
    (after (exec (.wrPos2 0 7 0xCC) (only0 latching))).latch 7 2 = 0xCC ∧
    (after (exec (.wrPos2 0 7 0xCC) (only0 latching))).reg 0x0EE = 0 ∧
    (only0 fresh).Ready 0 ∧ fresh.flags.updateAtKeyon = false ∧
    (after (exec (.wrPos0 0 0 0x56) (only0 fresh))).reg 0x00C = 0x56 ∧
    (after (exec (.wrPos1 0 0 0x34) (only0 fresh))).reg 0x00D = 0x34 := by decide +kernel

/-- R148: `0x91`; V-X16. -/
theorem witness_PlainStore : (only0 fresh).Ready 0 ∧ isChanField 0x00 = true ∧ isChanField 0x0B = true ∧
    isChanField 0x0F = true ∧ isChanField 0x1F = true ∧ isPlainOffset 0x100 = true ∧ isPlainOffset 0x13E = true ∧
    isPlainOffset 0x140 = true ∧ isPlainOffset 0x1FF = true ∧ isPlainOffset 0x210 = true ∧
        isPlainOffset 0x213 = true ∧
    isPlainOffset 0x216 = true ∧ isPlainOffset 0x22B = true ∧
    (after (exec (.wrCtrl 0 0x91) (only0 fresh))).readEnabled = true := by decide +kernel

theorem test_plain_stores : (after (exec (.wrKstat 0 0xA0) (only0 fresh))).reg 0x22C = 0xA0 ∧
    (after (exec (.wrMode 0 7 true 0x01) (only0 fresh))).reg 0x20F = 0x01 ∧
    (after (exec (.wrChan 0 7 0x1F 0x12) (only0 fresh))).reg 0x0FF = 0x12 ∧
    (after (exec (.wrPlain 0 0x22B 0x12) (only0 fresh))).reg 0x22B = 0x12 := by decide +kernel

/-- V-AP1. -/
theorem witness_AuxiliaryPanWrite : (only0 { fresh with panCallback := true }).Ready 0 ∧
    (match exec (.wrApan 0 0x11) (only0 { fresh with panCallback := true }) with
      | .next t => t.panLog
      | _ => []) = [⟨0, ⟨0, 0, 1, []⟩, ⟨1, 0, 1, []⟩⟩] ∧
    auxPanIndex 0x11 = 0 ∧ auxPanIndex 0x14 = 3 ∧ auxPanIndex 0x1F = 14 ∧ auxPanIndex 0x10 = 7 ∧
        auxPanIndex 0x20 = 7 ∧
    auxPanIndex 0x81 = 7 := by decide +kernel

/-- V-L3: the latch copy under inhibit. -/
def latchedInhibit : ChipInstance := (latching.setReg 0x22F 0x81).setLatch 0 0 0x56

/-- V-K1, V-L3. -/
theorem witness_KeyOnMaskWrite : (only0 fresh).Ready 0 ∧ (after (exec (.wrKon 0 0x05)
    (only0 fresh))).reg 0x22C = 0x05 ∧
    (only0 latchedInhibit).Ready 0 ∧ latchedInhibit.latching = true ∧
    (after (exec (.wrKon 0 0x01) (only0 latchedInhibit))).reg 0x00C = 0x56 ∧
    (after (exec (.wrKon 0 0x01) (only0 latchedInhibit))).reg 0x22C = 0 := by decide +kernel

/-- R145. -/
theorem witness_KeyOffMaskWrite : (only0 (fresh.setReg 0x22C 0x03)).Ready 0 ∧
    (after (exec (.wrKoff 0 0x01) (only0 (fresh.setReg 0x22C 0x03)))).reg 0x22C = 0x02 ∧
    (after (exec (.wrKoff 0 0x01) (only0 (fresh.setReg 0x22C 0x03)))).reg 0x215 = 0x01 := by decide +kernel

/-- R154. -/
theorem witness_KeyOnOperation : (only0 fresh).Ready 0 ∧ (only0 (fresh.setReg 0x22F 0x80)).Ready 0 ∧
    (after (exec (.keyon 0 3) (only0 fresh))).reg 0x22C = 0x08 ∧
    (after (exec (.keyon 0 3) (only0 (fresh.setReg 0x22F 0x80)))).reg 0x22C = 0 := by decide +kernel

/-- R155. -/
theorem witness_KeyOffOperation : (only0 (fresh.setReg 0x22C 0xFF)).Ready 0 ∧
    (after (exec (.keyoff 0 0) (only0 (fresh.setReg 0x22C 0xFF)))).reg 0x22C = 0xFE := by decide +kernel

/-! ### The serial window -/

/-- An instance with the RAM zone selected at a cursor, `RDEN` set. -/
def ramZone (cursor : Nat) : ChipInstance := { withRegs fresh [(0x22E, 0x80), (0x22F,
    0x10)] with zoneCursor := cursor }

/-- V-SR3, and V-SR2's write in a ROM zone. -/
theorem witness_SerialWrite : (only0 (ramZone 0x3FFF)).Ready 0 ∧
    (after (exec (.wrSdata 0 0xAB) (only0 (ramZone 0x3FFF)))).ramSample 0x1FFF = -21760 ∧
    (after (exec (.wrSdata 0 0xAB) (only0 (ramZone 0x3FFF)))).zoneCursor = 0 ∧
    (only0 { fresh with zoneCursor := 3 }).Ready 0 ∧
    (after (exec (.wrSdata 0 0x55) (only0 { fresh with zoneCursor := 3 }))).zoneCursor = 4 ∧
    (after (exec (.wrSdata 0 0x55) (only0 { fresh with zoneCursor := 3 }))).ram = [] ∧
    (after (exec (.wrSdata 0 0x55) (only0 { fresh with zoneCursor := 3 }))).reg 0x22D = 0x55 := by decide +kernel

theorem witness_ZoneSelect : (only0 (ramZone 5)).Ready 0 ∧
    (after (exec (.wrZone 0 0x02) (only0 (ramZone 5)))).zone = .rom 0x40000 ∧
    (after (exec (.wrZone 0 0x80) (only0 fresh))).zone = .ram ∧
    (after (exec (.wrZone 0 0x80) (only0 (ramZone 5)))).zoneCursor = 0 := by decide +kernel

/-- V-SR1 with `ram[0] = -2`; V-SR3's wrap in a ROM zone; R151 with `RDEN` clear. -/
theorem witness_SerialRead : (only0 ((ramZone 1).setRamSample 0 (-2))).Ready 0 ∧
    answer (exec (.rdSdata 0) (only0 ((ramZone 0).setRamSample 0 (-2)))) = some (.byte 0xFE) ∧
    answer (exec (.rdSdata 0) (only0 ((ramZone 1).setRamSample 0 (-2)))) = some (.byte 0xFF) ∧
    (only0 { fresh.setReg 0x22F 0x10 with zoneCursor := 0x1FFFF }).Ready 0 ∧
    answer (exec (.rdSdata 0) (only0 { fresh.setReg 0x22F 0x10 with zoneCursor := 0x1FFFF })) = some (.byte 0x80) ∧
    (after (exec (.rdSdata 0) (only0 { fresh.setReg 0x22F 0x10 with zoneCursor := 0x1FFFF }))).zoneCursor = 0 ∧
    (only0 fresh).Ready 0 ∧ (fresh.reg 0x22F).getLsbD 4 = false ∧
    answer (exec (.rdSdata 0) (only0 fresh)) = some (.byte 0) := by decide +kernel

theorem witness_PlainRead : (only0 (fresh.setReg 0x22F 0x91)).Ready 0 ∧ isReadOffset 0x000 = true ∧
    isReadOffset 0x22C = true ∧ isReadOffset 0x22E = true ∧ isReadOffset 0x22F = true ∧
    answer (exec (.rdPlain 0 0x22F) (only0 (fresh.setReg 0x22F 0x91))) = some (.byte 0x91) := by decide +kernel

theorem witness_PlainStoreReadsBack : isPlainOffset 0x100 = true ∧
    completes (exec (.wrPlain 0 0x100 7) (only0 fresh)) = true ∧
    completes (exec (.rdPlain 0 0x100) (only0 (after (exec (.wrPlain 0 0x100 7)
        (only0 fresh))))) = true := by decide +kernel

/-- R146's example: the two bytes of `ram[0] = 0x1234`. -/
theorem witness_RamByteView : isS16 (-32768) = true ∧ isS16 32767 = true ∧
    ((fresh.setRamByte 0 0x34).setRamByte 1 0x12).ramSample 0 = 4660 ∧
        (fresh.setRamSample 0 4660).ramByte 1 = 0x12 := by
  decide +kernel

/-- V-H1, V-H2. -/
theorem witness_RomRead : 1 ≤ 5 ∧ 5 ≤ ([1, 2, 3, 4, 5] : List Byte).length ∧ romMaskOf 1 = 0 ∧ romMaskOf 2 = 1 ∧
    romMaskOf 3 = 3 ∧ romMaskOf 4 = 3 ∧ romMaskOf 5 = 7 ∧ romMaskOf 0x200000 = 0x1FFFFF ∧
        romMaskOf 0x200001 = 0x3FFFFF ∧
    (ChipInstance.afterInit 49 [1, 2, 3, 4, 5] 5 false false).romRead 4 = 5 ∧
    (ChipInstance.afterInit 49 [1, 2, 3, 4, 5] 5 false false).romRead 8 = 1 ∧ ramSamplesOf 49 = 16384 ∧
    ramSamplesOf 50 = 16385 := by decide +kernel

/-- S3. -/
theorem test_fetch8 : let i := ChipInstance.afterInit 50 [0x00, 0x40, 0x80, 0x7F] 4 false false
    [i.fetch8 0, i.fetch8 1, i.fetch8 2, i.fetch8 3] = [0, 16384, -32768, 32512] := by decide +kernel

/-! ### The decode forms -/

/-- V-ENC3: the operands of channel 1; and its loop-disable bit, of whose byte only bit 0 counts (V-ENC2). -/
theorem test_operands :
    let i := withRegs fresh [(0x020, 0x56), (0x021, 0x34), (0x022, 0x12), (0x026, 0xFF), (0x027, 0xFF), (0x028, 0x03),
      (0x029, 0x02), (0x02A, 0x01), (0x02B, 0x99), (0x02C, 0xEF), (0x02D, 0xCD), (0x02E, 0xAB), (0x203, 0xFE)]
    i.delta 1 = 0x123456 ∧ i.rdelay 1 = 8191 ∧ i.loopStart 1 = 0x010203 ∧ i.livePos 1 = 0xABCDEF ∧
    i.loopDisabled 1 = false ∧ (i.setReg 0x203 0x01).loopDisabled 1 = true := by decide +kernel

/-- `STD` over the source's ROM with the rate of V-D1 and a fraction at its bound. -/
def halfWay : ChipInstance :=
  (withRegs (std rom4 0x00 0x01 0) [(0x001, 0x80), (0x002, 0x00)]).setChannel 0 ⟨0, 0xFFFF, 32767, -32768⟩

/-- V-G1; and a channel whose position was reprogrammed. -/
theorem witness_NoDecode : (only0 (std rom4 0x0C 0x01 0)).Ready 0 ∧
    answer (exec (.fmtNone 0 0) (only0 halfWay)) = some (.decoded ⟨0, 0xFFFF, 32767, -32768⟩ false) ∧
    answer (exec (.fmtNone 0 0) (only0 (halfWay.setReg 0x00E 0x01))) = some (.decoded ⟨0x10000, 0, 0,
        0⟩ false) := by
  decide +kernel

theorem witness_DecodeFormsComplete : (only0 halfWay).Ready 0 ∧ ChannelOk (((only0 halfWay).chip 0).channel 0) ∧
    completes (exec (.fmtDpcm4 0 0 true) (only0 halfWay)) = true := by decide +kernel

/-- V-A1, tick 1. -/
theorem test_pcm8 : answer (exec (.fmtPcm8 0 0 false) (only0 (std rom4 0x00 0x01 0))) = some (.decoded ⟨1, 0,
    5120, 0⟩ true) ∧
    answer (exec (.fmtPcm8 0 0 true) (only0 (std [0x80, 10, 20, 30] 0x20 0x01 3))) = some (.decoded ⟨2, 0, 5120,
        0⟩ true) := by
  decide +kernel

/-- The 16-bit ROM of V-E1. -/
def rom16 : List Byte := [0x00, 0x00, 0x34, 0x12, 0x00, 0xC0, 0x00, 0x80]

/-- V-E1, tick 1; V-E2, tick 3 with the state of its tick 2. -/
theorem test_pcm16 : answer (exec (.fmtPcm16 0 0 false) (only0 (std rom16 0x04 0x01 0))) =
      some (.decoded ⟨2, 0, 4660, 0⟩ true) ∧
    answer (exec (.fmtPcm16 0 0 false)
      (only0 (((std rom16 0x04 0x00 4).setReg 0x008 1).setChannel 0 ⟨4, 0, -16384, 4660⟩))) =
      some (.decoded ⟨1, 0, 13312, -16384⟩ true) := by decide +kernel

/-- V-F1, tick 8 with the state of its tick 7; V-F7, tick 1. -/
theorem test_dpcm4 :
    answer (exec (.fmtDpcm4 0 0 false) (only0 ((std [0x00, 0x17, 0x8F, 0x77, 0x77, 0x77, 0x88,
        0x00] 0x08 0x01 3).setChannel 0
      ⟨3, 0x8000, 21248, 8704⟩))) = some (.decoded ⟨4, 0, 32767, 21248⟩ true) ∧
    answer (exec (.fmtDpcm4 0 0 true) (only0 (std [0x88, 0x21, 0x43, 0x00] 0x28 0x01 3))) =
      some (.decoded ⟨2, 0x8000, 2304, 0⟩ true) := by decide +kernel

/-- Both directions and both widths play a stretch of one step without a sentinel, and one of no step. -/
theorem witness_PcmPlaysThrough :
    (only0 (std rom4 0x00 0x01 0)).Ready 0 ∧ ChannelOk (((only0 (std rom4 0x00 0x01 0)).chip 0).channel 0) ∧
    stepCount false 0 0x10000 = 1 ∧ stepCount true 0 0x10000 = 1 ∧ (std rom4 0x00 0x01 0).bytes24 0 = 0x10000 ∧
    ((std rom4 0x00 0x01 0).resume 0) = ⟨0, 0, 0, 0⟩ ∧
    (∀ k : Nat, k ≤ 1 → 1 ≤ k → (std rom4 0x00 0x01 0).fetch8 (0 + 1 * k) ≠ -32768) ∧
    (∀ k : Nat, k ≤ 1 → 1 ≤ k → (std rom16 0x04 0x01 0).fetch16 (0 + 2 * 1 * k) ≠ -32768) ∧
    (∀ k : Nat, k ≤ 1 → 1 ≤ k → (std [1, 2, 3, 4] 0x20 0x01 0).fetch8 (0 + -1 * k) ≠ -32768) ∧
    stepCount false 0 0x8000 = 0 ∧ stepCount false 0xFFFF 0xFFFFFF = 256 ∧ stepCount true 0 0xFFFFFF = 256 := by
  decide +kernel

/-- V-A1, tick 3 with the state of its tick 2 (looping disabled); V-B2 (the loop start is a sentinel). -/
theorem witness_PcmSampleEnds :
    let a := (std rom4 0x00 0x01 2).setChannel 0 ⟨2, 0, 7680, 5120⟩
    let b := ((std rom4 0x00 0x00 2).setReg 0x008 3).setChannel 0 ⟨2, 0, 7680, 5120⟩
    (only0 a).Ready 0 ∧ ChannelOk (((only0 a).chip 0).channel 0) ∧ stepCount false 0 0x10000 = 1 ∧
    a.fetch8 (2 + 1 * 1) = -32768 ∧ (a.reg 0x201).getLsbD 0 = true ∧ (b.reg 0x201).getLsbD 0 = false ∧
        b.fetch8 (b.bytes24 8) = -32768 ∧
    (std rom16 0x04 0x01 4).fetch16 (4 + 2 * 1 * 1) = -32768 ∧
    answer (exec (.fmtPcm8 0 0 false) (only0 a)) = some (.decoded ⟨3, 0, 0, 7680⟩ true) ∧
    answer (exec (.fmtPcm8 0 0 false) (only0 b)) = some (.decoded ⟨3, 0, 0, 7680⟩ true) ∧
    (after (exec (.fmtPcm8 0 0 false) (only0 a))).reg 0x22C = 0 := by decide +kernel

/-- V-B1, tick 3 with the state of its tick 2; V-E2, tick 3; V-F6, the tick after `val = 1280`. -/
theorem witness_PcmLoops :
    let a := (std rom4 0x00 0x00 2).setChannel 0 ⟨2, 0, 7680, 5120⟩
    let b := (std rom16 0x04 0x00 4).setReg 0x008 1
    let d := ((std [0x00, 0x12, 0x88, 0x00] 0x08 0x00 1).setReg 0x008 1).setChannel 0 ⟨1, 0x8000, 1280, 256⟩
    (only0 a).Ready 0 ∧ ChannelOk (((only0 a).chip 0).channel 0) ∧ stepCount false 0 0x10000 = 1 ∧
        (a.reg 0x201).getLsbD 0 = false ∧
    a.fetch8 (2 + 1) = -32768 ∧ a.fetch8 (a.bytes24 8) ≠ -32768 ∧ b.fetch16 (4 + 2 * 1) = -32768 ∧
    b.fetch16 (b.bytes24 8) ≠ -32768 ∧
    answer (exec (.fmtPcm8 0 0 false) (only0 a)) = some (.decoded ⟨0, 0, 2560, 7680⟩ true) ∧
    (only0 d).Ready 0 ∧ ChannelOk (((only0 d).chip 0).channel 0) ∧ (d.reg 0x201).getLsbD 0 = false ∧
    d.romRead ((3 + 1) / 2) = 0x88 ∧ d.romRead (d.bytes24 8) ≠ 0x88 ∧
    answer (exec (.fmtDpcm4 0 0 false) (only0 d)) = some (.decoded ⟨1, 0, 1536, 1280⟩ true) ∧
    (after (exec (.fmtDpcm4 0 0 false) (only0 d))).reg 0x22C = 0x01 := by decide +kernel

/-- R176, R185 on V-B1's ROM: two steps of which the second loops, and three of which the last plays on. -/
theorem test_loops_and_plays_on :
    let a := (std rom4 0x00 0x00 1).setReg 0x002 0x02
    answer (exec (.fmtPcm8 0 0 false) (only0 a)) = some (.decoded ⟨0, 0, 2560, 7680⟩ true) ∧
    answer (exec (.fmtPcm8 0 0 false) (only0 (a.setReg 0x002 0x03))) =
      some (.decoded ⟨1, 0, 5120, 2560⟩ true) := by decide +kernel

/-- V-F4, tick 1: two nibbles. -/
theorem witness_DpcmPlaysThrough :
    let a := (std [0x00, 0x78, 0x78, 0x78] 0x08 0x01 0).setReg 0x002 0x02
    (only0 a).Ready 0 ∧ ChannelOk (((only0 a).chip 0).channel 0) ∧ a.bytes24 0 = 0x20000 ∧
        stepCount false 0 0x20000 = 2 ∧
    (∀ k : Nat, k ≤ 2 → 1 ≤ k → a.romRead ((0 + 1 * (k : Int)) / 2) ≠ 0x88) ∧
    answer (exec (.fmtDpcm4 0 0 false) (only0 a)) = some (.decoded ⟨1, 0, 12544, 0⟩ true) := by decide +kernel

/-- V-F1, tick 12 with the state of its tick 11; and a loop start whose byte is `0x88`. -/
theorem witness_DpcmSampleEnds :
    let rom : List Byte := [0x00, 0x17, 0x8F, 0x77, 0x77, 0x77, 0x88, 0x00]
    let a := (std rom 0x08 0x01 5).setChannel 0 ⟨5, 0x8000, 32767, 32767⟩
    let b := ((std rom 0x08 0x00 5).setReg 0x008 6).setChannel 0 ⟨5, 0x8000, 32767, 32767⟩
    (only0 a).Ready 0 ∧ ChannelOk (((only0 a).chip 0).channel 0) ∧ stepCount false 0 0x10000 = 1 ∧
    a.romRead ((11 + 1 * 1) / 2) = 0x88 ∧ (a.reg 0x201).getLsbD 0 = true ∧ b.romRead (b.bytes24 8) = 0x88 ∧
    answer (exec (.fmtDpcm4 0 0 false) (only0 a)) = some (.decoded ⟨6, 0, 0, 32767⟩ true) ∧
    answer (exec (.fmtDpcm4 0 0 false) (only0 b)) = some (.decoded ⟨6, 0, 0, 32767⟩ true) := by decide +kernel

/-! ### The channel's tick and the native tick -/

theorem witness_TickDecodesByModeByte :
    decode ⟨0, .mode (((only0 (std rom4 0x24 0x01 0)).chip 0).reg (0x200 + 2 * (0 : Fin 8).val)), { channel := 0 }⟩ =
      .ok (.fmtPcm16 0 0 true) ∧
    completes (exec (.fmtPcm16 0 0 true) (only0 (std rom4 0x24 0x01 0))) = true := by decide +kernel

/-- V-A1, tick 1: the position written back, the state persisted, `trunc(5120 * 0.5)` in the ring. -/
theorem witness_ChannelTick : (only0 (std rom4 0x00 0x01 0)).Ready 0 ∧
    (after (exec (.chtick 0 0) (only0 (std rom4 0x00 0x01 0)))).livePos 0 = 1 ∧
    (after (exec (.chtick 0 0) (only0 (std rom4 0x00 0x01 0)))).channel 0 = ⟨1, 0, 5120, 0⟩ ∧
    (after (exec (.chtick 0 0) (only0 (std rom4 0x00 0x01 0)))).ramSample 0 = 2560 := by decide +kernel

/-- V-C2, tick 1: below address 0 the state keeps the untruncated position, the register its low 24 bits. -/
theorem test_chtick_below_zero :
    (after (exec (.chtick 0 0) (only0 (std [10, 20, 0x80, 30] 0x20 0x01 0)))).channel 0 = ⟨-1, 0, 7680, 0⟩ ∧
    (after (exec (.chtick 0 0) (only0 (std [10, 20, 0x80, 30] 0x20 0x01 0)))).livePos 0 = 0xFFFFFF := by
  decide +kernel

/-- V-A1, tick 1; V-E1, tick 2. -/
theorem witness_TickSumsChannels : (only0 (std rom4 0x00 0x01 0)).Ready 0 ∧
    answer (exec (.tick 0) (only0 (std rom4 0x00 0x01 0))) = some (.frame ⟨3620, 3620⟩) ∧
    (std rom4 0x00 0x01 0).reg 0x22C = 0x01 ∧
    (only0 (std rom4 0x00 0x01 0).advanceRing).Ready 0 ∧
    answer (exec (.tick 0) (only0 (std rom16 0x04 0x01 2))) = some (.frame ⟨-11585, -11585⟩) := by decide +kernel

/-- V-R4, R203's wrap, and V-M3's swapped routes on a seed. -/
theorem witness_TickWithoutChannels :
    (only0 (fresh.setRamSample 0 1000)).Ready 0 ∧ ((only0
        (fresh.setRamSample 0 1000)).chip 0).reg 0x22C = 0 ∧
    answer (exec (.tick 0) (only0 (fresh.setRamSample 0 1000))) = some (.frame ⟨1000, 1000⟩) ∧
    (after (exec (.tick 0) (only0 (fresh.setRamSample 0 1000)))).ram = [] ∧
    (after (exec (.tick 0) (only0 { fresh with reverbCursor := 8191 }))).reverbCursor = 0 ∧
    answer (exec (.tick 0) (only0 { fresh.setRamSample 0 1000 with volume := #v[.rat (1 / 2), .rat (-1)], routeMask := #v[3,
        1] })) =
      some (.frame ⟨-500, 500⟩) := by decide +kernel

/-! ### The resampler -/

/-- V-U4. -/
theorem witness_UpdateDisabled : (only0 fresh).Ready 0 ∧ 3 ≤ [Frame.mk 5 5, ⟨5, 5⟩, ⟨5, 5⟩].length ∧
    (((only0 fresh).chip 0).reg 0x22F).getLsbD 0 = false ∧
    (fresh.update 3 [⟨5, 5⟩] 1).2 = [⟨5, 5⟩] := by decide +kernel

/-- V-U3: the second pass on the frames of V-A2. -/
theorem witness_UpdateMixesTicks : (only0 (std rom4 0x00 0x01 3)).Ready 0 ∧
    (((only0 (std rom4 0x00 0x01 3)).chip 0).reg 0x22F).getLsbD 0 = true ∧
        3 ≤ [Frame.mk 100 (-100), ⟨0, 0⟩, ⟨0, 0⟩].length ∧
    mixBuffer [⟨1810, 1810⟩, ⟨3620, 3620⟩, ⟨5430, 5430⟩, ⟨0, 0⟩] 3 0 [⟨100, -100⟩, ⟨32000, -32768⟩, ⟨0, 0⟩, ⟨7,
        7⟩] =
      [⟨1910, 1710⟩, ⟨32767, -29148⟩, ⟨5430, 5430⟩, ⟨7, 7⟩] := by decide +kernel

/-- V-U2: two ticks by V-A2. -/
theorem test_two_ticks : (ChipInstance.ticks 2 (std rom4 0x00 0x01 3)).2 = [⟨1810, 1810⟩, ⟨3620,
    3620⟩] := by decide +kernel

/-- V-X12. -/
theorem witness_ShortBufferFault : (only0 fresh).Ready 0 ∧ ([Frame.mk 0 0, ⟨0, 0⟩, ⟨0,
    0⟩] : List Frame).length < 4 := by
  decide +kernel

theorem witness_NativeTickCount : 1 ≤ 1 := Nat.le_refl 1

/-! ### Persistence -/

/-- V-S1. -/
theorem witness_SnapshotHolds : (only0 fresh).Ready 0 ∧
    answer (exec (.snapshot 0) (only0 fresh)) = some (.snapshot fresh.snapshot) ∧
        fresh.snapshot.zoneLimit = 0x20000 := by
  decide +kernel

/-- V-S2's data: the RAM zone with the cursor at its last place, and the ring's last slot. -/
def saved : Snapshot := { (ramZone 0x3FFF).snapshot with reverbCursor := 8191 }

theorem saved_accepted : fresh.Accepts saved where
  ramSize := by decide +kernel
  regs := by decide +kernel
  ram := by decide +kernel
  zoneCursor := by decide +kernel
  reverbCursor := by decide +kernel
  channels := by decide +kernel

theorem witness_RestoreReplaces : (only0 fresh).Ready 0 ∧ ((only0 fresh).chip 0).Accepts saved ∧
    (after (exec (.restore 0 saved) (only0 fresh))).zoneLimit = 0x4000 ∧
    (after (exec (.restore 0 saved) (only0 fresh))).zoneCursor = 0x3FFF := by
  refine ⟨by decide +kernel, ?_, by decide +kernel, by decide +kernel⟩
  exact saved_accepted

/-- V-S4: the cursor at the limit of the saved zone. -/
theorem witness_BadSnapshotFault : (only0 fresh).Ready 0 ∧ ¬ ((only0 fresh).chip 0).Accepts
    (ramZone 0x4000).snapshot :=
  ⟨by decide +kernel, fun h => absurd h.zoneCursor (by decide +kernel)⟩

/-- V-S4, V-X13: the other conditions. -/
theorem test_bad_snapshots :
    faultOf (exec (.restore 0 (ramZone 0x4000).snapshot) (only0 fresh)) = some (.badSnapshot .zoneCursor) ∧
    completes (exec (.restore 0 { fresh with zoneCursor := 0x4000 }.snapshot) (only0 fresh)) = true ∧
    faultOf (exec (.restore 0 { saved with reverbCursor := 8192 }) (only0 fresh)) = some
        (.badSnapshot .reverbCursor) ∧
    faultOf (exec (.restore 0 { saved with chan := saved.chan.set 0 ⟨0, 0x10000, 0, 0⟩ }) (only0 fresh)) =
      some (.badSnapshot .pfrac) ∧
    faultOf (exec (.restore 0 { saved with ramSamples := 16384 }) (only0 fresh)) = some
        (.badSnapshot .ramSize) := by
  decide +kernel

theorem fresh_inv : fresh.Inv := ChipInstance.afterInit_inv _ _ _ _ _ (by decide)

/-- A running instance and a later state of it. -/
theorem witness_SnapshotRoundTrip : (only0 (fresh.keyOn 3)).Ready 0 ∧ (only0 (fresh.setReg 0x22F 0x01)).Ready 0 ∧
    ((only0 (fresh.keyOn 3)).chip 0).Inv ∧
    ((only0 (fresh.setReg 0x22F 0x01)).chip 0).SameConfig ((only0 (fresh.keyOn 3)).chip 0) := by
  refine ⟨by decide +kernel, by decide +kernel, ?_, by decide +kernel⟩
  exact ChipInstance.keyOn_inv fresh_inv 3

/-! ### Host configuration -/

/-- V-H1, V-H3, V-H4. -/
theorem witness_InitSetsEverything : 0 < Config.maxChips ∧ 1 ≤ 50 ∧ 1 ≤ 1 ∧ 1 ≤ ([0x55] : List Byte).length ∧
    (after (exec (.init 0 50 [0x55] 1 true false) (only0 (ramZone 5)))).romMask = 0 ∧
    (after (exec (.init 0 50 [0x55] 1 true false) (only0 (ramZone 5)))).zoneCursor = 0 := by decide +kernel

/-- V-X10, V-X11. -/
theorem witness_InitArgumentFault : 1 < Config.maxChips ∧
    faultOf (exec (.init 1 0 [0] 1 false false) State.reset) = some (.badArgument (.initClock 0)) ∧
    faultOf (exec (.init 1 18432000 [] 0 false false) State.reset) = some (.badArgument (.initRomLen 0)) ∧
    faultOf (exec (.init 1 1 [1, 2] 3 false false) State.reset) = some (.badArgument
        (.initRomBuffer 2 3)) := by decide +kernel

/-- V-H5. -/
theorem witness_ExitEndsAll : (Instr.rdPlain 0 0x22C).target = some 0 ∧ 0 < Config.maxChips ∧
    (match exec .exit (only0 fresh) with
      | .next t => faultOf (exec (.rdPlain 0 0x22C) t)
      | _ => none) = some (.notInitialised 0) := by decide +kernel

/-- V-Z1: registers and cursors cleared, the ring and the gain kept. -/
theorem witness_ResetClears :
    let a := { (std rom4 0x00 0x01 3).setRamSample 0 1280 with reverbCursor := 4 }
    (only0 a).Ready 0 ∧ (after (exec (.reset 0) (only0 a))).regs = [] ∧
    (after (exec (.reset 0) (only0 a))).ramSample 0 = 1280 ∧ (after (exec (.reset 0) (only0 a))).gain[0] = .rat 4 ∧
    (after (exec (.reset 0) (only0 a))).reverbCursor = 0 := by decide +kernel

/-- V-X9; and numbers that no rational writes (R245, R246). -/
theorem witness_HostSettings : (only0 fresh).Ready 0 ∧ 0 ≤ (HostReal.rat 0).value ∧
    0 ≤ (HostReal.named false 2).value ∧
    (after (exec (.setgain 0 7 (.rat 4)) (only0 fresh))).gain[7] = .rat 4 ∧
    (after (exec (.setgain 0 7 (.named false 2)) (only0 fresh))).gain[7] = .named false 2 ∧
    (after (exec (.setroute 0 0 (.rat (-7 / 2)) 3) (only0 fresh))).volume[0] = .rat (-7 / 2) ∧
    (after (exec (.setroute 0 0 (.named true 2) 3) (only0 fresh))).volume[0] = .named true 2 ∧
    (after (exec (.setroute 0 0 (.rat (-7 / 2)) 3) (only0 fresh))).routeMask[0] = 3 ∧
    (after (exec (.setpancb 0 true) (only0 fresh))).panCallback = true :=
  ⟨by decide +kernel, HostReal.value_nonneg _ (by decide), HostReal.value_nonneg _ (by decide),
    by decide +kernel, by decide +kernel, by decide +kernel, by decide +kernel, by decide +kernel,
    by decide +kernel⟩

/-- V-X5 to V-X8; and a negative number that no rational writes. -/
theorem witness_SettingArgumentFault : (only0 fresh).Ready 0 ∧
    faultOf (exec (.setgain 0 8 (.rat 1)) (only0 fresh)) = some (.badArgument (.gainChannel 8)) ∧
    faultOf (exec (.setgain 0 0 (.rat (-1 / 2))) (only0 fresh)) =
      some (.badArgument (.gainValue (.rat (-1 / 2)))) ∧
    faultOf (exec (.setgain 0 0 (.named true 2)) (only0 fresh)) =
      some (.badArgument (.gainValue (.named true 2))) ∧
    faultOf (exec (.setroute 0 2 (.rat 1) 1) (only0 fresh)) = some (.badArgument (.routeIndex 2)) ∧
    faultOf (exec (.setroute 0 0 (.rat 1) 4) (only0 fresh)) = some (.badArgument (.routeMask 4)) := by
  decide +kernel

/-! ### The real numbers -/

theorem witness_VolumeTable : (0 : Byte).toNat < (255 : Byte).toNat ∧ (∃ x, (volTab 0).Denotes x) ∧
    ∃ y, (volTab 255).Denotes y := ⟨by decide, ⟨_, rfl⟩, ⟨_, rfl⟩⟩

theorem witness_PanTable : (0 : Fin 15) < 14 ∧ (∃ x, (panTab 0).Denotes x) ∧ ∃ y, (panTab 14).Denotes y :=
  ⟨by decide, ⟨_, rfl⟩, ⟨_, rfl⟩⟩

/-- V-ENC3, V-ENC4: the ends of both pan ranges, and the bytes next to them. -/
theorem witness_ResolvedGains : panIndex 0x11 = 0 ∧ panIndex 0x81 = 0 ∧ panIndex 0x1F = 14 ∧ panIndex 0x8F = 14 ∧
    panIndex 0x18 = 7 ∧ panIndex 0x10 = 7 ∧ panIndex 0x20 = 7 ∧ panIndex 0x80 = 7 ∧ panIndex 0x90 = 7 ∧
        panIndex 0xFF = 7 ∧
    (withRegs fresh [(0x003, 0x40), (0x004, 0xF0)]).bval 0 = 255 := by decide +kernel

/-- V-P1: the cap. -/
theorem test_gain_cap : let i := withRegs { fresh with gain := fresh.gain.set 0 (.rat 8) } [(0x005, 0x1F)]
    i.leftGain 0 = ⟨9 / 5, 0, 1, []⟩ ∧ i.rightGain 0 = ⟨0, 0, 1, []⟩ ∧ i.reverbGain 0 = ⟨1, 0, 1, []⟩ := by decide +kernel

theorem witness_ExactArithmetic : (∃ a, (panTab 7).Denotes a) ∧ (∃ b, (volTab 64).Denotes b) ∧
    (∃ a, ((panTab 7).times (.named true 2)).Denotes a) ∧ ∃ a, (ExactReal.ofInt (-5)).Denotes a :=
  ⟨⟨_, rfl⟩, ⟨_, rfl⟩, ⟨_, rfl⟩, ⟨_, rfl⟩⟩

/-- `5120 * PANTAB[7]`, the accumulator of V-A1's first tick: its bounds have one integer part. -/
def acc5120 : ExactReal := ExactReal.zero.add ((panTab 7).scale 5120)

theorem witness_TruncationIsSound : (∃ r, acc5120.Denotes r) ∧
    acc5120.settled startBits = true ∧ acc5120.trunc = 3620 ∧ (0 : ℝ) < 1 := by
  refine ⟨⟨_, rfl⟩, by decide +kernel, by decide +kernel, one_pos⟩

/-- `p * sqrt 2 / q` with `q^2 = 2 * p^2 + 1` (the convergents of `sqrt 2`): below 1 by less than `10^-80`. -/
def nearOne : ExactReal := ⟨[⟨13264095873479197467931567359068050319018 / 18758264276891285681250881852014625703843, 0, 2, []⟩]⟩

/-- R15, R20: its integer part is 0, which an enclosure to 128 binary places does not settle. -/
theorem test_trunc_near_integer : nearOne.settled startBits = false ∧ nearOne.trunc = 0 := by
  have h : nearOne.settled startBits = false := by decide +kernel
  have e : firstFrom nearOne.settled startBits = some (startBits + 135) :=
    firstFrom_eq (by decide +kernel) (by decide +kernel)
  refine ⟨h, ?_⟩
  rw [ExactReal.trunc, if_neg (by simp [h]), e]
  decide +kernel

/-! ### Invariants -/

/-- A legal state with a request pending that completes. -/
theorem witness_StepKeepsInv : ((only0 fresh).withFetchWord 19 0x62F91).Inv ∧
    completes (step ((only0 fresh).withFetchWord 19 0x62F91)) = true := by
  refine ⟨fun id h => ?_, by decide +kernel⟩
  have h1 : ((only0 fresh).withFetchWord 19 0x62F91).chip id = (only0 fresh).chip id := rfl
  rw [h1, only0, State.chip_setChip]
  split
  · exact fresh_inv
  · rw [State.reset_chip]
    exact ChipInstance.blank_inv

/-- The whole machine's first steps: from reset, a bus word faults, and Init completes. -/
theorem test_from_reset : faultOf (step (State.reset.withFetchWord 19 0x62F91)) = some (.notInitialised 0) ∧
    completes (step (State.reset.withPending [⟨0, .host 0, { clockHz := 1, rom := [0], romLen := 1 }⟩])) = true := by decide +kernel

end Sys2Proof.Tests
end

section
/-! The arithmetic of R20 on monomials and exact reals, one law per operation, and the statement that it is the
arithmetic of the reals (O57). -/

namespace Sys2Proof

/-! ### Monomials -/

@[simp] theorem Monomial.value_zero : Monomial.zero.value = 0 := by simp [Monomial.zero, Monomial.value_nil]

theorem Monomial.value_eq_zero_of_coeff {x : Monomial} (h : x.coeff = 0) : x.value = 0 := by
  simp [Monomial.value, h]

theorem Monomial.value_ofRat (q : Rat) : (Monomial.ofRat q).value = q := by
  rw [Monomial.ofRat, Monomial.value_nil, rootValue_one, mul_one]

/-- Powers of ten and radicands of a product are collected. -/
theorem rootValue_mul (t u d e : Nat) : rootValue t d * rootValue u e = rootValue (t + u) (d * e) := by
  have hten : (10 : ℝ) ^ (-((t + u : Nat) : ℝ) / 320) = 10 ^ (-(t : ℝ) / 320) * 10 ^ (-(u : ℝ) / 320) := by
    rw [← Real.rpow_add (by norm_num)]
    push_cast
    ring_nf
  have hrad : √((d * e : Nat) : ℝ) = √(d : ℝ) * √(e : ℝ) := by
    rw [Nat.cast_mul, Real.sqrt_mul (Nat.cast_nonneg d)]
  unfold rootValue
  rw [hten, hrad]
  ring

theorem Monomial.value_mul (x y : Monomial) : (x.mul y).value = x.value * y.value := by
  rw [Monomial.mul, Monomial.value_norm]
  simp only [Monomial.value, ← rootValue_mul, List.map_append, List.prod_append, Rat.cast_mul]
  ring

theorem Monomial.value_scale (q : Rat) (x : Monomial) : (x.scale q).value = q * x.value := by
  unfold Monomial.scale
  split
  next h =>
    have hzero : (q : ℝ) * x.coeff = 0 := by exact_mod_cast h
    rw [Monomial.value_zero, Monomial.value, ← mul_assoc, ← mul_assoc, hzero, zero_mul, zero_mul]
  next => simp only [Monomial.value, Rat.cast_mul, mul_assoc]

theorem Monomial.value_times (x : Monomial) (g : HostReal) : (x.times g).value = x.value * g.value := by
  cases g with
  | rat q => exact (x.value_scale q).trans (mul_comm _ _)
  | named negative k =>
    unfold Monomial.times
    dsimp only
    split
    next h => rw [Monomial.value_zero, Monomial.value_eq_zero_of_coeff h, zero_mul]
    next =>
      have hcoeff : ((if negative then -x.coeff else x.coeff : Rat) : ℝ) * sizeValue k =
          x.coeff * (HostReal.named negative k).value := by
        cases negative <;> simp [HostReal.value]
      simp only [Monomial.value, Factor.value, List.map_cons, List.prod_cons]
      linear_combination (rootValue x.tens x.rad * (x.factors.map Factor.value).prod) * hcoeff

/-! ### Sums -/

/-- Like terms are added by their coefficients. -/
theorem Monomial.value_add_like {u t : Monomial}
    (h : u.tens = t.tens ∧ u.rad = t.rad ∧ u.factors = t.factors) :
    Monomial.value ⟨u.coeff + t.coeff, u.tens, u.rad, u.factors⟩ = u.value + t.value := by
  obtain ⟨htens, hrad, hfactors⟩ := h
  simp only [Monomial.value, htens, hrad, hfactors, Rat.cast_add]
  ring

@[simp] theorem sumValue_nil : sumValue [] = 0 := rfl

@[simp] theorem sumValue_cons (u : Monomial) (us : List Monomial) : sumValue (u :: us) = u.value + sumValue us :=
  List.sum_cons

theorem sumValue_addTerm (us : List Monomial) (t : Monomial) : sumValue (addTerm us t) = sumValue us + t.value := by
  induction us with
  | nil =>
    unfold addTerm
    split
    next h => simp [Monomial.value_eq_zero_of_coeff h]
    next => simp
  | cons u us ih =>
    unfold addTerm
    split_ifs with hzero hlike hcancel
    · simp [Monomial.value_eq_zero_of_coeff hzero]
    · have hsum := Monomial.value_add_like hlike
      rw [Monomial.value_eq_zero_of_coeff hcancel] at hsum
      rw [sumValue_cons]
      linarith
    · rw [sumValue_cons, sumValue_cons, Monomial.value_add_like hlike]
      ring
    · rw [sumValue_cons, add_comm]
    · rw [sumValue_cons, sumValue_cons, ih, add_assoc]

/-- What multiplies each term multiplies the sum. -/
theorem sumValue_map_of_value {f : Monomial → Monomial} {c : ℝ} (hf : ∀ t, (f t).value = t.value * c)
    (us : List Monomial) : sumValue (us.map f) = sumValue us * c := by
  unfold sumValue
  rw [List.map_map, ← List.sum_map_mul_right]
  exact congrArg List.sum (List.map_congr_left fun t _ => hf t)

theorem sumValue_scale (q : Rat) (x : ExactReal) : sumValue (x.scale q).terms = q * sumValue x.terms := by
  unfold ExactReal.scale
  split
  next h => simp [ExactReal.zero, h]
  next => rw [mul_comm, sumValue_map_of_value fun t => (t.value_scale q).trans (mul_comm _ _)]

theorem sumValue_times (x : ExactReal) (g : HostReal) : sumValue (x.times g).terms = sumValue x.terms * g.value := by
  cases g with
  | rat q => exact (sumValue_scale q x).trans (mul_comm _ _)
  | named negative k => exact sumValue_map_of_value (fun t => t.value_times (.named negative k)) x.terms

theorem sumValue_ofInt (v : Int) : sumValue (ExactReal.ofInt v).terms = v := by
  rw [ExactReal.ofInt, ExactReal.add, sumValue_addTerm, Monomial.value_ofRat]
  simp [ExactReal.zero]

/-- Settles O57, from the law of each operation above. -/
theorem exactArithmetic : Obligations.ExactArithmetic := by
  unfold Obligations.ExactArithmetic
  simp only [Monomial.denotes_iff, ExactReal.denotes_iff]
  refine ⟨?_, ?_, ?_, ?_, ?_, ?_, fun v => (sumValue_ofInt v).symm⟩
  · rintro x y _ _ rfl rfl; exact (x.value_mul y).symm
  · rintro q x _ rfl; exact (x.value_scale q).symm
  · rintro x t _ _ rfl rfl; exact (sumValue_addTerm x.terms t).symm
  · rintro q x _ rfl; exact (sumValue_scale q x).symm
  · rintro g x _ rfl; exact (x.value_times g).symm
  · rintro g x _ rfl; exact (sumValue_times x g).symm

end Sys2Proof
end

section
/-! The integer part of an exact real (R15, R20, D7): bounds around a real that is no integer settle its integer part
at some precision, so a real whose bounds never settle is the integer between them (O58). -/

namespace Sys2Proof

/-! ### Integer parts -/

theorem isTrunc_intCast (v : Int) : IsTrunc v v := by
  unfold IsTrunc
  split
  · exact ⟨le_rfl, lt_add_one _⟩
  · exact ⟨sub_one_lt _, le_rfl⟩

/-- All rationals strictly between two neighbouring integers have one integer part. -/
theorem truncRat_of_between {n : Int} {q : Rat} (h1 : (n : ℝ) < q) (h2 : (q : ℝ) < n + 1) :
    truncRat q = if 0 ≤ n then n else n + 1 := by
  have h1' : (n : Rat) < q := by exact_mod_cast h1
  have h2' : q < (n : Rat) + 1 := by exact_mod_cast h2
  have hfloor : ⌊q⌋ = n := Int.floor_eq_iff.2 ⟨h1'.le, h2'⟩
  have hceil : ⌈q⌉ = n + 1 := Int.ceil_eq_iff.2 ⟨by push_cast; linarith, by push_cast; exact h2'.le⟩
  have hsign : 0 ≤ q ↔ 0 ≤ n := by rw [← hfloor]; exact Int.floor_nonneg.symm
  rw [truncRat_eq, hfloor, hceil]
  simp only [hsign]

/-! ### The bounds -/

/-- The bounds come as close as one likes. -/
theorem ExactReal.width_lt (x : ExactReal) {ε : ℝ} (hε : 0 < ε) :
    ∃ n, ∀ bits, n ≤ bits → (x.upper bits : ℝ) - x.lower bits < ε := by
  have h := (x.tendsto.2.sub x.tendsto.1).eventually_lt_const (by rwa [sub_self])
  exact Filter.eventually_atTop.1 h

/-- Bounds around a real that is no integer have one integer part from some precision on. -/
theorem ExactReal.settled_of_not_integer (x : ExactReal) (h : ∀ v : Int, sumValue x.terms ≠ v) :
    ∃ n, ∀ bits, n ≤ bits → x.settled bits = true := by
  have hfloor : (⌊sumValue x.terms⌋ : ℝ) < sumValue x.terms := (Int.floor_le _).lt_of_ne (h _).symm
  have hlower := x.tendsto.1.eventually_const_lt hfloor
  have hupper := x.tendsto.2.eventually_lt_const (Int.lt_floor_add_one (sumValue x.terms))
  obtain ⟨n, hn⟩ := Filter.eventually_atTop.1 (hlower.and hupper)
  refine ⟨n, fun bits hbits => ?_⟩
  obtain ⟨hl, hu⟩ := hn bits hbits
  obtain ⟨hle, hge⟩ := x.bounds bits
  rw [ExactReal.settled, decide_eq_true_iff, truncRat_of_between hl (by linarith),
    truncRat_of_between (by linarith) hu]

theorem ExactReal.isTrunc_of_settled (x : ExactReal) {bits : Nat} (h : x.settled bits = true) :
    IsTrunc (sumValue x.terms) (truncRat (x.lower bits)) :=
  isTrunc_of_bounds _ _ _ (x.bounds bits).1 (x.bounds bits).2 (of_decide_eq_true h)

/-- Narrow bounds around an integer have it as the ceiling of the lower. -/
theorem ExactReal.ceil_lower_of_narrow (x : ExactReal) {v : Int} (hv : sumValue x.terms = v) {bits : Nat}
    (h : x.narrow bits = true) : ⌈x.lower bits⌉ = v := by
  obtain ⟨hl, hu⟩ := x.bounds bits
  rw [hv] at hl hu
  have hl' : x.lower bits ≤ v := by exact_mod_cast hl
  have hu' : (v : Rat) ≤ x.upper bits := by exact_mod_cast hu
  have hwidth : x.upper bits - x.lower bits < 1 := of_decide_eq_true h
  exact Int.ceil_eq_iff.2 ⟨by linarith, hl'⟩

theorem ExactReal.onlyInteger_eq (x : ExactReal) {v : Int} (hv : sumValue x.terms = v) : x.onlyInteger = v := by
  unfold ExactReal.onlyInteger
  split
  next bits h => exact x.ceil_lower_of_narrow hv (firstFrom_some h)
  next h =>
    obtain ⟨bits, hbits⟩ := x.exists_narrow
    rw [firstFrom_none h bits (Nat.zero_le _)] at hbits
    cases hbits

/-- A real whose bounds have not one integer part at any precision searched is an integer. -/
theorem ExactReal.eq_integer_of_unsettled (x : ExactReal) {start : Nat} (h : firstFrom x.settled start = none) :
    ∃ v : Int, sumValue x.terms = v := by
  by_contra hne
  obtain ⟨n, hn⟩ := x.settled_of_not_integer (not_exists.1 hne)
  have hsettled := hn (max start n) (le_max_right _ _)
  rw [firstFrom_none h _ (le_max_left _ _)] at hsettled
  cases hsettled

theorem ExactReal.isTrunc_trunc (x : ExactReal) : IsTrunc (sumValue x.terms) x.trunc := by
  unfold ExactReal.trunc
  split
  next h => exact x.isTrunc_of_settled h
  next =>
    split
    next bits h => exact x.isTrunc_of_settled (firstFrom_some h)
    next h =>
      obtain ⟨v, hv⟩ := x.eq_integer_of_unsettled h
      rw [x.onlyInteger_eq hv, hv]
      exact isTrunc_intCast v

/-- Settles O58, from the integer part, the enclosure, and that the bounds close in. -/
theorem truncationIsSound : Obligations.TruncationIsSound := by
  unfold Obligations.TruncationIsSound
  rintro x r hr
  obtain rfl := (x.denotes_iff r).1 hr
  exact ⟨x.isTrunc_trunc, x.bounds, fun _ hε => x.width_lt hε⟩

end Sys2Proof
end

section
/-! What a completed operation makes of the chip it names, said once for every operation, and what it must have
checked before it completed. -/

namespace Sys2Proof

open Machine

/-- What a completed operation makes of the chip it names. -/
def Instr.effect : Instr → ChipInstance → ChipInstance
  | .wrPos0 _ c data, j => j.writePos c 0 data
  | .wrPos1 _ c data, j => j.writePos c 1 data
  | .wrPos2 _ c data, j => j.writePos c 2 data
  | .wrApan _ data, j => j.setReg 0x13F data
  | .wrKon _ data, j => (forMask data (ChipInstance.startChannel j.latching) j).setReg 0x214 data
  | .wrKoff _ data, j => (forMask data ChipInstance.keyOff j).setReg 0x215 data
  | .wrKstat _ data, j => j.setReg 0x22C data
  | .wrSdata _ data, j => (j.zoneWrite data).setReg 0x22D data
  | .wrZone _ data, j => { j with zoneCursor := 0 }.setReg 0x22E data
  | .wrCtrl _ data, j => j.setReg 0x22F data
  | .wrMode _ c second data, j => j.setReg (modeBase c + second.toNat) data
  | .wrChan _ c field data, j => j.setReg (blockBase c + field.toNat) data
  | .wrPlain _ offset data, j => j.setReg offset.toNat data
  | .rdSdata _, j => if j.readEnabled then j.advanceZone else j
  | .fmtPcm8 _ c rev, j => j.endSample c (decodePcm8 j c rev (j.resume c)).ended
  | .fmtPcm16 _ c rev, j => j.endSample c (decodePcm16 j c rev (j.resume c)).ended
  | .fmtDpcm4 _ c rev, j => j.endSample c (decodeDpcm4 j c rev (j.resume c)).ended
  | .fmtNone _ c, j => j.endSample c (decodeNone (j.resume c)).ended
  | .init _ clockHz rom romLen k d, _ => ChipInstance.afterInit clockHz rom romLen k d
  | .reset _, j => j.resetRun
  | .setgain _ channel gain, j => { j with gain := j.gain.setIfInBounds channel gain }
  | .setroute _ route volume mask, j =>
    { j with volume := j.volume.setIfInBounds route volume
             routeMask := j.routeMask.setIfInBounds route (BitVec.ofNat 2 mask) }
  | .setpancb _ registered, j => { j with panCallback := registered }
  | .update _ out count host, j => (j.update (Config.nativeTicks j.clockHz host count) out count).1
  | .restore _ data, j => j.restore data
  | .tick _, j => j.tick.1
  | .chtick _ c, j => (channelTick ⟨j, ExactReal.zero, ExactReal.zero⟩ c).chip
  | .keyon _ c, j => j.keyOn c
  | .keyoff _ c, j => j.keyOff c
  | .rdPlain _ _, j | .snapshot _, j | .exit, j => j

/-- What an operation checks beyond its chip index and the initialised bit (R258 to R262). -/
def Instr.Passes : Instr → ChipInstance → Prop
  | .wrPlain _ offset _, _ | .rdPlain _ offset, _ => offset.toNat < 0x230
  | .init _ clockHz rom romLen _ _, _ => 1 ≤ clockHz ∧ 1 ≤ romLen ∧ romLen ≤ rom.length
  | .setgain _ channel gain, _ => channel ≤ 7 ∧ gain.isNegative = false
  | .setroute _ route _ mask, _ => route ≤ 1 ∧ mask ≤ 3
  | .update _ out count _, _ => count ≤ out.length
  | .restore _ data, j => j.Accepts data
  | _, _ => True

/-- Only `EXIT` names no chip (R248). -/
theorem Instr.eq_exit_of_target {i : Instr} (h : i.target = none) : i = .exit := by
  cases i <;> simp [Instr.target] at h ⊢

/-- A completed operation that names a chip passed its checks, and has its effect on that chip and no other. -/
theorem exec_effect {i : Instr} {s t : State} {id : Nat} (ht : i.target = some id) (h : exec i s = .next t) :
    id < Config.maxChips ∧ i.Passes (s.chip id) ∧ t.chips = (s.setChip id (i.effect (s.chip id))).chips := by
  cases i <;> simp only [Instr.target, Option.some.injEq, reduceCtorEq] at ht <;> subst ht
  case init =>
    simp only [exec, execInit] at h
    obtain ⟨hid, h⟩ := withIndex_next h
    split_ifs at h with hclock hlen hbuffer
    rw [finish_next h]
    exact ⟨hid, ⟨by omega, by omega, by omega⟩, rfl⟩
  case wrPlain | rdPlain =>
    simp only [exec, execWrPlain, execRdPlain] at h
    obtain ⟨hready, h⟩ := withChip_next h
    split_ifs at h with hoffset
    rw [finish_next h]
    exact ⟨hready.1, hoffset, rfl⟩
  case setgain =>
    simp only [exec, execSetgain] at h
    obtain ⟨hready, h⟩ := withChip_next h
    split_ifs at h with hchannel hgain
    rw [finish_next h]
    exact ⟨hready.1, ⟨by omega, by simpa using hgain⟩, rfl⟩
  case setroute =>
    simp only [exec, execSetroute] at h
    obtain ⟨hready, h⟩ := withChip_next h
    split_ifs at h with hroute hmask
    rw [finish_next h]
    exact ⟨hready.1, ⟨by omega, by omega⟩, rfl⟩
  case update =>
    simp only [exec, execUpdate] at h
    obtain ⟨hready, h⟩ := withChip_next h
    split_ifs at h with hbuffer
    rw [finish_next h]
    exact ⟨hready.1, Nat.not_lt.1 hbuffer, rfl⟩
  case restore =>
    simp only [exec, execRestore] at h
    obtain ⟨hready, h⟩ := withChip_next h
    split at h
    next => cases h
    next hnone =>
      rw [finish_next h]
      exact ⟨hready.1, (snapshotDefect_none _ _).1 hnone, rfl⟩
  case wrApan =>
    simp only [exec, execWrApan] at h
    obtain ⟨hready, h⟩ := withChip_next h
    rw [finish_next h]
    refine ⟨hready.1, trivial, ?_⟩
    split <;> rfl
  case rdSdata =>
    simp only [exec, execRdSdata] at h
    obtain ⟨hready, h⟩ := onChip_next h
    rw [h]
    refine ⟨hready.1, trivial, ?_⟩
    rw [Instr.effect]
    split <;> rfl
  all_goals
    simp only [exec, execWrPos0, execWrPos1, execWrPos2, execWrKon, execWrKoff, execWrKstat, execWrSdata, execWrZone,
      execWrCtrl, execWrMode, execWrChan, execFmtPcm8, execFmtPcm16, execFmtDpcm4, execFmtNone, execReset,
      execSetpancb, execSnapshot, execTick, execChtick, execKeyon, execKeyoff, storeReg, runDecode, updateChip] at h
    obtain ⟨hready, h⟩ := onChip_next h
    rw [h]
    exact ⟨hready.1, trivial, rfl⟩

/-- Every chip after a completed operation that names one. -/
theorem exec_chip {i : Instr} {s t : State} {id : Nat} (ht : i.target = some id) (h : exec i s = .next t) (k : Nat) :
    t.chip k = if k = id then i.effect (s.chip id) else s.chip k := by
  obtain ⟨hid, -, hchips⟩ := exec_effect ht h
  have hsame : t.chip k = (s.setChip id (i.effect (s.chip id))).chip k := by rw [State.chip, hchips]; rfl
  simp [hsame, State.chip_setChip, hid]

end Sys2Proof
end

section
/-! The ROM, its mask and the clock under every operation other than `EXIT` and `INIT` (R54, R55, R96; O8). -/

namespace Sys2Proof.Machine

/-- The ROM bytes, their number, the mask and the clock are the same. -/
def ChipInstance.SameRomAndClock (i j : ChipInstance) : Prop :=
  j.rom = i.rom ∧ j.romSize = i.romSize ∧ j.romMask = i.romMask ∧ j.clockHz = i.clockHz

theorem ChipInstance.SameRomAndClock.refl (i : ChipInstance) : i.SameRomAndClock i := ⟨rfl, rfl, rfl, rfl⟩

theorem ChipInstance.SameRomAndClock.trans {i j k : ChipInstance} (h : i.SameRomAndClock j)
    (h' : j.SameRomAndClock k) : i.SameRomAndClock k := by
  obtain ⟨hrom, hsize, hmask, hclock⟩ := h
  obtain ⟨hrom', hsize', hmask', hclock'⟩ := h'
  exact ⟨hrom'.trans hrom, hsize'.trans hsize, hmask'.trans hmask, hclock'.trans hclock⟩

/-- What changes only registers changes no ROM and no clock. -/
theorem ChipInstance.sameRomAndClock_of_regs {i j : ChipInstance} (h : j = { i with regs := j.regs }) :
    i.SameRomAndClock j := by
  rw [h]
  exact .refl i

theorem ChipInstance.sameRomAndClock_writePos (i : ChipInstance) (c : Fin 8) (k : Fin 3) (data : Byte) :
    i.SameRomAndClock (i.writePos c k data) := by
  unfold ChipInstance.writePos
  split <;> exact .refl i

theorem ChipInstance.sameRomAndClock_zoneWrite (i : ChipInstance) (b : Byte) :
    i.SameRomAndClock (i.zoneWrite b) := by
  unfold ChipInstance.zoneWrite
  split <;> exact .refl i

theorem sameRomAndClock_channelTick (x : Mixing) (c : Fin 8) :
    x.chip.SameRomAndClock (channelTick x c).chip := by
  rw [channelTick_chip]
  exact .refl x.chip

theorem ChipInstance.sameRomAndClock_tick (i : ChipInstance) : i.SameRomAndClock i.tick.1 := by
  have hrun : i.SameRomAndClock (runChannels (startTick i)).chip := by
    rw [runChannels_chip]
    exact .refl i
  exact hrun

theorem ChipInstance.sameRomAndClock_update (i : ChipInstance) (n : Nat) (out : List Frame) (m : Nat) :
    i.SameRomAndClock (i.update n out m).1 := by
  unfold ChipInstance.update
  split
  next =>
    dsimp only
    rw [(ticks_spec n i).1]
    exact Function.Iterate.rec i.SameRomAndClock (.refl i) (fun j hj => hj.trans j.sameRomAndClock_tick) n
  next => exact .refl i

end Sys2Proof.Machine

namespace Sys2Proof

open Machine

/-- No operation but `INIT` changes the ROM or the clock of the chip it names. -/
theorem Instr.sameRomAndClock_effect {i : Instr}
    (hn : ∀ chip clockHz rom romLen k d, i ≠ .init chip clockHz rom romLen k d) (j : ChipInstance) :
    j.SameRomAndClock (i.effect j) := by
  cases i
  case init => exact absurd rfl (hn _ _ _ _ _ _)
  case wrPos0 | wrPos1 | wrPos2 => exact j.sameRomAndClock_writePos _ _ _
  case wrKon =>
    exact (ChipInstance.sameRomAndClock_of_regs (forMask_eq _ (ChipInstance.startChannel_eq _) j)).trans (.refl _)
  case wrKoff =>
    exact (ChipInstance.sameRomAndClock_of_regs (forMask_eq _ ChipInstance.keyOff_eq j)).trans (.refl _)
  case wrSdata => exact j.sameRomAndClock_zoneWrite _
  case rdSdata => rw [Instr.effect]; split <;> exact .refl j
  case fmtPcm8 | fmtPcm16 | fmtDpcm4 | fmtNone =>
    exact ChipInstance.sameRomAndClock_of_regs (j.endSample_eq _ _)
  case update => exact j.sameRomAndClock_update _ _ _
  case tick => exact j.sameRomAndClock_tick
  case chtick => exact sameRomAndClock_channelTick ⟨j, _, _⟩ _
  case keyon => exact ChipInstance.sameRomAndClock_of_regs (j.keyOn_eq _)
  case keyoff => exact ChipInstance.sameRomAndClock_of_regs (j.keyOff_eq _)
  all_goals exact .refl j

/-- Settles O8: the chip named has its operation's effect, and any other chip stays as it was. -/
theorem romAndClockNeverWritten : Obligations.RomAndClockNeverWritten := by
  unfold Obligations.RomAndClockNeverWritten
  intro i s t id h hexit hinit
  obtain htarget | ⟨k, htarget⟩ := Option.eq_none_or_eq_some i.target
  · exact absurd (Instr.eq_exit_of_target htarget) hexit
  · rw [exec_chip htarget h]
    split
    next hk =>
      subst hk
      refine Instr.sameRomAndClock_effect (fun chip clockHz rom romLen k d hi => ?_) _
      obtain rfl : chip = id := by simpa [hi, Instr.target] using htarget
      exact hinit _ _ _ _ _ hi
    next => exact ChipInstance.SameRomAndClock.refl _

end Sys2Proof
end

section
/-! The legal states of R60 under every step, and at power-up (O59, O60). -/

namespace Sys2Proof.Machine

theorem ChipInstance.writePos_inv {i : ChipInstance} (h : i.Inv) (c : Fin 8) (k : Fin 3) (data : Byte) :
    (i.writePos c k data).Inv := by
  unfold ChipInstance.writePos
  split
  · exact ChipInstance.setLatch_inv h c k data
  · have := posOffset_lt c k
    unfold posOffset at this
    exact ChipInstance.setReg_inv h (by omega) (by omega) data

theorem ChipInstance.startChannel_inv {i : ChipInstance} (h : i.Inv) (latching : Bool) (c : Fin 8) :
    (ChipInstance.startChannel latching i c).Inv := by
  unfold ChipInstance.startChannel
  split
  · exact ChipInstance.keyOn_inv (ChipInstance.copyLatch_inv h c) c
  · exact ChipInstance.keyOn_inv h c

/-- A write to the zone register sets the cursor to 0, which every window holds (R147). -/
theorem ChipInstance.setZone_inv {i : ChipInstance} (h : i.Inv) (data : Byte) :
    ({ i with zoneCursor := 0 }.setReg 0x22E data).Inv where
  mask := h.mask
  zoneCursor := ChipInstance.zoneLimit_pos _
  reverbCursor := h.reverbCursor
  channels := h.channels
  memories := by
    obtain ⟨⟨hwf, hbelow⟩, hothers⟩ := h.memories
    exact ⟨⟨Memory.write_wf hwf _ _, Memory.write_below hbelow (by decide) _⟩, hothers⟩
  gains := h.gains

theorem ChipInstance.resetRun_inv {i : ChipInstance} (h : i.Inv) : i.resetRun.Inv where
  mask := h.mask
  zoneCursor := ChipInstance.zoneLimit_pos _
  reverbCursor := ChipInstance.blank_inv.reverbCursor
  channels := ChipInstance.blank_inv.channels
  memories := ⟨ChipInstance.blank_inv.memories.1, h.memories.2⟩
  gains := h.gains

theorem ChipInstance.setGain_inv {i : ChipInstance} (h : i.Inv) (channel : Nat) {gain : HostReal}
    (hgain : gain.isNegative = false) : ({ i with gain := i.gain.setIfInBounds channel gain } : ChipInstance).Inv where
  mask := h.mask
  zoneCursor := h.zoneCursor
  reverbCursor := h.reverbCursor
  channels := h.channels
  memories := h.memories
  gains c := by
    dsimp only
    rw [Vector.getElem_setIfInBounds]
    split
    · exact hgain
    · exact h.gains c

/-- What Restore accepts, it can take over (R235). -/
theorem ChipInstance.restore_inv {i : ChipInstance} (h : i.Inv) {d : Snapshot} (hd : i.Accepts d) :
    (i.restore d).Inv where
  mask := h.mask
  zoneCursor := hd.zoneCursor
  reverbCursor := hd.reverbCursor
  channels := hd.channels
  memories := by
    obtain ⟨hwf, hbelow⟩ := hd.ram
    obtain ⟨-, -, hrom⟩ := h.memories
    exact ⟨hd.regs, ⟨hwf, hd.ramSize ▸ hbelow⟩, hrom⟩
  gains := h.gains

/-! ### Ticks -/

theorem channelTick_inv {x : Mixing} (h : x.chip.Inv) (c : Fin 8) : (channelTick x c).chip.Inv := by
  have hdecoded := x.chip.decodeSample_ok c (h.channels c)
  have hended := ChipInstance.endSample_inv h c (x.chip.decodeSample c).ended
  unfold channelTick
  dsimp only
  refine ChipInstance.setChannel_inv (ChipInstance.writeBack_inv ?_ c _) c hdecoded
  split
  · exact ChipInstance.setRamSample_inv hended
      (Nat.lt_of_lt_of_le (ChipInstance.reverbSlot_lt _ c) (by decide)) _
  · exact hended

theorem ChipInstance.advanceRing_inv {i : ChipInstance} (h : i.Inv) : i.advanceRing.Inv :=
  { h with reverbCursor := Nat.le_of_lt_succ (Nat.mod_lt _ (by decide)) }

theorem ChipInstance.tick_inv {i : ChipInstance} (h : i.Inv) : i.tick.1.Inv := by
  have hstart : (startTick i).chip.Inv :=
    ChipInstance.setRamSample_inv h (Nat.lt_of_le_of_lt h.reverbCursor (by decide)) 0
  exact ChipInstance.advanceRing_inv
    (runChannels_keeps (P := fun x => x.chip.Inv) (fun _ c hx => channelTick_inv hx c) hstart)

theorem ChipInstance.update_inv {i : ChipInstance} (h : i.Inv) (n : Nat) (out : List Frame) (m : Nat) :
    (i.update n out m).1.Inv := by
  unfold ChipInstance.update
  split
  next =>
    dsimp only
    rw [(ticks_spec n i).1]
    exact Function.Iterate.rec ChipInstance.Inv h (fun _ hj => ChipInstance.tick_inv hj) n
  next => exact h

end Sys2Proof.Machine

namespace Sys2Proof

open Machine

/-! ### Operations and steps -/

/-- An operation whose checks passed keeps the chip it names legal, unless it is a plain store to the zone register,
which moves the window's limit and not its cursor. -/
theorem Instr.effect_inv {i : Instr} {j : ChipInstance} (h : j.Inv) (hp : i.Passes j)
    (hz : ∀ chip data, i ≠ .wrPlain chip 0x22E data) : (i.effect j).Inv := by
  cases i
  case wrPos0 | wrPos1 | wrPos2 => exact ChipInstance.writePos_inv h _ _ _
  case wrApan | wrKstat | wrCtrl => exact ChipInstance.setReg_inv h (by decide) (by decide) _
  case wrKon _ data =>
    have hstarted := forMask_keeps (P := ChipInstance.Inv) data
      (fun _ c hi => ChipInstance.startChannel_inv hi j.latching c) h
    exact ChipInstance.setReg_inv hstarted (by decide) (by decide) data
  case wrKoff _ data =>
    have hended := forMask_keeps (P := ChipInstance.Inv) data (fun _ c hi => ChipInstance.keyOff_inv hi c) h
    exact ChipInstance.setReg_inv hended (by decide) (by decide) data
  case wrSdata => exact ChipInstance.setReg_inv (ChipInstance.zoneWrite_inv h _) (by decide) (by decide) _
  case wrZone => exact ChipInstance.setZone_inv h _
  case wrMode _ c second _ =>
    have hoffset : modeBase c + second.toNat < 0x210 := by
      have := second.toNat_lt
      unfold modeBase
      omega
    exact ChipInstance.setReg_inv h (by omega) (by omega) _
  case wrChan _ c field _ =>
    have hoffset : blockBase c + field.toNat < 0x100 := by
      unfold blockBase
      omega
    exact ChipInstance.setReg_inv h (by omega) (by omega) _
  case wrPlain chip offset data =>
    refine ChipInstance.setReg_inv h hp (fun hoffset => hz chip data ?_) _
    rw [BitVec.eq_of_toNat_eq (y := (0x22E : BitVec 10)) hoffset]
  case rdSdata =>
    rw [Instr.effect]
    split
    · exact ChipInstance.advanceZone_inv h
    · exact h
  case fmtPcm8 | fmtPcm16 | fmtDpcm4 | fmtNone => exact ChipInstance.endSample_inv h _ _
  case init =>
    obtain ⟨-, hlen, -⟩ := hp
    exact ChipInstance.afterInit_inv _ _ _ _ _ hlen
  case reset => exact ChipInstance.resetRun_inv h
  case setgain => exact ChipInstance.setGain_inv h _ hp.2
  case update => exact ChipInstance.update_inv h _ _ _
  case restore => exact ChipInstance.restore_inv h hp
  case tick => exact ChipInstance.tick_inv h
  case chtick => exact channelTick_inv h _
  case keyon => exact ChipInstance.keyOn_inv h _
  case keyoff => exact ChipInstance.keyOff_inv h _
  case setroute | setpancb => exact { h with }
  case rdPlain | snapshot | exit => exact h

theorem exec_inv {i : Instr} {s t : State} (hs : s.Inv) (hz : ∀ chip data, i ≠ .wrPlain chip 0x22E data)
    (h : exec i s = .next t) : t.Inv := by
  intro k hk
  obtain htarget | ⟨id, htarget⟩ := Option.eq_none_or_eq_some i.target
  · obtain rfl := Instr.eq_exit_of_target htarget
    obtain rfl := Host.Outcome.next.inj h
    change (State.reset.chip k).Inv
    rw [State.reset_chip]
    exact ChipInstance.blank_inv
  · obtain ⟨hid, hpasses, -⟩ := exec_effect htarget h
    rw [exec_chip htarget h]
    split
    · exact Instr.effect_inv (hs id hid) hpasses hz
    · exact hs k hk

theorem decodeBlockWrite_ne_wrPlain (chip chip' : Nat) (offset offset' : BitVec 10) (data data' : Byte) :
    decodeBlockWrite chip offset data ≠ .wrPlain chip' offset' data' := by
  unfold decodeBlockWrite
  dsimp only
  split_ifs <;> simp

/-- A write to the zone register decodes as `WR.ZONE` and never as a plain store (R115). -/
theorem decodeWrite_ne_wrPlain_zone (chip chip' : Nat) (offset : BitVec 10) (data data' : Byte) :
    decodeWrite chip offset data ≠ .ok (.wrPlain chip' 0x22E data') := by
  intro h
  unfold decodeWrite at h
  split_ifs at h with hblock <;> simp only [Except.ok.injEq, Instr.wrPlain.injEq, reduceCtorEq] at h
  · exact decodeBlockWrite_ne_wrPlain _ _ _ _ _ _ h
  · exact absurd h.2.1 ‹_›

theorem decode_ne_wrPlain_zone {r : Request} {i : Instr} (h : decode r = .ok i) (chip : Nat) (data : Byte) :
    i ≠ .wrPlain chip 0x22E data := by
  rintro rfl
  unfold decode at h
  split at h
  next =>
    unfold decodeBus decodeRead at h
    split_ifs at h
    · exact decodeWrite_ne_wrPlain_zone _ _ _ _ _ h
    all_goals cases h
  next =>
    unfold decodeMode at h
    split at h <;> cases h
  next =>
    unfold decodeHost at h
    split at h
    case h_7 =>
      split_ifs at h
      cases h
    all_goals cases h
  next =>
    unfold decodeInt at h
    split at h <;> cases h

theorem rejectRequest_ne_next (chip : Nat) (e : DecodeError) (s t : State) : rejectRequest chip e s ≠ .next t := by
  intro h
  cases e with
  | badOffset =>
    simp only [rejectRequest] at h
    cases (withChip_next h).2
  | noOperation => cases h
  | notFrames => cases h

/-- Settles O59: a step idles, or runs an operation that was decoded. -/
theorem stepKeepsInv : Obligations.StepKeepsInv := by
  unfold Obligations.StepKeepsInv
  intro s t hs h
  unfold step at h
  split at h
  next => exact Host.Outcome.next.inj h ▸ hs
  next r rest _ =>
    split at h
    next i hdecode => exact exec_inv (s := s.withPending rest) hs (decode_ne_wrPlain_zone hdecode) h
    next => exact absurd h (rejectRequest_ne_next _ _ _ _)

/-- Settles O60: every chip is blank at power-up. -/
theorem resetInv : Obligations.ResetInv := by
  unfold Obligations.ResetInv
  intro id _
  rw [State.reset_chip]
  exact ChipInstance.blank_inv

end Sys2Proof
end

section
/-! The three tables: the closed forms and laws of the volume and pan tables (R57, R58, decision D6; O54, O55), and the
delta table (R59; O28). -/

namespace Sys2Proof

/-- The closed form of decision D6. -/
theorem volTab_value (k : Byte) : (volTab k).value = (10 : ℝ) ^ ((-36 * (k.toNat : ℝ) / 64) / 20) / 4 := by
  have hexp : -((9 * k.toNat : Nat) : ℝ) / 320 = (-36 * (k.toNat : ℝ) / 64) / 20 := by
    push_cast
    ring
  rw [volTab, Monomial.value_norm, Monomial.value_nil, rootValue, hexp, Nat.cast_one, Real.sqrt_one]
  push_cast
  ring

/-- The closed form of decision D6. -/
theorem panTab_value (k : Fin 15) : (panTab k).value = √((k.val : ℝ) / 14) := by
  have hroot : rootValue 0 (14 * k.val) = √((k.val : ℝ) / 14) * 14 := by
    have hsquare : ((14 * k.val : Nat) : ℝ) = (k.val : ℝ) / 14 * 14 ^ 2 := by
      push_cast
      ring
    rw [rootValue, hsquare, Real.sqrt_mul (by positivity), Real.sqrt_sq (by norm_num), Nat.cast_zero, neg_zero,
      zero_div, Real.rpow_zero, one_mul]
  rw [panTab, Monomial.value_norm, Monomial.value_nil, hroot]
  push_cast
  ring

/-- Settles O54, from the closed form: a power of ten is positive and rises with its exponent. -/
theorem volumeTable : Obligations.VolumeTable := by
  unfold Obligations.VolumeTable
  simp only [Monomial.denotes_iff, volTab_value]
  refine ⟨fun _ => trivial, by norm_num, ?_⟩
  rintro k l _ _ hkl rfl rfl
  have hlt : (k.toNat : ℝ) < l.toNat := by exact_mod_cast hkl
  have hpow : (10 : ℝ) ^ ((-36 * (l.toNat : ℝ) / 64) / 20) < 10 ^ ((-36 * (k.toNat : ℝ) / 64) / 20) :=
    Real.rpow_lt_rpow_of_exponent_lt (by norm_num) (by linarith)
  exact ⟨by positivity, by linarith⟩

/-- Settles O55, from the closed form: the square of a root is its radicand, and roots rise with it. -/
theorem panTable : Obligations.PanTable := by
  unfold Obligations.PanTable
  simp only [Monomial.denotes_iff, panTab_value]
  refine ⟨fun _ => trivial, by norm_num, by norm_num, ?_, ?_⟩
  · rintro k l _ _ hkl rfl rfl
    have hlt : (k.val : ℝ) < l.val := by exact_mod_cast hkl
    exact Real.sqrt_lt_sqrt (by positivity) (by linarith)
  · rintro k _ _ rfl rfl
    rw [Real.sq_sqrt (by positivity), Real.sq_sqrt (by positivity), Nat.cast_sub (by omega)]
    push_cast
    ring

/-- Settles O28, nibble by nibble. -/
theorem deltaTable : Obligations.DeltaTable := by
  unfold Obligations.DeltaTable
  decide

end Sys2Proof
end

section
/-! The RAM's byte and sample views (R86, R91; O25) and the ROM's masked read (R83, R84; O26). -/

namespace Sys2Proof.Machine

/-! ### RAM -/

theorem sext16_emod (v : Int) : sext16 v % 65536 = v % 65536 := by
  unfold sext16
  split_ifs <;> omega

/-- The byte at `2k` is the low byte of sample `k` (R86, decision D14). -/
theorem ChipInstance.ramSample_low (i : ChipInstance) (k : Nat) :
    i.ramSample k % 256 = (i.ramByte (2 * k)).toNat := by
  have hmod : i.ramSample k % 65536 = _ := sext16_emod _
  have hlow := (i.ramByte (2 * k)).isLt
  omega

/-- The byte at `2k + 1` is the high byte of sample `k` (R86, decision D14). -/
theorem ChipInstance.ramSample_high (i : ChipInstance) (k : Nat) :
    i.ramSample k % 65536 / 256 = (i.ramByte (2 * k + 1)).toNat := by
  have hmod : i.ramSample k % 65536 = _ := sext16_emod _
  have hlow := (i.ramByte (2 * k)).isLt
  have hhigh := (i.ramByte (2 * k + 1)).isLt
  omega

theorem ChipInstance.ramSample_setRamByte_low (i : ChipInstance) (k : Nat) (b : Byte) :
    (i.setRamByte (2 * k) b).ramSample k = sext16 (i.ramSample k % 65536 / 256 * 256 + b.toNat) := by
  rw [i.ramSample_high, ChipInstance.ramSample, ramByte_setRamByte, ramByte_setRamByte, if_pos rfl,
    if_neg (by omega), add_comm, mul_comm]

theorem ChipInstance.ramSample_setRamByte_high (i : ChipInstance) (k : Nat) (b : Byte) :
    (i.setRamByte (2 * k + 1) b).ramSample k = sext16 (i.ramSample k % 256 + 256 * b.toNat) := by
  rw [i.ramSample_low, ChipInstance.ramSample, ramByte_setRamByte, ramByte_setRamByte, if_neg (by omega),
    if_pos rfl]

theorem ChipInstance.ramSample_setRamByte_other (i : ChipInstance) {a k : Nat} (b : Byte) (h : k ≠ a / 2) :
    (i.setRamByte a b).ramSample k = i.ramSample k := by
  rw [ChipInstance.ramSample, ramByte_setRamByte, ramByte_setRamByte, if_neg (by omega), if_neg (by omega),
    ← ChipInstance.ramSample]

theorem toNat_ofInt_byte (v : Int) : ((BitVec.ofInt 8 v).toNat : Int) = v % 256 := by
  rw [BitVec.toNat_ofInt, Int.toNat_of_nonneg (Int.emod_nonneg _ (by decide))]
  rfl

/-! ### ROM -/

theorem ChipInstance.romRead_of_lt (i : ChipInstance) {a : Int} (h : (a % (i.romMask + 1)).toNat < i.romSize) :
    i.romRead a = Memory.read i.rom (a % (i.romMask + 1)).toNat :=
  if_pos h

/-- Below `romLen` the ROM of an initialised instance lists the bytes given to Init. -/
theorem ChipInstance.read_rom_afterInit (clockHz : Nat) (rom : List Byte) (romLen : Nat) (k d : Bool) {n : Nat}
    (h : n < romLen) : Memory.read (ChipInstance.afterInit clockHz rom romLen k d).rom n = rom.getD n 0 := by
  rw [ChipInstance.afterInit, Memory.read_ofBytes, List.getD_eq_getElem?_getD, List.getD_eq_getElem?_getD,
    List.getElem?_take_of_lt h]

/-- With a mask of the form `2^n - 1` the reduction of a natural address is the bitwise AND. -/
theorem ChipInstance.romRead_and_mask (i : ChipInstance) {n : Nat} (hmask : i.romMask = 2 ^ n - 1) (a : Nat) :
    i.romRead (a &&& i.romMask : Nat) = i.romRead a := by
  have hsucc : i.romMask + 1 = 2 ^ n := by
    have := Nat.two_pow_pos n
    omega
  have hand : a &&& i.romMask = a % (i.romMask + 1) := by
    rw [hsucc, hmask, Nat.and_two_pow_sub_one_eq_mod]
  have hsplit : (a : Int) = (a % (i.romMask + 1) : Nat) + (a / (i.romMask + 1) : Nat) * (i.romMask + 1) := by
    exact_mod_cast (Nat.mod_add_div' a (i.romMask + 1)).symm
  rw [hand, ← i.romRead_mod (a % (i.romMask + 1) : Nat) (a / (i.romMask + 1) : Nat), ← hsplit]

end Sys2Proof.Machine

namespace Sys2Proof

open Machine

/-- Settles O25: the address's parity says which half of which sample a byte write replaces; a sample store is its
two byte writes. -/
theorem ramByteView : Obligations.RamByteView := by
  unfold Obligations.RamByteView
  refine ⟨fun i a k b => ?_, fun i k l v hv => ⟨?_, ?_, ?_⟩⟩
  · by_cases hk : k = a / 2
    · rw [if_pos hk]
      by_cases heven : a % 2 = 0
      · obtain rfl : a = 2 * k := by omega
        rw [if_pos heven, i.ramSample_setRamByte_low]
      · obtain rfl : a = 2 * k + 1 := by omega
        rw [if_neg heven, i.ramSample_setRamByte_high]
    · rw [if_neg hk, i.ramSample_setRamByte_other b hk]
  · rw [i.ramByte_setRamSample, if_neg (by omega), if_pos rfl, toNat_ofInt_byte]
  · rw [i.ramByte_setRamSample, if_pos rfl, toNat_ofInt_byte]
    omega
  · obtain ⟨hlow, hhigh⟩ := (isS16_iff v).1 hv
    exact i.ramSample_setRamSample k l v hlow hhigh

/-- Settles O26: Init keeps the ROM's bytes and sets a mask of the form `2^n - 1`. -/
theorem romRead : Obligations.RomRead := by
  unfold Obligations.RomRead
  intro clockHz rom romLen k d hlen _ i
  refine ⟨fun a b ha hb => ?_, i.romRead_mod, fun a => ?_⟩
  · rw [i.romRead_of_lt ha, ChipInstance.read_rom_afterInit clockHz rom romLen k d ha,
      List.getD_eq_getElem?_getD, hb, Option.getD_some]
  · obtain ⟨n, hmask, -⟩ := romMaskOf_spec romLen hlen
    exact (i.romRead_and_mask hmask a).symm

end Sys2Proof
end

section
/-! The decoder against the encoder and against the opcode table: each undoes the other on the words of the bus, whatever
decodes is well-formed, and its row is the table's (R111 to R116, R122, R128; O9, O11, O12). -/

namespace Sys2Proof

/-! ### Offsets of the channel blocks and of the mode bytes -/

theorem chanOffset_toNat (c : Fin 8) (field : BitVec 5) : (chanOffset c field).toNat = 0x20 * c.val + field.toNat := by
  rw [chanOffset, BitVec.toNat_ofNat]
  omega

theorem modeOffset_toNat (c : Fin 8) (second : Bool) :
    (modeOffset c second).toNat = 0x200 + 2 * c.val + second.toNat := by
  have := second.toNat_le
  rw [modeOffset, BitVec.toNat_ofNat]
  omega

theorem channel_chanOffset (c : Fin 8) (field : BitVec 5) : ((chanOffset c field).extractLsb' 5 3).toFin = c := by
  apply Fin.ext
  change ((chanOffset c field).extractLsb' 5 3).toNat = c.val
  rw [BitVec.extractLsb'_toNat, chanOffset_toNat, Nat.shiftRight_eq_div_pow]
  omega

theorem field_chanOffset (c : Fin 8) (field : BitVec 5) : (chanOffset c field).extractLsb' 0 5 = field := by
  apply BitVec.eq_of_toNat_eq
  rw [BitVec.extractLsb'_toNat, chanOffset_toNat, Nat.shiftRight_eq_div_pow]
  omega

theorem channel_modeOffset (c : Fin 8) (second : Bool) : ((modeOffset c second).extractLsb' 1 3).toFin = c := by
  have := second.toNat_le
  apply Fin.ext
  change ((modeOffset c second).extractLsb' 1 3).toNat = c.val
  rw [BitVec.extractLsb'_toNat, modeOffset_toNat, Nat.shiftRight_eq_div_pow]
  omega

theorem second_modeOffset (c : Fin 8) (second : Bool) : (modeOffset c second).getLsbD 0 = second := by
  rw [BitVec.getLsbD, modeOffset_toNat, Nat.testBit_zero]
  cases second <;> simp [Nat.add_mod]

/-- An offset in the channel blocks is that of its channel's byte (R32). -/
theorem chanOffset_of_lt {offset : BitVec 10} (h : offset.toNat < 0x100) :
    chanOffset (offset.extractLsb' 5 3).toFin (offset.extractLsb' 0 5) = offset := by
  apply BitVec.eq_of_toNat_eq
  have hc : (offset.extractLsb' 5 3).toFin.val = offset.toNat >>> 5 % 2 ^ 3 := offset.extractLsb'_toNat 5 3
  rw [chanOffset_toNat, hc, BitVec.extractLsb'_toNat, Nat.shiftRight_eq_div_pow, Nat.shiftRight_eq_div_pow]
  omega

/-- An offset among the mode bytes is that of its channel's first or second (R33). -/
theorem modeOffset_of_mem {offset : BitVec 10} (h : 0x200 ≤ offset.toNat ∧ offset.toNat < 0x210) :
    modeOffset (offset.extractLsb' 1 3).toFin (offset.getLsbD 0) = offset := by
  apply BitVec.eq_of_toNat_eq
  have hc : (offset.extractLsb' 1 3).toFin.val = offset.toNat >>> 1 % 2 ^ 3 := offset.extractLsb'_toNat 1 3
  have hs : (offset.getLsbD 0).toNat = offset.toNat % 2 := by
    rw [BitVec.getLsbD, Nat.toNat_testBit, pow_zero, Nat.div_one]
  rw [modeOffset_toNat, hc, hs, Nat.shiftRight_eq_div_pow]
  omega

/-- A bus word is made of its fields. -/
theorem busWord_fields (t : BitVec 19) : busWord (busWrite t) (busOffset t) (busData t) = t := by
  apply BitVec.eq_of_toNat_eq
  have hw : (busWrite t).toNat = t.toNat / 2 ^ 18 % 2 := Nat.toNat_testBit _ _
  rw [busWord_toNat, hw, busOffset, busData, BitVec.extractLsb'_toNat, BitVec.extractLsb'_toNat,
    Nat.shiftRight_eq_div_pow, Nat.shiftRight_eq_div_pow]
  omega

/-! ### Decoding an encoded word -/

theorem decode_encodeWrite (chip : Nat) (offset : BitVec 10) (data : Byte) :
    decode (encodeWrite chip offset data) = decodeWrite chip offset data := by
  simp [decode, encodeWrite, decodeBus, busWrite_busWord, busOffset_busWord, busData_busWord]

theorem decode_encodeRead (chip : Nat) (offset : BitVec 10) :
    decode (encodeRead chip offset) = decodeRead chip offset := by
  simp [decode, encodeRead, decodeBus, busWrite_busWord, busOffset_busWord]

theorem isChanField_iff (field : BitVec 5) :
    isChanField field = true ↔ field ≠ 0x0C ∧ field ≠ 0x0D ∧ field ≠ 0x0E := by
  revert field
  decide

/-- `WR.PLAIN` is what the earlier rows of the bus writes leave of the offsets up to `0x22F` (R113, R115). -/
theorem isPlainOffset_iff (offset : BitVec 10) :
    isPlainOffset offset = true ↔
      ¬ offset.toNat < 0x100 ∧ offset ≠ 0x13F ∧ offset ≠ 0x214 ∧ offset ≠ 0x215 ∧ offset ≠ 0x22C ∧ offset ≠ 0x22D ∧
        offset ≠ 0x22E ∧ offset ≠ 0x22F ∧ ¬ (0x200 ≤ offset.toNat ∧ offset.toNat < 0x210) ∧ offset.toNat < 0x230 := by
  simp only [isPlainOffset, Bool.or_eq_true, Bool.and_eq_true, decide_eq_true_eq, ne_eq, ← BitVec.toNat_inj,
    BitVec.toNat_ofNat, BitVec.ofNat_eq_ofNat]
  omega

theorem isReadOffset_iff (offset : BitVec 10) :
    isReadOffset offset = true ↔ offset ≠ 0x22D ∧ offset.toNat < 0x230 := by
  simp only [isReadOffset, Bool.and_eq_true, decide_eq_true_eq, bne_iff_ne, ne_eq, ← BitVec.toNat_inj]
  exact and_comm

/-- A write into a channel's block (R113, R114). -/
theorem decodeWrite_chanOffset (chip : Nat) (c : Fin 8) (field : BitVec 5) (data : Byte) :
    decodeWrite chip (chanOffset c field) data =
      .ok (if field = 0x0C then .wrPos0 chip c data else if field = 0x0D then .wrPos1 chip c data
        else if field = 0x0E then .wrPos2 chip c data else .wrChan chip c field data) := by
  have hlt : (chanOffset c field).toNat < 0x100 := by
    rw [chanOffset_toNat]
    omega
  rw [decodeWrite, if_pos hlt, decodeBlockWrite, channel_chanOffset, field_chanOffset]

/-- A write to a mode byte (R115). -/
theorem decodeWrite_modeOffset (chip : Nat) (c : Fin 8) (second : Bool) (data : Byte) :
    decodeWrite chip (modeOffset c second) data = .ok (.wrMode chip c second data) := by
  have hmem : 0x200 ≤ (modeOffset c second).toNat ∧ (modeOffset c second).toNat < 0x210 := by
    have := second.toNat_le
    rw [modeOffset_toNat]
    omega
  have hne : ∀ a : BitVec 10, 0x210 ≤ a.toNat ∨ a.toNat < 0x200 → modeOffset c second ≠ a := by
    rintro _ ha rfl
    omega
  rw [decodeWrite, if_neg (by omega), if_neg (hne _ (by decide)), if_neg (hne _ (by decide)),
    if_neg (hne _ (by decide)), if_neg (hne _ (by decide)), if_neg (hne _ (by decide)), if_neg (hne _ (by decide)),
    if_neg (hne _ (by decide)), if_pos hmem, channel_modeOffset, second_modeOffset]

/-- A write to an offset of the table's last row (R115). -/
theorem decodeWrite_plain {offset : BitVec 10} (h : isPlainOffset offset = true) (chip : Nat) (data : Byte) :
    decodeWrite chip offset data = .ok (.wrPlain chip offset data) := by
  obtain ⟨hblock, hapan, hkon, hkoff, hkstat, hsdata, hzone, hctrl, hmode, hlt⟩ := (isPlainOffset_iff offset).1 h
  rw [decodeWrite, if_neg hblock, if_neg hapan, if_neg hkon, if_neg hkoff, if_neg hkstat, if_neg hsdata, if_neg hzone,
    if_neg hctrl, if_neg hmode, if_pos hlt]

theorem modeFormat_modeByte (format : BitVec 2) (rev : Bool) :
    modeFormat (modeByte format rev) =
      match format.toNat with
      | 0 => .pcm8
      | 1 => .pcm16
      | 2 => .dpcm4
      | _ => .none := by
  revert format rev
  decide

theorem modeRev_modeByte (format : BitVec 2) (rev : Bool) : modeRev (modeByte format rev) = rev := by
  revert format rev
  decide

/-- Settles O9, row by row: the fields of a word are those it was built from. -/
theorem decodeEncode : Obligations.DecodeEncode := by
  unfold Obligations.DecodeEncode
  intro i h
  cases i
  case wrPos0 | wrPos1 | wrPos2 => exact (decode_encodeWrite _ _ _).trans (decodeWrite_chanOffset _ _ _ _)
  case wrChan chip c field data =>
    obtain ⟨h0, h1, h2⟩ := (isChanField_iff field).1 h
    rw [encode, decode_encodeWrite, decodeWrite_chanOffset, if_neg h0, if_neg h1, if_neg h2]
  case wrMode => exact (decode_encodeWrite _ _ _).trans (decodeWrite_modeOffset _ _ _ _)
  case wrPlain => exact (decode_encodeWrite _ _ _).trans (decodeWrite_plain h _ _)
  case wrApan | wrKon | wrKoff | wrKstat | wrSdata | wrZone | wrCtrl => exact (decode_encodeWrite _ _ _).trans rfl
  case rdSdata => exact (decode_encodeRead _ _).trans rfl
  case rdPlain chip offset =>
    obtain ⟨hport, hlt⟩ := (isReadOffset_iff offset).1 h
    rw [encode, decode_encodeRead, decodeRead, if_neg hport, if_pos hlt]
  case fmtPcm8 | fmtPcm16 | fmtDpcm4 =>
    simp [encode, decode, decodeMode, modeFormat_modeByte, modeRev_modeByte]
  case fmtNone => simp [encode, decode, decodeMode, modeFormat_modeByte]
  case update => exact if_pos h
  all_goals rfl

/-! ### What a word decodes to -/

theorem decodeBlockWrite_spec (chip : Nat) {offset : BitVec 10} (h : offset.toNat < 0x100) (data : Byte) :
    (decodeBlockWrite chip offset data).wellFormed = true ∧
      encode (decodeBlockWrite chip offset data) = encodeWrite chip offset data := by
  have hoffset := chanOffset_of_lt h
  unfold decodeBlockWrite
  dsimp only
  split_ifs with h0 h1 h2
  · exact ⟨rfl, congrArg (encodeWrite chip · data) (h0 ▸ hoffset)⟩
  · exact ⟨rfl, congrArg (encodeWrite chip · data) (h1 ▸ hoffset)⟩
  · exact ⟨rfl, congrArg (encodeWrite chip · data) (h2 ▸ hoffset)⟩
  · exact ⟨(isChanField_iff _).2 ⟨h0, h1, h2⟩, congrArg (encodeWrite chip · data) hoffset⟩

/-- A write decodes to a well-formed operation that encodes to that very write. -/
theorem decodeWrite_ok {chip : Nat} {offset : BitVec 10} {data : Byte} {i : Instr}
    (h : decodeWrite chip offset data = .ok i) :
    i.wellFormed = true ∧ encode i = encodeWrite chip offset data := by
  unfold decodeWrite at h
  split_ifs at h with hblock hapan hkon hkoff hkstat hsdata hzone hctrl hmode hlt <;> obtain rfl := Except.ok.inj h
  · exact decodeBlockWrite_spec chip hblock data
  pick_goal 8
  · exact ⟨rfl, congrArg (encodeWrite chip · data) (modeOffset_of_mem hmode)⟩
  pick_goal 8
  · exact ⟨(isPlainOffset_iff offset).2 ⟨hblock, hapan, hkon, hkoff, hkstat, hsdata, hzone, hctrl, hmode, hlt⟩, rfl⟩
  all_goals
    subst offset
    exact ⟨rfl, rfl⟩

/-- A read decodes to a well-formed operation that encodes to that very read. -/
theorem decodeRead_ok {chip : Nat} {offset : BitVec 10} {i : Instr} (h : decodeRead chip offset = .ok i) :
    i.wellFormed = true ∧ encode i = encodeRead chip offset := by
  unfold decodeRead at h
  split_ifs at h with hport hlt <;> obtain rfl := Except.ok.inj h
  · exact ⟨rfl, congrArg (encodeRead chip) hport.symm⟩
  · exact ⟨(isReadOffset_iff offset).2 ⟨hport, hlt⟩, rfl⟩

/-- A well-formed operation's encoding is a word of its own row (R128). -/
theorem mnemonic_encode : ∀ i : Instr, i.wellFormed = true → (encode i).word.mnemonic? = some i.mnemonic
  | .wrPos0 chip c data => Laws.RowMatches.wrPos0 chip c data
  | .wrPos1 chip c data => Laws.RowMatches.wrPos1 chip c data
  | .wrPos2 chip c data => Laws.RowMatches.wrPos2 chip c data
  | .wrApan chip data => Laws.RowMatches.wrApan chip data
  | .wrKon chip data => Laws.RowMatches.wrKon chip data
  | .wrKoff chip data => Laws.RowMatches.wrKoff chip data
  | .wrKstat chip data => Laws.RowMatches.wrKstat chip data
  | .wrSdata chip data => Laws.RowMatches.wrSdata chip data
  | .wrZone chip data => Laws.RowMatches.wrZone chip data
  | .wrCtrl chip data => Laws.RowMatches.wrCtrl chip data
  | .wrMode chip c second data => Laws.RowMatches.wrMode chip c second data
  | .wrChan chip c field data => Laws.RowMatches.wrChan chip c field data
  | .wrPlain chip offset data => Laws.RowMatches.wrPlain chip offset data
  | .rdSdata chip => Laws.RowMatches.rdSdata chip
  | .rdPlain chip offset => Laws.RowMatches.rdPlain chip offset
  | .fmtPcm8 chip c rev => Laws.RowMatches.fmtPcm8 chip c rev
  | .fmtPcm16 chip c rev => Laws.RowMatches.fmtPcm16 chip c rev
  | .fmtDpcm4 chip c rev => Laws.RowMatches.fmtDpcm4 chip c rev
  | .fmtNone chip c => Laws.RowMatches.fmtNone chip c
  | .init chip clockHz rom romLen updateAtKeyon reverbDisable => Laws.RowMatches.init chip clockHz rom romLen updateAtKeyon reverbDisable
  | .exit => Laws.RowMatches.exit
  | .reset chip => Laws.RowMatches.reset chip
  | .setgain chip channel gain => Laws.RowMatches.setgain chip channel gain
  | .setroute chip route volume mask => Laws.RowMatches.setroute chip route volume mask
  | .setpancb chip registered => Laws.RowMatches.setpancb chip registered
  | .update chip out count host => Laws.RowMatches.update chip out count host
  | .snapshot chip => Laws.RowMatches.snapshot chip
  | .restore chip data => Laws.RowMatches.restore chip data
  | .tick chip => Laws.RowMatches.tick chip
  | .chtick chip c => Laws.RowMatches.chtick chip c
  | .keyon chip c => Laws.RowMatches.keyon chip c
  | .keyoff chip c => Laws.RowMatches.keyoff chip c

/-- A bus word decodes to a well-formed operation of its own row (R113, R116, R128). -/
theorem decodeBus_ok {chip : Nat} {t : BitVec 19} {i : Instr} (h : decodeBus chip t = .ok i) :
    i.wellFormed = true ∧ (OpWord.bus t).mnemonic? = some i.mnemonic := by
  have hfields := busWord_fields t
  unfold decodeBus at h
  split_ifs at h with hwrite
  · obtain ⟨hwf, hword⟩ := decodeWrite_ok h
    have hrow := mnemonic_encode i hwf
    rw [hwrite] at hfields
    rw [hword, encodeWrite, hfields] at hrow
    exact ⟨hwf, hrow⟩
  · obtain ⟨hwf, hword⟩ := decodeRead_ok h
    have hrow := mnemonic_encode i hwf
    rw [Bool.not_eq_true] at hwrite
    rw [hwrite] at hfields
    rw [hword, encodeRead, ← mnemonic_busWord false (busOffset t) (busData t), hfields] at hrow
    exact ⟨hwf, hrow⟩

/-- Every mode byte decodes to a well-formed operation of its own row (R122, R128). -/
theorem decodeMode_spec (chip : Nat) (c : Fin 8) (m : Byte) :
    (decodeMode chip c m).wellFormed = true ∧ (OpWord.mode m).mnemonic? = some (decodeMode chip c m).mnemonic := by
  have hrow : ∀ m : Byte, (OpWord.mode m).mnemonic? = some (decodeMode 0 0 m).mnemonic := by decide +kernel
  rw [hrow m]
  unfold decodeMode
  cases modeFormat m <;> exact ⟨rfl, rfl⟩

/-- A host selector decodes to a well-formed operation that encodes to that very selector (R112). -/
theorem decodeHost_ok {chip : Nat} {n : BitVec 4} {a : OpArgs} {i : Instr} (h : decodeHost chip n a = .ok i) :
    i.wellFormed = true ∧ (encode i).word = .host n := by
  unfold decodeHost at h
  split at h
  case h_7 hn =>
    split_ifs at h with hframes
    obtain rfl := Except.ok.inj h
    exact ⟨hframes, congrArg OpWord.host (BitVec.eq_of_toNat_eq hn.symm)⟩
  case h_10 => cases h
  all_goals
    obtain rfl := Except.ok.inj h
    exact ⟨rfl, congrArg OpWord.host (BitVec.eq_of_toNat_eq (Eq.symm ‹n.toNat = _›))⟩

/-- An internal selector decodes to a well-formed operation that encodes to that very selector (R112). -/
theorem decodeInt_spec (chip : Nat) (c : Fin 8) (n : BitVec 2) :
    (decodeInt chip c n).wellFormed = true ∧ (encode (decodeInt chip c n)).word = .int n := by
  have hcase : n = 0 ∨ n = 1 ∨ n = 2 ∨ n = 3 := by
    revert n
    decide
  obtain rfl | rfl | rfl | rfl := hcase <;> exact ⟨rfl, rfl⟩

/-- Whatever a request decodes to is well-formed and of the row of the request's word. -/
theorem decode_ok {r : Request} {i : Instr} (h : decode r = .ok i) :
    i.wellFormed = true ∧ r.word.mnemonic? = some i.mnemonic := by
  obtain ⟨chip, word, a⟩ := r
  cases word with
  | bus t => exact decodeBus_ok h
  | mode m =>
    obtain rfl := Except.ok.inj h
    exact decodeMode_spec chip a.channel m
  | host n =>
    obtain ⟨hwf, hword⟩ := decodeHost_ok h
    exact ⟨hwf, hword ▸ mnemonic_encode i hwf⟩
  | int n =>
    obtain rfl := Except.ok.inj h
    obtain ⟨hwf, hword⟩ := decodeInt_spec chip a.channel n
    exact ⟨hwf, hword ▸ mnemonic_encode _ hwf⟩

/-! ### What does and what does not decode -/

theorem decodeWrite_of_valid (chip : Nat) {offset : BitVec 10} (data : Byte) (h : offset.toNat ≤ 0x22F) :
    ∃ i, decodeWrite chip offset data = .ok i := by
  unfold decodeWrite
  split_ifs
  case neg => omega
  all_goals exact ⟨_, rfl⟩

theorem decodeRead_of_valid (chip : Nat) {offset : BitVec 10} (h : offset.toNat ≤ 0x22F) :
    ∃ i, decodeRead chip offset = .ok i := by
  unfold decodeRead
  split_ifs
  case neg => omega
  all_goals exact ⟨_, rfl⟩

theorem decodeBus_of_valid (chip : Nat) {t : BitVec 19} (h : (busOffset t).toNat ≤ 0x22F) :
    ∃ i, decodeBus chip t = .ok i := by
  unfold decodeBus
  split
  · exact decodeWrite_of_valid chip _ h
  · exact decodeRead_of_valid chip h

theorem decodeHost_unnamed (chip : Nat) {n : BitVec 4} (a : OpArgs) (h : 9 ≤ n.toNat) :
    decodeHost chip n a = .error (.noOperation n) := by
  unfold decodeHost
  split
  case h_10 => rfl
  all_goals omega

theorem Frame.isS16_iff (f : Frame) :
    f.isS16 = true ↔ -32768 ≤ f.left ∧ f.left ≤ 32767 ∧ -32768 ≤ f.right ∧ f.right ≤ 32767 := by
  rw [Frame.isS16, Bool.and_eq_true, Machine.isS16_iff, Machine.isS16_iff, and_assoc]

/-- An Update whose buffer holds a frame outside s16 decodes to nothing (R215, R222). -/
theorem decodeHost_notFrames (chip : Nat) {a : OpArgs} {f : Frame} (hf : f ∈ a.out) (h : f.isS16 ≠ true) :
    decodeHost chip 6 a = .error .notFrames :=
  if_neg fun hall => h (List.all_eq_true.1 hall f hf)

/-- Settles O11: the row of a word is that of what it decodes to, and a valid offset always decodes. -/
theorem decodeFollowsTable : Obligations.DecodeFollowsTable := by
  unfold Obligations.DecodeFollowsTable
  refine ⟨fun _ _ h => (decode_ok h).2, ?_⟩
  rintro ⟨chip, _, a⟩ t rfl h
  exact decodeBus_of_valid chip h

/-- Settles O12, word by word. -/
theorem writtenOutWords : Obligations.WrittenOutWords := by
  unfold Obligations.WrittenOutWords
  decide

end Sys2Proof
end

section
/-! A step and the request it takes: what decodes runs, the rest is refused by name (R110, R112, R215; O1, O4, O10), and
a channel's mode byte runs the form its tick decodes with (R122, R170; O36). -/

namespace Sys2Proof

open Machine

theorem step_of_decode_ok {s : State} {r : Request} {rest : List Request} {i : Instr} (hs : s.pending = r :: rest)
    (h : decode r = .ok i) : step s = exec i (s.withPending rest) := by
  simp [step, hs, h]

theorem step_of_decode_error {s : State} {r : Request} {rest : List Request} {e : DecodeError}
    (hs : s.pending = r :: rest) (h : decode r = .error e) :
    step s = rejectRequest r.chip e (s.withPending rest) := by
  simp [step, hs, h]

theorem decode_host {r : Request} {n : BitVec 4} (h : r.word = .host n) : decode r = decodeHost r.chip n r.args := by
  simp [decode, h]

/-- Settles O1. -/
theorem stepRunsDecodedOperation : Obligations.StepRunsDecodedOperation := by
  unfold Obligations.StepRunsDecodedOperation
  exact fun s r rest i hs h => step_of_decode_ok hs h

/-- Settles O4: such a selector decodes to nothing, and is refused as itself. -/
theorem unnamedSelectorsRefused : Obligations.UnnamedSelectorsRefused := by
  unfold Obligations.UnnamedSelectorsRefused
  intro s r rest n hs hword hn
  rw [step_of_decode_error hs ((decode_host hword).trans (decodeHost_unnamed r.chip r.args hn))]
  rfl

/-- Settles O10: what decodes is well-formed, and one bad frame in the buffer is enough for no Update to be decoded. -/
theorem decodedAreWellFormed : Obligations.DecodedAreWellFormed := by
  unfold Obligations.DecodedAreWellFormed
  refine ⟨fun _ _ h => (decode_ok h).1, ?_⟩
  intro s r rest f hs hword hf hbad
  have hframe : f.isS16 ≠ true := mt f.isS16_iff.1 hbad
  rw [step_of_decode_error hs ((decode_host hword).trans (decodeHost_notFrames r.chip hf hframe))]
  rfl

/-- The form a mode byte decodes to is, on a chip with that mode byte, the one the channel's tick runs (R122). -/
theorem exec_decodeMode (chip : Nat) (c : Fin 8) (m : Byte) (s : State) :
    ∃ form, exec (decodeMode chip c m) s = runDecode chip c form s ∧
      ∀ i : ChipInstance, i.mode c = m → form i = i.decodeSample c := by
  unfold decodeMode ChipInstance.decodeSample
  dsimp only
  cases hformat : modeFormat m with
  | pcm8 => exact ⟨fun i => decodePcm8 i c (modeRev m) (i.resume c), rfl, fun i hi => by rw [hi, hformat]⟩
  | pcm16 => exact ⟨fun i => decodePcm16 i c (modeRev m) (i.resume c), rfl, fun i hi => by rw [hi, hformat]⟩
  | dpcm4 => exact ⟨fun i => decodeDpcm4 i c (modeRev m) (i.resume c), rfl, fun i hi => by rw [hi, hformat]⟩
  | none => exact ⟨fun i => decodeNone (i.resume c), rfl, fun i hi => by rw [hi, hformat]⟩

/-- Settles O36: the form runs on the chip whose mode byte chose it. -/
theorem tickDecodesByModeByte : Obligations.TickDecodesByModeByte := by
  unfold Obligations.TickDecodesByModeByte
  intro s t chip c op hdecode hexec
  obtain rfl := Except.ok.inj hdecode
  obtain ⟨form, hrun, hform⟩ := exec_decodeMode chip c ((s.chip chip).reg (0x200 + 2 * c.val)) s
  rw [hrun] at hexec
  obtain ⟨hready, -⟩ := onChip_next hexec
  obtain ⟨u, hu, -, hanswer, hended⟩ := runsOn_runDecode hready c form
  obtain rfl : u = t := Host.Outcome.next.inj (hu.symm.trans hexec)
  rw [hform _ rfl] at hanswer hended
  exact ⟨hanswer, hended⟩

end Sys2Proof
end

section
/-! Register stores (R141, R143, R148) and the plain read (R152): O13, O14, O15, O23, and the read of what was stored
(O24). -/

namespace Sys2Proof

open Machine

/-! ### Position bytes and latches -/

theorem Machine.ChipInstance.latching_iff (i : ChipInstance) :
    i.latching = true ↔ i.flags.updateAtKeyon = true ∧ (i.reg 0x22F).getLsbD 0 = true :=
  Bool.and_eq_true_iff

theorem exec_writePosOp (chip : Nat) (c : Fin 8) (k : Fin 3) (data : Byte) (s : State) :
    exec (writePosOp chip c k data) s = updateChip chip s fun i => i.writePos c k data :=
  match k with
  | 0 => rfl
  | 1 => rfl
  | 2 => rfl

/-- Settles O13: the latching condition chooses between a latch byte and a register. -/
theorem positionWrite : Obligations.PositionWrite := by
  unfold Obligations.PositionWrite
  intro s chip c k data hs
  dsimp only
  rw [exec_writePosOp]
  refine runsOn_updateChip hs _ ?_
  split
  next hlatching =>
    rw [ChipInstance.writePos, if_pos ((ChipInstance.latching_iff _).2 hlatching)]
    exact ⟨rfl, by simp [ChipInstance.latch_setLatch], fun d l hdl => by simp [ChipInstance.latch_setLatch, hdl]⟩
  next hlive =>
    rw [ChipInstance.writePos, if_neg (mt (ChipInstance.latching_iff _).1 hlive)]
    exact regsOnly_setReg _ _ _

/-! ### Plain stores and reads -/

theorem exec_wrPlain_of_lt {s : State} {chip : Nat} {o : BitVec 10} (hs : s.Ready chip) (ho : o.toNat < 0x230)
    (data : Byte) : exec (.wrPlain chip o data) s = storeReg chip o.toNat data s := by
  rw [exec, execWrPlain, withChip_ready hs, if_pos ho]
  exact (storeReg_ready hs _ _).symm

theorem exec_rdPlain_of_lt {s : State} {chip : Nat} {o : BitVec 10} (hs : s.Ready chip) (ho : o.toNat < 0x230) :
    exec (.rdPlain chip o) s = finish chip s (s.chip chip) (.byte ((s.chip chip).reg o.toNat)) := by
  rw [exec, execRdPlain, withChip_ready hs, if_pos ho]

theorem ready_of_exec_rdPlain {s t : State} {chip : Nat} {o : BitVec 10} (h : exec (.rdPlain chip o) s = .next t) :
    s.Ready chip := by
  rw [exec, execRdPlain] at h
  exact (withChip_next h).1

theorem lt_of_isPlainOffset {o : BitVec 10} (h : isPlainOffset o = true) : o.toNat < 0x230 := by
  obtain ⟨-, -, -, -, -, -, -, -, -, hlt⟩ := (isPlainOffset_iff o).1 h
  exact hlt

/-- A register of `WR.PLAIN` is one of `RD.PLAIN`. -/
theorem isReadOffset_of_isPlainOffset {o : BitVec 10} (h : isPlainOffset o = true) : isReadOffset o = true := by
  obtain ⟨-, -, -, -, -, hne, -, -, -, hlt⟩ := (isPlainOffset_iff o).1 h
  exact (isReadOffset_iff o).2 ⟨hne, hlt⟩

/-- Settles O14: each of the five is the shared store at its own offset. -/
theorem plainStore : Obligations.PlainStore := by
  unfold Obligations.PlainStore
  intro s chip data hs
  refine ⟨storesByte_storeReg hs _ _, storesByte_storeReg hs _ _, fun c second => storesByte_storeReg hs _ _,
    fun c field _ => storesByte_storeReg hs _ _, fun o ho => ?_⟩
  rw [exec_wrPlain_of_lt hs (lt_of_isPlainOffset ho)]
  exact storesByte_storeReg hs _ _

/-- Settles O23. -/
theorem plainRead : Obligations.PlainRead := by
  unfold Obligations.PlainRead
  intro s chip o hs ho
  obtain ⟨-, hlt⟩ := (isReadOffset_iff o).1 ho
  rw [exec_rdPlain_of_lt hs hlt]
  exact runsOn_finish hs.1 rfl

/-- Settles O24: the read answers the register (O23), and the register is what the store made it. -/
theorem plainStoreReadsBack : Obligations.PlainStoreReadsBack := by
  unfold Obligations.PlainStoreReadsBack
  intro s t u chip o data ho hwrite hread
  have hchip : t.chip chip = (s.chip chip).setReg o.toNat data := by
    rw [exec_chip rfl hwrite, if_pos rfl]
    rfl
  obtain ⟨v, hv, -, hanswer, -⟩ := plainRead t chip o (ready_of_exec_rdPlain hread)
    (isReadOffset_of_isPlainOffset ho)
  obtain rfl : v = u := Host.Outcome.next.inj (hv.symm.trans hread)
  simp [hanswer, hchip]

/-! ### The auxiliary pan -/

/-- The code range of R143 and its centre fallback (decision D5). -/
theorem auxPanIndex_val (code : Byte) :
    (auxPanIndex code).val = if 0x11 ≤ code.toNat ∧ code.toNat ≤ 0x1F then code.toNat - 0x11 else 7 := by
  have hrange : 0x11 ≤ code.toNat ∧ code.toNat ≤ 0x1F ↔ Config.panB ≤ code.toNat ∧ code.toNat < Config.panB + 15 := by
    simp only [Config.panB]
    omega
  simp only [auxPanIndex, panRange, hrange]
  split <;> rfl

theorem exec_wrApan {s : State} {chip : Nat} (hs : s.Ready chip) (data : Byte) :
    exec (.wrApan chip data) s =
      finish chip (if (s.chip chip).panCallback then s.emitPan (panEventOf chip data) else s)
        ((s.chip chip).setReg 0x13F data) .done := by
  rw [exec, execWrApan, withChip_ready hs]

/-- Settles O15. -/
theorem auxiliaryPanWrite : Obligations.AuxiliaryPanWrite := by
  unfold Obligations.AuxiliaryPanWrite
  intro s chip data p hs hp
  obtain rfl : p = auxPanIndex data := Fin.ext (hp.trans (auxPanIndex_val data).symm)
  refine ⟨_, exec_wrApan hs data, ?_⟩
  have hstore := regsOnly_setReg (s.chip chip) 0x13F data
  cases (s.chip chip).panCallback
  all_goals
    refine ⟨fun k hk => by simp [hk], rfl, rfl, by simp [panEventOf, mirrorPan], ?_⟩
    simpa [hs.1] using hstore

end Sys2Proof
end

section
/-! Key-on and key-off, of one channel (R154, R155; O18, O19) and by mask (R144, R145; O16, O17). -/

namespace Sys2Proof.Machine

theorem ChipInstance.RegsOnly.setReg {i j : ChipInstance} {written : Nat → Prop} (h : i.RegsOnly j written) (o : Nat)
    (v : Byte) : i.RegsOnly (j.setReg o v) fun a => a = o ∨ written a := by
  obtain ⟨hsame, hregs⟩ := h
  refine ⟨?_, fun a ha => ?_⟩
  · rw [setReg_eq, hsame]
  · obtain ⟨hne, hnot⟩ := not_or.1 ha
    rw [reg_setReg, if_neg hne, hregs a hnot]

theorem exec_keyon (chip : Nat) (c : Fin 8) (s : State) :
    exec (.keyon chip c) s = updateChip chip s fun i => i.keyOn c := rfl

theorem exec_keyoff (chip : Nat) (c : Fin 8) (s : State) :
    exec (.keyoff chip c) s = updateChip chip s fun i => i.keyOff c := rfl

theorem exec_wrKon (chip : Nat) (data : Byte) (s : State) :
    exec (.wrKon chip data) s =
      updateChip chip s fun i => (forMask data (ChipInstance.startChannel i.latching) i).setReg 0x214 data := rfl

theorem exec_wrKoff (chip : Nat) (data : Byte) (s : State) :
    exec (.wrKoff chip data) s =
      updateChip chip s fun i => (forMask data ChipInstance.keyOff i).setReg 0x215 data := rfl

theorem ChipInstance.keyOn_of_inhibited {i : ChipInstance} (h : i.inhibited = true) (c : Fin 8) : i.keyOn c = i :=
  if_pos h

theorem ChipInstance.keyOff_of_inhibited {i : ChipInstance} (h : i.inhibited = true) (c : Fin 8) : i.keyOff c = i :=
  if_pos h

theorem ChipInstance.regsOnly_keyOn (i : ChipInstance) (c : Fin 8) : i.RegsOnly (i.keyOn c) (· = 0x22C) :=
  ⟨i.keyOn_eq c, fun a ha => by simp [reg_keyOn, ha]⟩

theorem ChipInstance.regsOnly_keyOff (i : ChipInstance) (c : Fin 8) : i.RegsOnly (i.keyOff c) (· = 0x22C) :=
  ⟨i.keyOff_eq c, fun a ha => by simp [reg_keyOff, ha]⟩

theorem regsOnly_forMask_keyOff (mask : Byte) (i : ChipInstance) :
    i.RegsOnly (forMask mask ChipInstance.keyOff i) (· = 0x22C) :=
  ⟨forMask_eq mask ChipInstance.keyOff_eq i, (forMask_keyOff mask i).1⟩

/-- A key-on mask writes the status and, with latching, the position bytes of the channels it selects (R144). -/
theorem regsOnly_forMask_startChannel (mask : Byte) (latching : Bool) (i : ChipInstance) :
    i.RegsOnly (forMask mask (ChipInstance.startChannel latching) i) fun a => a = 0x22C ∨
      ∃ (c : Fin 8) (k : Fin 3), latching = true ∧ mask.getLsbD c.val = true ∧ a = posOffset c k := by
  obtain ⟨⟨hother, hpos⟩, -⟩ := forMask_startChannel mask latching i
  refine ⟨forMask_eq mask (ChipInstance.startChannel_eq latching) i, fun a ha => ?_⟩
  obtain ⟨hstatus, hunselected⟩ := not_or.1 ha
  by_cases hposition : ∃ c k, a = posOffset c k
  · obtain ⟨c, k, rfl⟩ := hposition
    rw [hpos, if_neg]
    rintro ⟨hlatching, hselected⟩
    exact hunselected ⟨c, k, hlatching, hselected, rfl⟩
  · exact hother a hstatus fun c k hck => hposition ⟨c, k, hck⟩

end Sys2Proof.Machine

namespace Sys2Proof

open Machine

/-- Settles O18. -/
theorem keyOnOperation : Obligations.KeyOnOperation := by
  unfold Obligations.KeyOnOperation
  intro s chip c hs
  rw [exec_keyon]
  refine runsOn_updateChip hs _ ?_
  split
  next hinhibited => exact ChipInstance.keyOn_of_inhibited hinhibited c
  next hfree =>
    have hnot : (s.chip chip).inhibited = false := Bool.eq_false_iff.2 hfree
    refine ⟨ChipInstance.regsOnly_keyOn _ c, fun d => ?_⟩
    have hactive := (s.chip chip).active_keyOn c d
    rwa [hnot, Bool.not_false, Bool.and_true, Bool.or_comm] at hactive

/-- Settles O19. -/
theorem keyOffOperation : Obligations.KeyOffOperation := by
  unfold Obligations.KeyOffOperation
  intro s chip c hs
  rw [exec_keyoff]
  refine runsOn_updateChip hs _ ?_
  split
  next hinhibited => exact ChipInstance.keyOff_of_inhibited hinhibited c
  next hfree =>
    have hnot : (s.chip chip).inhibited = false := Bool.eq_false_iff.2 hfree
    refine ⟨ChipInstance.regsOnly_keyOff _ c, fun d => ?_⟩
    have hactive := (s.chip chip).active_keyOff c d
    rwa [hnot, Bool.not_false, Bool.and_true, Bool.and_comm] at hactive

/-- Settles O16: the loop over the mask's channels, then the store of the mask at `0x214`, which none of them writes. -/
theorem keyOnMaskWrite : Obligations.KeyOnMaskWrite := by
  unfold Obligations.KeyOnMaskWrite
  intro s chip data hs
  obtain ⟨⟨-, hpos⟩, hstatus⟩ := forMask_startChannel data (s.chip chip).latching (s.chip chip)
  rw [exec_wrKon]
  refine runsOn_updateChip hs _ ⟨(regsOnly_forMask_startChannel data _ _).setReg 0x214 data, ?_, ?_, ?_⟩
  · exact (ChipInstance.reg_setReg _ _ _ _).trans (if_pos rfl)
  · exact (ChipInstance.reg_setReg _ _ _ _).trans hstatus
  · intro hlatching c k hselected
    have hne : posOffset c k ≠ 0x214 := by have := posOffset_lt c k; omega
    change ChipInstance.reg _ (posOffset c k) = _
    rw [ChipInstance.reg_setReg, if_neg hne, hpos]
    exact if_pos ⟨hlatching, hselected⟩

/-- Settles O17: the loop over the mask's channels, then the store of the mask at `0x215`. -/
theorem keyOffMaskWrite : Obligations.KeyOffMaskWrite := by
  unfold Obligations.KeyOffMaskWrite
  intro s chip data hs
  obtain ⟨-, hstatus⟩ := forMask_keyOff data (s.chip chip)
  rw [exec_wrKoff]
  refine runsOn_updateChip hs _ ⟨(regsOnly_forMask_keyOff data _).setReg 0x215 data, ?_, ?_⟩
  · exact (ChipInstance.reg_setReg _ _ _ _).trans (if_pos rfl)
  · exact (ChipInstance.reg_setReg _ _ _ _).trans hstatus

end Sys2Proof
end

section
/-! The serial window (R88, R89): its byte and limit as functions of the zone select, and the three operations on it
(R146, R147, R151; O20, O21, O22). -/

namespace Sys2Proof.Machine

theorem ChipInstance.zoneLimit_eq (i : ChipInstance) :
    i.zoneLimit = if i.reg 0x22E = 0x80 then 0x4000 else 0x20000 := rfl

theorem ChipInstance.zone_eq (i : ChipInstance) :
    i.zone = if i.reg 0x22E = 0x80 then .ram else .rom ((i.reg 0x22E).toNat * 0x20000) := rfl

/-- The byte the window shows (R88). -/
theorem ChipInstance.zoneByte_eq (i : ChipInstance) :
    i.zoneByte = if i.reg 0x22E = 0x80 then i.ramByte i.zoneCursor
      else i.romRead ((i.reg 0x22E).toNat * 0x20000 + i.zoneCursor : Nat) := by
  unfold zoneByte
  rw [zone_eq]
  by_cases h : i.reg 0x22E = 0x80
  · rw [if_pos h, if_pos h]
  · rw [if_neg h, if_neg h]

/-- `ZoneWrite` stores in a RAM zone and advances in every zone (R89). -/
theorem ChipInstance.zoneWrite_eq (i : ChipInstance) (b : Byte) :
    i.zoneWrite b = (if i.reg 0x22E = 0x80 then i.setRamByte i.zoneCursor b else i).advanceZone := by
  unfold zoneWrite
  rw [zone_eq]
  by_cases h : i.reg 0x22E = 0x80
  · rw [if_pos h, if_pos h]
  · rw [if_neg h, if_neg h]

/-- `ZoneWrite` touches the RAM and the cursor only. -/
theorem ChipInstance.zoneWrite_frame (i : ChipInstance) (b : Byte) :
    i.zoneWrite b = { i with ram := (i.zoneWrite b).ram, zoneCursor := (i.zoneWrite b).zoneCursor } := by
  rw [zoneWrite_eq]
  split <;> rfl

theorem ChipInstance.reg_zoneWrite (i : ChipInstance) (b : Byte) (a : Nat) : (i.zoneWrite b).reg a = i.reg a := by
  rw [zoneWrite_frame]
  rfl

theorem ChipInstance.ramByte_zoneWrite (i : ChipInstance) (b : Byte) (a : Nat) :
    (i.zoneWrite b).ramByte a = if i.reg 0x22E = 0x80 ∧ a = i.zoneCursor then b else i.ramByte a := by
  rw [zoneWrite_eq]
  by_cases h : i.reg 0x22E = 0x80
  · simp only [h, ↓reduceIte, true_and]
    exact i.ramByte_setRamByte a i.zoneCursor b
  · simp only [h, ↓reduceIte, false_and]
    rfl

theorem ChipInstance.zoneCursor_zoneWrite (i : ChipInstance) (b : Byte) :
    (i.zoneWrite b).zoneCursor = i.advanceZone.zoneCursor := by
  rw [zoneWrite_eq]
  split <;> rfl

/-! ### The operations -/

theorem exec_wrSdata (chip : Nat) (data : Byte) (s : State) :
    exec (.wrSdata chip data) s = updateChip chip s fun i => (i.zoneWrite data).setReg 0x22D data := rfl

theorem exec_wrZone (chip : Nat) (data : Byte) (s : State) :
    exec (.wrZone chip data) s = updateChip chip s fun i => { i with zoneCursor := 0 }.setReg 0x22E data := rfl

theorem exec_rdSdata_enabled {s : State} {chip : Nat} (hs : s.Ready chip) (h : (s.chip chip).readEnabled = true) :
    exec (.rdSdata chip) s = finish chip s (s.chip chip).advanceZone (.byte (s.chip chip).zoneByte) := by
  rw [exec, execRdSdata, onChip_ready hs, if_pos h]
  rfl

theorem exec_rdSdata_disabled {s : State} {chip : Nat} (hs : s.Ready chip) (h : ¬ (s.chip chip).readEnabled = true) :
    exec (.rdSdata chip) s = finish chip s (s.chip chip) (.byte 0) := by
  rw [exec, execRdSdata, onChip_ready hs, if_neg h]
  rfl

end Sys2Proof.Machine

namespace Sys2Proof

open Machine

/-- Settles O20: `ZoneWrite`, then the store of the byte at `0x22D`. -/
theorem serialWrite : Obligations.SerialWrite := by
  unfold Obligations.SerialWrite
  intro s chip data hs
  rw [exec_wrSdata]
  refine runsOn_updateChip hs _ ⟨?_, fun a => ?_, fun a => ?_, ?_⟩
  · rw [ChipInstance.zoneWrite_frame]
    rfl
  · rw [ChipInstance.reg_setReg, ChipInstance.reg_zoneWrite]
  · exact ChipInstance.ramByte_zoneWrite _ data a
  · exact ChipInstance.zoneCursor_zoneWrite _ data

/-- Settles O21: the zone select is read back as the byte just stored, at cursor 0. -/
theorem zoneSelect : Obligations.ZoneSelect := by
  unfold Obligations.ZoneSelect
  intro s chip data hs
  have hreg (a : Nat) : ({ s.chip chip with zoneCursor := 0 }.setReg 0x22E data).reg a =
      if a = 0x22E then data else (s.chip chip).reg a := ChipInstance.reg_setReg _ _ _ _
  rw [exec_wrZone]
  refine runsOn_updateChip hs _ ⟨rfl, hreg, ?_, ?_⟩
  · rw [ChipInstance.zoneLimit_eq, hreg, if_pos rfl]
  · rw [ChipInstance.zoneByte_eq, hreg, if_pos rfl]
    simp only [ChipInstance.setReg_zoneCursor, Nat.add_zero]
    rfl

/-- Settles O22. -/
theorem serialRead : Obligations.SerialRead := by
  unfold Obligations.SerialRead
  intro s chip hs
  dsimp only
  split
  next henabled =>
    rw [exec_rdSdata_enabled hs henabled, ChipInstance.zoneByte_eq]
    exact runsOn_finish hs.1 rfl
  next hdisabled =>
    rw [exec_rdSdata_disabled hs hdisabled]
    exact runsOn_finish hs.1 rfl

end Sys2Proof
end

section
/-! The two PCM fetches (R178, R179; O27). -/

namespace Sys2Proof.Machine

/-- The low bytes of a unit decide which of the 65536 samples it is. -/
theorem sext16_eq_min_iff {n : Nat} (h : n < 0x10000) : sext16 n = -32768 ↔ n = 0x8000 := by
  unfold sext16
  split <;> omega

/-- The value of R178 as one of its 256 multiples of 256. -/
theorem ChipInstance.fetch8_eq (i : ChipInstance) (p : Int) :
    i.fetch8 p = 256 * ((i.romRead p).toNat - if 0x80 ≤ (i.romRead p).toNat then 256 else 0 : Int) := by
  have hbyte := (i.romRead p).isLt
  unfold ChipInstance.fetch8 sext16
  split_ifs <;> omega

theorem ChipInstance.fetch8_eq_sentinel_iff (i : ChipInstance) (p : Int) :
    i.fetch8 p = -32768 ↔ i.romRead p = 0x80 := by
  have hbyte := (i.romRead p).isLt
  rw [ChipInstance.fetch8, ← BitVec.toNat_inj]
  have hsext := sext16_eq_min_iff (n := 256 * (i.romRead p).toNat) (by omega)
  push_cast at hsext
  rw [hsext]
  change _ ↔ _ = 0x80
  omega

theorem ChipInstance.fetch16_eq_sentinel_iff (i : ChipInstance) (p : Int) :
    i.fetch16 p = -32768 ↔ i.romRead p = 0x00 ∧ i.romRead (p + 1) = 0x80 := by
  have hlow := (i.romRead p).isLt
  have hhigh := (i.romRead (p + 1)).isLt
  rw [ChipInstance.fetch16, ← BitVec.toNat_inj, ← BitVec.toNat_inj]
  have hsext := sext16_eq_min_iff (n := (i.romRead p).toNat + 256 * (i.romRead (p + 1)).toNat) (by omega)
  push_cast at hsext
  rw [hsext]
  change _ ↔ _ = 0x00 ∧ _ = 0x80
  omega

end Sys2Proof.Machine

namespace Sys2Proof

open Machine

/-- Settles O27. -/
theorem fetchUnits : Obligations.FetchUnits := by
  unfold Obligations.FetchUnits
  intro i p
  have hbyte := (i.romRead p).isLt
  have hfetch := i.fetch8_eq p
  refine ⟨?_, ?_, ?_, ?_, i.fetch8_eq_sentinel_iff p, ?_, i.fetch16_eq_sentinel_iff p⟩
  · rw [ChipInstance.fetch8, mul_comm]
  · omega
  · split at hfetch <;> omega
  · split at hfetch <;> omega
  · rw [ChipInstance.fetch16, mul_comm 256]

end Sys2Proof
end

section
/-! The resolved gains (R171, R172, R173; O56): the real a capped product stands for, and the operands of the three
gains as register bytes. -/

namespace Sys2Proof

/-! ### The cap -/

theorem Monomial.value_cap {x : Monomial} (hx : x.factors = []) : x.cap.value = min x.value (9 / 5) := by
  have hcap : ((Config.volCap : Rat) : ℝ) = 9 / 5 := by norm_num [Config.volCap]
  have hle := x.leRat_iff Config.volCap (by norm_num [Config.volCap]) hx
  rw [hcap] at hle
  unfold Monomial.cap
  split
  next h => rw [min_eq_left (hle.1 h)]
  next h => rw [Monomial.value_ofRat, hcap, min_eq_right (not_le.1 (mt hle.2 h)).le]

/-- A capped factor of a product with the host's `k`-th number. -/
theorem Monomial.value_capped {q : Rat} (hq : 0 < q) (tens rad k : Nat) :
    Monomial.value ⟨1, 0, 1, [.capped q.num.toNat q.den tens rad k]⟩ =
      min (Monomial.value ⟨q, tens, rad, [.size k]⟩) (9 / 5) := by
  simp [Monomial.value, Factor.value, rootValue_one, ← ratCast_eq q hq.le]

/-- A product that is not positive lies below the cap. -/
theorem Monomial.value_nonpos {x : Monomial} (hx : x.coeff ≤ 0) {k : Nat} (hf : x.factors = [.size k]) :
    x.value ≤ 0 := by
  have hcoeff : (x.coeff : ℝ) ≤ 0 := by exact_mod_cast hx
  have hsize := (sizeValue_pos k).le
  rw [Monomial.value, hf, List.map_singleton, List.prod_singleton, Factor.value]
  exact mul_nonpos_of_nonpos_of_nonneg (mul_nonpos_of_nonpos_of_nonneg hcoeff (rootValue_nonneg _ _)) hsize

theorem Monomial.factors_scale {x : Monomial} (hx : x.factors = []) (q : Rat) : (x.scale q).factors = [] := by
  unfold Monomial.scale
  split
  · rfl
  · exact hx

theorem Monomial.factors_norm {x : Monomial} (hx : x.factors = []) : x.norm.factors = [] := by
  unfold Monomial.norm
  split
  · rfl
  · exact hx

theorem Monomial.factors_mul {x y : Monomial} (hx : x.factors = []) (hy : y.factors = []) :
    (x.mul y).factors = [] :=
  Monomial.factors_norm (by rw [hx, hy]; rfl)

theorem Monomial.times_named_eq_zero_or {x : Monomial} {negative : Bool} {k : Nat} :
    x.times (.named negative k) = Monomial.zero ∨
      (x.times (.named negative k)).factors = .size k :: x.factors := by
  unfold Monomial.times
  dsimp only
  split
  · exact .inl rfl
  · exact .inr rfl

/-- R173: a resolved gain is the capped product of a table product with the host's gain. -/
theorem Monomial.value_resolve {x : Monomial} (hx : x.factors = []) (g : HostReal) :
    (x.resolve g).value = min (x.value * g.value) (9 / 5) := by
  rw [← Monomial.value_times]
  cases g with
  | rat q => exact Monomial.value_cap (Monomial.factors_scale hx q)
  | named negative k =>
    unfold Monomial.resolve
    dsimp only
    rcases x.times_named_eq_zero_or (negative := negative) (k := k) with hzero | hfactors
    · rw [hzero, if_pos (show Monomial.zero.coeff ≤ 0 from le_refl _), Monomial.value_zero, min_eq_left (by norm_num)]
    · rw [hx] at hfactors
      split
      next hcoeff =>
        have := Monomial.value_nonpos hcoeff hfactors
        rw [min_eq_left (by linarith)]
      next hcoeff =>
        rw [Monomial.value_capped (not_le.1 hcoeff), ← hfactors]

theorem volTab_factors (k : Byte) : (volTab k).factors = [] := Monomial.factors_norm rfl

theorem panTab_factors (k : Fin 15) : (panTab k).factors = [] := Monomial.factors_norm rfl

/-! ### The pan index -/

theorem Machine.panIndex_val (code : Byte) :
    (panIndex code).val = if 0x81 ≤ code.toNat ∧ code.toNat ≤ 0x8F then code.toNat - 0x81
      else if 0x11 ≤ code.toNat ∧ code.toNat ≤ 0x1F then code.toNat - 0x11 else 7 := by
  unfold panIndex
  by_cases hcode : 0x81 ≤ code.toNat ∧ code.toNat ≤ 0x8F
  · rw [if_pos hcode, panRange, dif_pos (by unfold Config.panA; omega)]
    rfl
  · rw [if_neg hcode, panRange, dif_neg (by unfold Config.panA; omega)]
    exact auxPanIndex_val code

theorem Machine.mirrorPan_cast (k : Fin 15) : ((mirrorPan k).val : ℝ) = 14 - k.val := by
  rw [mirrorPan, Nat.cast_sub (by omega)]
  norm_num

/-! ### The gains -/

open Machine

theorem Machine.ChipInstance.bval_toNat (i : ChipInstance) (c : Fin 8) :
    (i.bval c).toNat = min ((i.vol c).toNat + (i.reg (blockBase c + 0x04)).toNat) 255 := by
  rw [ChipInstance.bval, BitVec.toNat_ofNat, Nat.mod_eq_of_lt (by omega)]

/-- A gain of the stereo pair, for the table index of either side. -/
theorem value_resolve_volTab_panTab (v : Byte) (k : Fin 15) (g : HostReal) :
    (((volTab v).mul (panTab k)).resolve g).value =
      min ((10 : ℝ) ^ ((-36 * (v.toNat : ℝ) / 64) / 20) / 4 * √((k.val : ℝ) / 14) * g.value) (9 / 5) := by
  rw [Monomial.value_resolve (Monomial.factors_mul (volTab_factors v) (panTab_factors k)), Monomial.value_mul,
    volTab_value, panTab_value]

theorem value_resolve_half_volTab (v : Byte) (g : HostReal) :
    (((volTab v).scale (1 / 2)).resolve g).value =
      min ((10 : ℝ) ^ ((-36 * (v.toNat : ℝ) / 64) / 20) / 4 * g.value / 2) (9 / 5) := by
  rw [Monomial.value_resolve (Monomial.factors_scale (volTab_factors v) _), Monomial.value_scale, volTab_value]
  congr 1
  push_cast
  ring

/-- Settles O56: each gain is a resolved table product. -/
theorem resolvedGains : Obligations.ResolvedGains := by
  unfold Obligations.ResolvedGains
  intro i c idx vol bval pan volume hidx
  obtain rfl : idx = panIndex (i.panb c) := Fin.ext (hidx.trans (panIndex_val (i.panb c)).symm)
  simp only [Monomial.denotes_iff]
  refine ⟨(value_resolve_volTab_panTab _ _ _).symm, ?_, ?_⟩
  · rw [ChipInstance.rightGain, value_resolve_volTab_panTab, mirrorPan_cast]
    rfl
  · rw [ChipInstance.reverbGain, value_resolve_half_volTab, ChipInstance.bval_toNat]
    rfl

end Sys2Proof
end

section
/-! The decode forms run on their own (R176 to R185; O29 to O35): the PCM forms and the DPCM form as one step loop each,
their answers on a stretch without sentinel, at a sample's end, and at a loop jump. -/

namespace Sys2Proof.Machine

/-! ### Running a decode form -/

theorem exec_fmtPcm8 (chip : Nat) (c : Fin 8) (rev : Bool) (s : State) :
    exec (.fmtPcm8 chip c rev) s = runDecode chip c (fun i => decodePcm8 i c rev (i.resume c)) s := rfl

theorem exec_fmtPcm16 (chip : Nat) (c : Fin 8) (rev : Bool) (s : State) :
    exec (.fmtPcm16 chip c rev) s = runDecode chip c (fun i => decodePcm16 i c rev (i.resume c)) s := rfl

theorem exec_fmtDpcm4 (chip : Nat) (c : Fin 8) (rev : Bool) (s : State) :
    exec (.fmtDpcm4 chip c rev) s = runDecode chip c (fun i => decodeDpcm4 i c rev (i.resume c)) s := rfl

theorem exec_fmtNone (chip : Nat) (c : Fin 8) (s : State) :
    exec (.fmtNone chip c) s = runDecode chip c (fun i => decodeNone (i.resume c)) s := rfl

/-- A form whose sample goes on leaves the instance as it was. -/
theorem runsOn_of_playing {op : Instr} {s : State} {id : Nat} {c : Fin 8} {form : ChipInstance → Decoded}
    {st : ChanState} {mixed : Bool} (hop : exec op s = runDecode id c form s) (hs : s.Ready id)
    (hform : form (s.chip id) = ⟨st, false, mixed⟩) :
    RunsOn (exec op s) s id (.decoded st mixed) (· = s.chip id) := by
  rw [hop]
  exact runsOn_onChip hs _ (by rw [hform]) (by rw [hform]; rfl)

/-- A form whose sample ends clears the channel's status bit, unless inhibited (R185). -/
theorem runsOn_of_ending {op : Instr} {s : State} {id : Nat} {c : Fin 8} {form : ChipInstance → Decoded}
    {st : ChanState} {mixed : Bool} (hop : exec op s = runDecode id c form s) (hs : s.Ready id)
    (hform : form (s.chip id) = ⟨st, true, mixed⟩) :
    RunsOn (exec op s) s id (.decoded st mixed) fun j => (s.chip id).RegsOnly j (· = 0x22C) ∧
      j.reg 0x22C = if ((s.chip id).reg 0x22F).getLsbD 7 then (s.chip id).reg 0x22C
        else (s.chip id).reg 0x22C &&& ~~~(1#8 <<< c.val) := by
  have hrun := runsOn_runDecode hs c form
  rw [← hop, hform] at hrun
  refine hrun.mono fun j hj => ⟨hj.1, hj.2.trans ?_⟩
  cases ((s.chip id).reg 0x22F).getLsbD 7 <;> simp

/-! ### The step loop -/

/-- Forward or in reverse (R176). -/
def direction (rev : Bool) : Int := if rev then -1 else 1

/-- The whole steps in a fraction out of range (R176). -/
def wholeSteps (rev : Bool) (f : Int) : Nat := (if rev then (0xFFFF - f) / 0x10000 else f / 0x10000).toNat

theorem Codec.move_eq (k : Codec) (rev : Bool) : k.move rev = k.stride * direction rev := by
  unfold Codec.move direction
  cases rev <;> simp

/-- The steps of the loop keep the remainder of the fraction (R177, R180). -/
theorem fraction_emod_steps (rev : Bool) (f : Int) (m : Nat) :
    (f + (if rev then 0x10000 else -0x10000) * m) % 0x10000 = f % 0x10000 := by
  cases rev <;> simp only [Bool.false_eq_true, if_false, if_true] <;> omega

section
variable (k : Codec) (rev loopDis : Bool) (delta : Nat) (pos val pval : Int) {pf : Nat} {f : Int}

/-- `Codec.run_through` with the count of steps named. -/
theorem Codec.run_of_plain (h : pf ≤ 0xFFFF) (hf : pf + direction rev * delta = f) {n : Nat}
    (hn : wholeSteps rev f = n)
    (hplain : ∀ j : Nat, 1 ≤ j → j ≤ n → k.fetch (pos + k.stride * direction rev * j) ≠ k.sentinel) :
    k.run rev loopDis delta pos pf val pval =
      ⟨pos + k.stride * direction rev * n, f + (if rev then 0x10000 else -0x10000) * n,
        k.played rev ⟨pos, f, val, pval, false⟩ n,
        if n = 0 then pval else k.played rev ⟨pos, f, val, pval, false⟩ (n - 1), false⟩ := by
  subst hf hn
  rw [← k.move_eq] at *
  exact k.run_through rev loopDis delta pos pf val pval (by omega) (by omega) hplain

/-- `Codec.run_ends` with the count of steps named. -/
theorem Codec.run_of_sentinel (h : pf ≤ 0xFFFF) (hf : pf + direction rev * delta = f) {m : Nat} (h1 : 1 ≤ m)
    (hm : m ≤ wholeSteps rev f)
    (hplain : ∀ j : Nat, 1 ≤ j → j < m → k.fetch (pos + k.stride * direction rev * j) ≠ k.sentinel)
    (hend : k.fetch (pos + k.stride * direction rev * m) = k.sentinel)
    (hloop : loopDis = true ∨ k.fetch k.loopTo = k.sentinel) :
    k.run rev loopDis delta pos pf val pval =
      ⟨if loopDis then pos + k.stride * direction rev * m else k.loopTo,
        f + (if rev then 0x10000 else -0x10000) * m, 0, k.played rev ⟨pos, f, val, pval, false⟩ (m - 1), true⟩ := by
  subst hf
  rw [← k.move_eq] at *
  exact k.run_ends rev loopDis delta pos pf val pval (by omega) (by omega) m h1 hm hplain hend hloop

/-- `Codec.run_loops` from a stored fraction. -/
theorem Codec.run_of_jump (h : pf ≤ 0xFFFF) (hf : pf + direction rev * delta = f)
    (hone : (if rev then (0xFFFF - f) / 0x10000 else f / 0x10000) = 1)
    (hend : k.fetch (pos + k.stride * direction rev) = k.sentinel) (hloop : k.fetch k.loopTo ≠ k.sentinel) :
    k.run rev false delta pos pf val pval =
      ⟨k.loopTo, f + (if rev then 0x10000 else -0x10000) * (1 : Nat), k.value (k.fetch k.loopTo) k.loopTo val, val,
        false⟩ := by
  subst hf
  rw [← k.move_eq] at hend
  rw [Nat.cast_one, mul_one]
  exact k.run_loops rev delta pos pf val pval (by omega) (by omega) hone hend hloop

end

/-- The loop of a codec depends on `value` only at the units the codec fetches. -/
theorem Codec.LoopsTo.of_value_eq {k : Codec} {value : Int → Int → Int → Int} {rev loopDis : Bool} {t u : Stepping}
    (hvalue : ∀ q v, k.value (k.fetch q) q v = value (k.fetch q) q v) (h : k.LoopsTo rev loopDis t u) :
    ({ k with value := value } : Codec).LoopsTo rev loopDis t u := by
  obtain ⟨n, path, hn, hfirst, hlast, hsteps, hleft⟩ := h
  refine ⟨n, path, hn, hfirst, hlast, fun m hm => ?_, hleft⟩
  obtain ⟨hover, hgoing, hstep⟩ := hsteps m hm
  refine ⟨hover, hgoing, ?_⟩
  unfold Codec.StepsTo at hstep ⊢
  dsimp only at hstep ⊢
  rw [← hvalue]
  exact hstep

/-! ### PCM -/

/-- What the two PCM formats share: only the fetch and the stride differ (R177, R180). -/
def pcmCodec (fetch : Int → Int) (loopTo stride : Int) : Codec := ⟨fetch, -32768, loopTo, stride, fun u _ _ => u⟩

/-- A PCM form from the channel's own locals. -/
def decodePcm (k : Codec) (rev loopDis : Bool) (delta : Nat) (st : ChanState) : Decoded :=
  (k.run rev loopDis delta st.pos st.pfrac st.val st.pval).decodedPcm

theorem decodePcm8_eq (i : ChipInstance) (c : Fin 8) (rev : Bool) (st : ChanState) :
    decodePcm8 i c rev st =
      decodePcm (pcmCodec i.fetch8 (i.loopStart c) 1) rev (i.loopDisabled c) (i.delta c) st := rfl

theorem decodePcm16_eq (i : ChipInstance) (c : Fin 8) (rev : Bool) (st : ChanState) :
    decodePcm16 i c rev st =
      decodePcm (pcmCodec i.fetch16 (i.loopStart c) 2) rev (i.loopDisabled c) (i.delta c) st := rfl

/-- The current sample of a PCM stretch is the last unit fetched. -/
theorem pcmCodec_played (fetch : Int → Int) (loopTo stride : Int) (rev : Bool) (t : Stepping) (m : Nat) :
    (pcmCodec fetch loopTo stride).played rev t m =
      if m = 0 then t.val else fetch (t.pos + stride * direction rev * m) := by
  cases m with
  | zero => rfl
  | succ m =>
    rw [Codec.played_succ, Codec.move_eq, if_neg m.succ_ne_zero]
    push_cast
    rfl

/-- The sample before the `m`-th unit of a PCM stretch. -/
theorem pcmCodec_played_pred (fetch : Int → Int) (loopTo stride : Int) (rev : Bool) (t : Stepping) {m : Nat}
    (h : m ≠ 0) : (pcmCodec fetch loopTo stride).played rev t (m - 1) =
      if m = 1 then t.val else fetch (t.pos + stride * direction rev * (m - 1)) := by
  rw [pcmCodec_played, Nat.cast_pred (by omega)]
  congr 1
  rw [eq_iff_iff]
  omega

section
variable (fetch : Int → Int) (loopTo stride : Int) (rev loopDis : Bool) (delta : Nat) {st : ChanState} {f : Int}

/-- With no sentinel on the way (R176, R177, R180). -/
theorem decodePcm_through (h : st.pfrac ≤ 0xFFFF) (hf : st.pfrac + direction rev * delta = f) {n : Nat}
    (hn : wholeSteps rev f = n)
    (hplain : ∀ k : Nat, 1 ≤ k → k ≤ n → fetch (st.pos + stride * direction rev * k) ≠ -32768) :
    decodePcm (pcmCodec fetch loopTo stride) rev loopDis delta st =
      ⟨⟨st.pos + stride * direction rev * n, (f % 0x10000).toNat,
        if n = 0 then st.val else fetch (st.pos + stride * direction rev * n),
        if n = 0 then st.pval else if n = 1 then st.val else fetch (st.pos + stride * direction rev * (n - 1))⟩,
        false, true⟩ := by
  rw [decodePcm, Codec.run_of_plain _ rev loopDis delta st.pos st.val st.pval h hf hn hplain, Stepping.decodedPcm,
    fraction_emod_steps, pcmCodec_played]
  congr 2
  exact if_ctx_congr Iff.rfl (fun _ => rfl) fun hn => pcmCodec_played_pred _ _ _ _ _ hn

/-- At the first sentinel, with nowhere to loop to (R185). -/
theorem decodePcm_ends (h : st.pfrac ≤ 0xFFFF) (hf : st.pfrac + direction rev * delta = f) {m : Nat}
    (h1 : 1 ≤ m) (hm : m ≤ wholeSteps rev f)
    (hplain : ∀ k : Nat, 1 ≤ k → k < m → fetch (st.pos + stride * direction rev * k) ≠ -32768)
    (hend : fetch (st.pos + stride * direction rev * m) = -32768) (hloop : loopDis = true ∨ fetch loopTo = -32768) :
    decodePcm (pcmCodec fetch loopTo stride) rev loopDis delta st =
      ⟨⟨if loopDis then st.pos + stride * direction rev * m else loopTo, (f % 0x10000).toNat, 0,
        if m = 1 then st.val else fetch (st.pos + stride * direction rev * (m - 1))⟩, true, true⟩ := by
  rw [decodePcm, Codec.run_of_sentinel _ rev loopDis delta st.pos st.val st.pval h hf h1 hm hplain hend hloop,
    Stepping.decodedPcm, fraction_emod_steps, pcmCodec_played_pred _ _ _ _ _ (by omega)]
  rfl

/-- One step onto a sentinel that loops (R185). -/
theorem decodePcm_loops (h : st.pfrac ≤ 0xFFFF) (hf : st.pfrac + direction rev * delta = f)
    (hone : (if rev then (0xFFFF - f) / 0x10000 else f / 0x10000) = 1)
    (hend : fetch (st.pos + stride * direction rev) = -32768) (hloop : fetch loopTo ≠ -32768) :
    decodePcm (pcmCodec fetch loopTo stride) rev false delta st =
      ⟨⟨loopTo, (f % 0x10000).toNat, fetch loopTo, st.val⟩, false, true⟩ := by
  rw [decodePcm, Codec.run_of_jump _ rev delta st.pos st.val st.pval h hf hone hend hloop, Stepping.decodedPcm,
    fraction_emod_steps]
  rfl

end

/-! ### DPCM -/

/-- The nibble at a nibble address: the high one of its byte at an even address (R182, decision D13). -/
def ChipInstance.nibble (i : ChipInstance) (p : Int) : BitVec 4 :=
  if p % 2 = 0 then (i.romRead (p / 2)).extractLsb' 4 4 else (i.romRead (p / 2)).extractLsb' 0 4

/-- The DPCM loop decodes the nibble in hand (R182, R183). -/
theorem codecDpcm4_value (i : ChipInstance) (c : Fin 8) (q v : Int) :
    (codecDpcm4 i c).value ((codecDpcm4 i c).fetch q) q v = clamp16 (v + dpcmTab (i.nibble q)) := by
  have hbyte : BitVec.ofInt 8 ((i.nibbleByte q).toNat : Int) = i.romRead (q / 2) := by
    rw [BitVec.ofInt_natCast, BitVec.ofNat_toNat, BitVec.setWidth_eq]
    rfl
  simp only [codecDpcm4, hbyte, nibbleAt, ChipInstance.nibble, Config.dpcmEvenIsHigh, decide_eq_true_eq]

/-- The DPCM sentinel is the whole byte `0x88` (R183). -/
theorem codecDpcm4_fetch_eq_sentinel_iff (i : ChipInstance) (c : Fin 8) (q : Int) :
    (codecDpcm4 i c).fetch q = (codecDpcm4 i c).sentinel ↔ i.romRead (q / 2) = 0x88 := by
  rw [← BitVec.toNat_inj]
  exact Int.natCast_inj

theorem codecDpcm4_loopTo_div (i : ChipInstance) (c : Fin 8) : (codecDpcm4 i c).loopTo / 2 = i.loopStart c :=
  Int.mul_ediv_cancel_left _ two_ne_zero

/-- A loop jump reaches the high nibble of the loop start's byte (R182). -/
theorem nibble_loopTo (i : ChipInstance) (c : Fin 8) :
    i.nibble (codecDpcm4 i c).loopTo = (i.romRead (i.loopStart c)).extractLsb' 4 4 := by
  rw [ChipInstance.nibble, codecDpcm4_loopTo_div]
  exact if_pos (Int.mul_emod_right 2 _)

/-- DPCM moves one nibble a step (R183). -/
theorem codecDpcm4_stride (i : ChipInstance) (c : Fin 8) (rev : Bool) :
    (codecDpcm4 i c).stride * direction rev = direction rev := one_mul _

/-- The sample after `m` nibbles from the address `p`: their deltas, each sum clamped (R183). -/
def ChipInstance.dpcmPlayed (i : ChipInstance) (rev : Bool) (p val : Int) (m : Nat) : Int :=
  (List.range m).foldl (fun v (l : Nat) => clamp16 (v + dpcmTab (i.nibble (p + direction rev * ((l : Int) + 1))))) val

theorem codecDpcm4_played (i : ChipInstance) (c : Fin 8) (rev : Bool) (t : Stepping) (m : Nat) :
    (codecDpcm4 i c).played rev t m = i.dpcmPlayed rev t.pos t.val m := by
  unfold Codec.played
  simp only [codecDpcm4_value]
  rfl

/-- The nibble address of a byte position and fraction (R181). -/
def nibbleAddress (st : ChanState) : Int := 2 * st.pos + if 0x8000 ≤ st.pfrac then 1 else 0

/-- The locals after the DPCM loop, scaled back (R181). -/
def Stepping.decodedDpcm (t : Stepping) : Decoded :=
  ⟨⟨t.pos / 2, (t.f % 0x10000).toNat / 2 + (if t.pos % 2 = 0 then 0 else 0x8000), t.val, t.pval⟩, t.ended, true⟩

/-- The DPCM form is its loop over nibble addresses, scaled back. -/
theorem decodeDpcm4_eq (i : ChipInstance) (c : Fin 8) (rev : Bool) {st : ChanState} (h : st.pfrac ≤ 0xFFFF) :
    decodeDpcm4 i c rev st = ((codecDpcm4 i c).run rev (i.loopDisabled c) (i.delta c) (nibbleAddress st)
      (2 * st.pfrac % 0x10000 : Nat) st.val st.pval).decodedDpcm := by
  have hpos : (dpcmScaleUp st.pos st.pfrac).1 = nibbleAddress st := by
    unfold dpcmScaleUp nibbleAddress
    dsimp only
    split <;> omega
  unfold decodeDpcm4
  dsimp only
  rw [hpos]
  rfl

/-- Scaling back halves a nibble address with its fraction (R181). -/
theorem scaleDown_eq_half (p f : Int) (h : 0 ≤ f) :
    0x10000 * (p / 2) + ((f.toNat / 2 + (if p % 2 = 0 then 0 else 0x8000) : Nat) : Int) = (0x10000 * p + f) / 2 := by
  split <;> push_cast <;> omega

/-- Scaling up doubles a byte position with its fraction (R181). -/
theorem scaleUp_eq_double {st : ChanState} (h : st.pfrac ≤ 0xFFFF) :
    0x10000 * nibbleAddress st + (2 * st.pfrac : Int) % 0x10000 = 2 * (0x10000 * st.pos + st.pfrac) := by
  unfold nibbleAddress
  split <;> omega

/-- The whole steps and the remainder make up the fraction: forward it is not negative, in reverse not above
`0xFFFF`. -/
theorem wholeSteps_remainder (rev : Bool) {f : Int} (h : if rev then f ≤ 0xFFFF else 0 ≤ f) :
    0x10000 * (direction rev * wholeSteps rev f) + f % 0x10000 = f := by
  unfold wholeSteps direction
  cases rev <;> simp only [Bool.false_eq_true, if_false, if_true] at * <;> omega

section
variable (i : ChipInstance) (c : Fin 8) (rev : Bool) {st : ChanState} {f : Int}

/-- With no byte `0x88` on the way (R181, R183). -/
theorem decodeDpcm4_through (h : st.pfrac ≤ 0xFFFF)
    (hf : (2 * st.pfrac : Int) % 0x10000 + direction rev * i.delta c = f) {n : Nat} (hn : wholeSteps rev f = n)
    (hplain : ∀ k : Nat, 1 ≤ k → k ≤ n → i.romRead ((nibbleAddress st + direction rev * k) / 2) ≠ 0x88) :
    decodeDpcm4 i c rev st = Stepping.decodedDpcm ⟨nibbleAddress st + direction rev * n,
      f + (if rev then 0x10000 else -0x10000) * n, i.dpcmPlayed rev (nibbleAddress st) st.val n,
      if n = 0 then st.pval else i.dpcmPlayed rev (nibbleAddress st) st.val (n - 1), false⟩ := by
  rw [decodeDpcm4_eq i c rev h, (codecDpcm4 i c).run_of_plain rev _ _ _ st.val st.pval (by omega)
    (by push_cast; exact hf) hn fun k h1 h2 hend => ?_]
  · simp only [codecDpcm4_played, codecDpcm4_stride]
  · rw [codecDpcm4_stride, codecDpcm4_fetch_eq_sentinel_iff] at hend
    exact hplain k h1 h2 hend

/-- At the first byte `0x88`, with nowhere to loop to (R185). -/
theorem decodeDpcm4_ends (h : st.pfrac ≤ 0xFFFF)
    (hf : (2 * st.pfrac : Int) % 0x10000 + direction rev * i.delta c = f) {m : Nat} (h1 : 1 ≤ m)
    (hm : m ≤ wholeSteps rev f)
    (hplain : ∀ k : Nat, 1 ≤ k → k < m → i.romRead ((nibbleAddress st + direction rev * k) / 2) ≠ 0x88)
    (hend : i.romRead ((nibbleAddress st + direction rev * m) / 2) = 0x88)
    (hloop : i.loopDisabled c = true ∨ i.romRead (i.loopStart c) = 0x88) :
    decodeDpcm4 i c rev st = Stepping.decodedDpcm
      ⟨if i.loopDisabled c then nibbleAddress st + direction rev * m else 2 * i.loopStart c,
        f + (if rev then 0x10000 else -0x10000) * m, 0, i.dpcmPlayed rev (nibbleAddress st) st.val (m - 1), true⟩ := by
  have hrun := (codecDpcm4 i c).run_of_sentinel rev (i.loopDisabled c) (i.delta c) (nibbleAddress st) st.val st.pval
    (pf := 2 * st.pfrac % 0x10000) (by omega) (by push_cast; exact hf) h1 hm
  simp only [codecDpcm4_stride, ne_eq, codecDpcm4_fetch_eq_sentinel_iff, codecDpcm4_loopTo_div,
    codecDpcm4_played] at hrun
  rw [decodeDpcm4_eq i c rev h, hrun hplain hend hloop]
  rfl

/-- One step onto a byte `0x88` that loops (R185). -/
theorem decodeDpcm4_loops (h : st.pfrac ≤ 0xFFFF)
    (hf : (2 * st.pfrac : Int) % 0x10000 + direction rev * i.delta c = f) (hloopDis : i.loopDisabled c = false)
    (hone : (if rev then (0xFFFF - f) / 0x10000 else f / 0x10000) = 1)
    (hend : i.romRead ((nibbleAddress st + direction rev) / 2) = 0x88) (hloop : i.romRead (i.loopStart c) ≠ 0x88) :
    decodeDpcm4 i c rev st = Stepping.decodedDpcm ⟨2 * i.loopStart c,
      f + (if rev then 0x10000 else -0x10000) * (1 : Nat),
      clamp16 (st.val + dpcmTab ((i.romRead (i.loopStart c)).extractLsb' 4 4)), st.val, false⟩ := by
  have hrun := (codecDpcm4 i c).run_of_jump rev (i.delta c) (nibbleAddress st) st.val st.pval
    (pf := 2 * st.pfrac % 0x10000) (by omega) (by push_cast; exact hf) hone
  simp only [codecDpcm4_stride, ne_eq, codecDpcm4_fetch_eq_sentinel_iff, codecDpcm4_loopTo_div,
    codecDpcm4_value] at hrun
  rw [decodeDpcm4_eq i c rev h, hloopDis, hrun hend hloop, nibble_loopTo]
  rfl

end

end Sys2Proof.Machine

namespace Sys2Proof

open Machine

/-- Settles O29: the locals are those decoding would start from. -/
theorem noDecode : Obligations.NoDecode := by
  unfold Obligations.NoDecode
  intro s chip c hs
  exact runsOn_of_playing (exec_fmtNone chip c s) hs rfl

/-- Settles O31: both widths are the common PCM loop. -/
theorem pcmPlaysThrough : Obligations.PcmPlaysThrough := by
  unfold Obligations.PcmPlaysThrough
  intro s chip c rev hs hok i live st delta dir f n
  have hfrac : st.pfrac ≤ 0xFFFF := (i.resume_ok c hok).1
  refine ⟨fun hplain => runsOn_of_playing (exec_fmtPcm8 chip c rev s) hs ?_,
    fun hplain => runsOn_of_playing (exec_fmtPcm16 chip c rev s) hs ?_⟩
  · have hrun := decodePcm_through i.fetch8 (i.loopStart c) 1 rev (i.loopDisabled c) delta hfrac rfl rfl
    simp only [one_mul] at hrun
    exact hrun hplain
  · exact decodePcm_through _ _ 2 rev _ delta hfrac rfl rfl hplain

/-- Settles O32: both widths are the common PCM loop. -/
theorem pcmSampleEnds : Obligations.PcmSampleEnds := by
  unfold Obligations.PcmSampleEnds
  intro s chip c rev m hs hok
  simp only [← ChipInstance.loopDisabled_eq]
  intro h1 hm
  have hfrac := ((s.chip chip).resume_ok c hok).1
  refine ⟨fun hplain hend hloop => runsOn_of_ending (exec_fmtPcm8 chip c rev s) hs ?_,
    fun hplain hend hloop => runsOn_of_ending (exec_fmtPcm16 chip c rev s) hs ?_⟩
  · have hrun := decodePcm_ends (s.chip chip).fetch8 ((s.chip chip).loopStart c) 1 rev
      ((s.chip chip).loopDisabled c) ((s.chip chip).delta c) hfrac rfl h1 hm
    simp only [one_mul] at hrun
    exact hrun hplain hend hloop
  · exact decodePcm_ends _ _ 2 rev _ _ hfrac rfl h1 hm hplain hend hloop

/-- A form that answers the locals its codec's loop reaches, from a fraction in range, completes after at most 256
steps (R176, R190 (b)). -/
theorem plays_of_run {op : Instr} {s : State} {chip : Nat} {c : Fin 8} {form : ChipInstance → Decoded} {k : Codec}
    {rev : Bool} {pos val pval : Int} {pf : Nat} {u : Stepping} {st : ChanState}
    (hop : exec op s = runDecode chip c form s) (hs : s.Ready chip) (hpf : pf ≤ 0xFFFF)
    (hu : k.run rev ((s.chip chip).loopDisabled c) ((s.chip chip).delta c) pos pf val pval = u)
    (hform : form (s.chip chip) = ⟨st, u.ended, true⟩) (hok : ChannelOk (form (s.chip chip)).chan) :
    k.LoopsTo rev ((s.chip chip).loopDisabled c)
        ⟨pos, pf + (if rev then -((s.chip chip).delta c : Int) else (s.chip chip).delta c), val, pval, false⟩ u ∧
      ChannelOk st ∧ RunsOn (exec op s) s chip (.decoded st true) fun j => (s.chip chip).EndsSample j c u.ended := by
  subst hu
  have hdelta := (s.chip chip).le24_lt (blockBase c)
  have hrun := runsOn_runDecode hs c form
  rw [hform] at hok hrun
  rw [hop]
  exact ⟨k.run_loopsTo rev _ _ pos pf val pval (by omega) (by omega) (Nat.le_of_lt_succ hdelta), hok, hrun⟩

/-- Settles O30: each form is the loop of its codec. -/
theorem decodeFormsComplete : Obligations.DecodeFormsComplete := by
  unfold Obligations.DecodeFormsComplete
  intro s chip c rev hs hok
  simp only [← ChipInstance.loopDisabled_eq]
  have hst := (s.chip chip).resume_ok c hok
  refine ⟨?pcm8, ?pcm16, ?dpcm4⟩
  case pcm8 =>
    exact ⟨_, plays_of_run (k := codecPcm8 (s.chip chip) c) (exec_fmtPcm8 chip c rev s) hs hst.1 rfl rfl
      (decodePcm8_ok _ c rev _ hst)⟩
  case pcm16 =>
    exact ⟨_, plays_of_run (k := codecPcm16 (s.chip chip) c) (exec_fmtPcm16 chip c rev s) hs hst.1 rfl rfl
      (decodePcm16_ok _ c rev _ hst)⟩
  case dpcm4 =>
    obtain ⟨hloops, hplays⟩ := plays_of_run (k := codecDpcm4 (s.chip chip) c)
      (pf := 2 * ((s.chip chip).resume c).pfrac % 0x10000) (exec_fmtDpcm4 chip c rev s) hs (by omega) rfl
      (decodeDpcm4_eq (s.chip chip) c rev hst.1) (decodeDpcm4_ok _ c rev _ hst)
    push_cast at hloops
    exact ⟨_, hloops.of_value_eq (codecDpcm4_value (s.chip chip) c), hplays⟩

/-- Settles O33: a loop jump of each codec. -/
theorem pcmLoops : Obligations.PcmLoops := by
  unfold Obligations.PcmLoops
  intro s chip c rev hs hok
  simp only [← ChipInstance.loopDisabled_eq]
  intro hloopDis
  have hfrac := ((s.chip chip).resume_ok c hok).1
  refine ⟨fun hone hend hloop => runsOn_of_playing (exec_fmtPcm8 chip c rev s) hs ?_,
    fun hone hend hloop => runsOn_of_playing (exec_fmtPcm16 chip c rev s) hs ?_,
    fun hone hend hloop => runsOn_of_playing (exec_fmtDpcm4 chip c rev s) hs ?_⟩
  · rw [decodePcm8_eq, hloopDis]
    exact decodePcm_loops _ _ 1 rev _ hfrac rfl hone (by rw [one_mul]; exact hend) hloop
  · rw [decodePcm16_eq, hloopDis]
    exact decodePcm_loops _ _ 2 rev _ hfrac rfl hone hend hloop
  · rw [decodeDpcm4_loops (s.chip chip) c rev hfrac rfl hloopDis hone hend hloop, Stepping.decodedDpcm,
      fraction_emod_steps, Int.mul_ediv_cancel_left _ two_ne_zero, if_pos (Int.mul_emod_right 2 _), add_zero]
    rfl

/-- Settles O34: DPCM with no byte `0x88` on the way. -/
theorem dpcmPlaysThrough : Obligations.DpcmPlaysThrough := by
  unfold Obligations.DpcmPlaysThrough
  intro s chip c rev hs hok i live st delta dir p2 f n nibble played hplain
  have hfrac : st.pfrac ≤ 0xFFFF := (i.resume_ok c hok).1
  have hrun := decodeDpcm4_through i c rev hfrac rfl rfl hplain
  rw [Stepping.decodedDpcm, fraction_emod_steps] at hrun
  have hlow : f % 0x10000 < 0x10000 := Int.emod_lt_of_pos _ (by decide)
  have hback := scaleDown_eq_half (p2 + dir * n) (f % 0x10000) (Int.emod_nonneg _ (by decide))
  have hup : 0x10000 * p2 + (2 * st.pfrac : Int) % 0x10000 = 2 * (0x10000 * st.pos + st.pfrac) :=
    scaleUp_eq_double hfrac
  have hfraceps : 0x10000 * (dir * n) + f % 0x10000 = f := wholeSteps_remainder rev (by
    cases rev <;> simp only [f, dir, Bool.false_eq_true, if_false, if_true] <;> omega)
  have hf : f = (2 * st.pfrac) % 0x10000 + dir * delta := rfl
  refine ⟨_, _, ?_, hback.trans ?_, runsOn_of_playing (exec_fmtDpcm4 chip c rev s) hs hrun⟩
  · split <;> omega
  · congr 1
    linarith

/-- Settles O35: DPCM at the first byte `0x88`, with nowhere to loop to. -/
theorem dpcmSampleEnds : Obligations.DpcmSampleEnds := by
  unfold Obligations.DpcmSampleEnds
  intro s chip c rev m hs hok
  simp only [← ChipInstance.loopDisabled_eq]
  intro h1 hm hplain hend hloop
  have hfrac := ((s.chip chip).resume_ok c hok).1
  have hrun := decodeDpcm4_ends (s.chip chip) c rev hfrac rfl h1 hm hplain hend hloop
  rw [Stepping.decodedDpcm, fraction_emod_steps] at hrun
  exact runsOn_of_ending (exec_fmtDpcm4 chip c rev s) hs hrun

end Sys2Proof
end

section
/-! A channel's tick requested on its own (R170, R187, R188, R189; O37). -/

namespace Sys2Proof

open Machine

/-- `CHTICK` starts the accumulators at zero and answers them (R170). -/
theorem runsOn_chtick {s : State} {chip : Nat} (hs : s.Ready chip) (c : Fin 8) :
    let x := channelTick ⟨s.chip chip, ExactReal.zero, ExactReal.zero⟩ c
    RunsOn (exec (.chtick chip c) s) s chip (.mix x.left x.right) (· = x.chip) := by
  rw [exec, execChtick]
  exact runsOn_onChip hs _ rfl rfl

/-- Settles O37, from what a channel's tick does to each part of the instance (`channelTick` itself is the model's
function). -/
theorem channelTickSpec : Obligations.ChannelTick := by
  unfold Obligations.ChannelTick
  intro s chip c hs
  obtain ⟨t, hnext, hother, hanswer, hchip⟩ := runsOn_chtick hs c
  obtain ⟨hleft, hright⟩ := channelTick_mix ⟨s.chip chip, ExactReal.zero, ExactReal.zero⟩ c
  refine ⟨t, hnext, hother, ?_⟩
  rw [hchip, hanswer, hleft, hright]
  refine ⟨?frame, ?answer, channelTick_ramSample _ c, channelTick_livePos _ c, channelTick_status _ c,
    fun a hstatus hpos => channelTick_reg _ c hstatus hpos, channelTick_channel _ c⟩
  case frame =>
    have hframe := channelTick_chip ⟨s.chip chip, ExactReal.zero, ExactReal.zero⟩ c
    generalize (channelTick ⟨s.chip chip, ExactReal.zero, ExactReal.zero⟩ c).chip = j at hframe ⊢
    rw [hframe]
  case answer => split <;> rfl

end Sys2Proof
end

section
/-! The native tick (R200 to R207; O38, O39): a channel's turn leaves alone whatever the turns of the others use, so
every channel decodes as it would from the state before the tick; the accumulators, each ring sample and the frame
follow. -/

namespace Sys2Proof.Machine

/-! ### What one channel's turn leaves to the others -/

/-- For channel `d`, instance `j` is as good as `i`: only memories and channel states differ, and neither in the
registers, the status bit and the decode state that a tick of `d` uses. -/
structure ChipInstance.SameFor (i j : ChipInstance) (d : Fin 8) : Prop where
  frame : j = { i with regs := j.regs, chan := j.chan, ram := j.ram }
  block : ∀ l, l < 0x20 → j.reg (0x20 * d.val + l) = i.reg (0x20 * d.val + l)
  modes : ∀ l, l < 2 → j.reg (0x200 + 2 * d.val + l) = i.reg (0x200 + 2 * d.val + l)
  control : j.reg 0x22F = i.reg 0x22F
  channel : j.channel d = i.channel d
  active : j.active d = i.active d

namespace ChipInstance.SameFor

variable {i j k : ChipInstance} {d : Fin 8}

theorem refl (i : ChipInstance) (d : Fin 8) : i.SameFor i d :=
  ⟨rfl, fun _ _ => rfl, fun _ _ => rfl, rfl, rfl, rfl⟩

theorem trans (h : i.SameFor j d) (h' : j.SameFor k d) : i.SameFor k d where
  frame := by rw [h'.frame, h.frame]
  block l hl := (h'.block l hl).trans (h.block l hl)
  modes l hl := (h'.modes l hl).trans (h.modes l hl)
  control := h'.control.trans h.control
  channel := h'.channel.trans h.channel
  active := h'.active.trans h.active

theorem decodeSample (h : i.SameFor j d) : j.decodeSample d = i.decodeSample d :=
  ChipInstance.decodeSample_congr d (congrArg ChipInstance.rom h.frame :) (congrArg ChipInstance.romSize h.frame :)
    (congrArg ChipInstance.romMask h.frame :) h.block h.modes h.channel

theorem gains (h : i.SameFor j d) :
    j.reverbGain d = i.reverbGain d ∧ j.leftGain d = i.leftGain d ∧ j.rightGain d = i.rightGain d :=
  ChipInstance.gains_congr d (congrArg ChipInstance.gain h.frame :) fun l hl => h.block l (by omega)

theorem reverbSlot (h : i.SameFor j d) : j.reverbSlot d = i.reverbSlot d := by
  have hcursor : j.reverbCursor = i.reverbCursor := (congrArg ChipInstance.reverbCursor h.frame :)
  have hlow : j.reg (blockBase d + 6) = i.reg (blockBase d + 6) := h.block 6 (by decide)
  have hhigh : j.reg (blockBase d + 6 + 1) = i.reg (blockBase d + 6 + 1) := h.block 7 (by decide)
  unfold ChipInstance.reverbSlot ChipInstance.rdelay ChipInstance.le16
  rw [hcursor, hlow, hhigh]

theorem inhibited (h : i.SameFor j d) : j.inhibited = i.inhibited := by
  unfold ChipInstance.inhibited
  rw [h.control]

theorem livePos (h : i.SameFor j d) : j.livePos d = i.livePos d := by
  have hlow : j.reg (blockBase d + 0x0C) = i.reg (blockBase d + 0x0C) := h.block 0x0C (by decide)
  have hmid : j.reg (blockBase d + 0x0C + 1) = i.reg (blockBase d + 0x0C + 1) := h.block 0x0D (by decide)
  have hhigh : j.reg (blockBase d + 0x0C + 2) = i.reg (blockBase d + 0x0C + 2) := h.block 0x0E (by decide)
  unfold ChipInstance.livePos ChipInstance.le24
  rw [hlow, hmid, hhigh]

end ChipInstance.SameFor

/-- Channel `c`'s turn in the loop of a tick (R202). -/
def Mixing.turn (x : Mixing) (c : Fin 8) : Mixing := if x.chip.active c then channelTick x c else x

theorem runChannels_eq (x : Mixing) : runChannels x = channels.foldl Mixing.turn x := rfl

theorem channels_eq_finRange : channels = List.finRange 8 := by decide

/-- The position bytes and the status bit a tick of `c` writes are no other channel's (R208). -/
theorem channelTick_sameFor (x : Mixing) {c d : Fin 8} (h : d ≠ c) : x.chip.SameFor (channelTick x c).chip d where
  frame := by
    have hchip := channelTick_chip x c
    generalize (channelTick x c).chip = j at hchip ⊢
    rw [hchip]
  block l hl := channelTick_reg x c (by omega) fun k => by unfold posOffset blockBase; omega
  modes l hl := channelTick_reg x c (by omega) fun k => by unfold posOffset blockBase; omega
  control := channelTick_reg x c (by decide) fun k => by unfold posOffset blockBase; omega
  channel := by rw [channelTick_channel, if_neg h]
  active := channelTick_active_ne x h

theorem Mixing.turn_sameFor (x : Mixing) {c d : Fin 8} (h : d ≠ c) : x.chip.SameFor (x.turn c).chip d := by
  unfold Mixing.turn
  split
  · exact channelTick_sameFor x h
  · exact .refl _ _

theorem foldl_turn_sameFor {cs : List (Fin 8)} {d : Fin 8} (h : d ∉ cs) (x : Mixing) :
    x.chip.SameFor (cs.foldl Mixing.turn x).chip d := by
  induction cs generalizing x with
  | nil => exact .refl _ _
  | cons c cs ih =>
    obtain ⟨hc, hcs⟩ := not_or.1 (mt List.mem_cons.2 h)
    exact (x.turn_sameFor hc).trans (ih hcs _)

/-! ### What the loop does to one channel -/

/-- A channel takes one turn, and neither the turns before nor those after it concern the channel. -/
theorem exists_turn (x : Mixing) (d : Fin 8) :
    ∃ y : Mixing, x.chip.SameFor y.chip d ∧ (y.turn d).chip.SameFor (runChannels x).chip d := by
  obtain ⟨before, after, hsplit⟩ := List.append_of_mem (show d ∈ channels by revert d; decide)
  have hnodup : (before ++ d :: after).Nodup := hsplit ▸ by decide
  obtain ⟨hbefore, hafter⟩ : d ∉ before ∧ d ∉ after := by grind
  refine ⟨before.foldl Mixing.turn x, foldl_turn_sameFor hbefore x, ?_⟩
  rw [runChannels_eq, hsplit, List.foldl_append, List.foldl_cons]
  exact foldl_turn_sameFor hafter _

/-- R189: an active channel persists what it decoded. -/
theorem runChannels_channel (x : Mixing) (d : Fin 8) :
    (runChannels x).chip.channel d =
      if x.chip.active d then (x.chip.decodeSample d).chan else x.chip.channel d := by
  obtain ⟨y, hbefore, hafter⟩ := exists_turn x d
  rw [hafter.channel, Mixing.turn, ← hbefore.active, ← hbefore.decodeSample, ← hbefore.channel]
  split
  · rw [channelTick_channel, if_pos rfl]
  · rfl

/-- R188: an active channel's position is written back unless inhibited. -/
theorem runChannels_livePos (x : Mixing) (d : Fin 8) :
    ((runChannels x).chip.livePos d : Int) = if x.chip.active d = true ∧ x.chip.inhibited = false then
      (x.chip.decodeSample d).chan.pos % 0x1000000 else (x.chip.livePos d : Int) := by
  obtain ⟨y, hbefore, hafter⟩ := exists_turn x d
  rw [hafter.livePos, Mixing.turn, ← hbefore.active, ← hbefore.decodeSample, ← hbefore.livePos, ← hbefore.inhibited]
  cases hactive : y.chip.active d
  · rfl
  · rw [if_pos rfl, channelTick_livePos]
    cases y.chip.inhibited <;> rfl

/-- R185: an active channel stays active unless its sample ends. -/
theorem runChannels_active (x : Mixing) (d : Fin 8) :
    (runChannels x).chip.active d =
      (x.chip.active d && (x.chip.inhibited || !(x.chip.decodeSample d).ended)) := by
  obtain ⟨y, hbefore, hafter⟩ := exists_turn x d
  rw [hafter.active, Mixing.turn, ← hbefore.active, ← hbefore.decodeSample, ← hbefore.inhibited]
  cases hactive : y.chip.active d
  · simpa using hactive
  · have hbit : (y.chip.reg 0x22C).getLsbD d.val = true := hactive
    rw [if_pos rfl, ChipInstance.active, channelTick_status]
    cases y.chip.inhibited <;> cases (y.chip.decodeSample d).ended <;> simp [hbit, channelBit_bit]

/-- R208: no register but the status and the position bytes is written. -/
theorem runChannels_reg (x : Mixing) {a : Nat} (h : a ≠ 0x22C) (hp : ∀ c k, a ≠ posOffset c k) :
    (runChannels x).chip.reg a = x.chip.reg a :=
  runChannels_keeps (P := fun y => y.chip.reg a = x.chip.reg a)
    (fun y c hy => (channelTick_reg y c h (hp c)).trans hy) rfl

/-! ### What the loop sums -/

section
variable {α : Type} {obs : Mixing → α} {act : ChipInstance → Fin 8 → α → α}

/-- What the turns of different channels all act on: a fold of their actions, each as from the state `i` before. -/
theorem foldl_turn_observed (hobs : ∀ x c, obs (x.turn c) = act x.chip c (obs x))
    (hact : ∀ i j c, i.SameFor j c → act j c = act i c) (i : ChipInstance) {cs : List (Fin 8)} (hcs : cs.Nodup)
    {x : Mixing} (hx : ∀ c ∈ cs, i.SameFor x.chip c) :
    obs (cs.foldl Mixing.turn x) = cs.foldl (fun a c => act i c a) (obs x) := by
  induction cs generalizing x with
  | nil => rfl
  | cons c cs ih =>
    obtain ⟨hc, hcs⟩ := List.nodup_cons.1 hcs
    have hrest : ∀ d ∈ cs, i.SameFor (x.turn c).chip d := fun d hd =>
      (hx d (List.mem_cons_of_mem c hd)).trans (x.turn_sameFor fun heq => hc (heq ▸ hd))
    rw [List.foldl_cons, ih hcs hrest, hobs, hact i x.chip c (hx c List.mem_cons_self), List.foldl_cons]

theorem runChannels_observed (hobs : ∀ x c, obs (x.turn c) = act x.chip c (obs x))
    (hact : ∀ i j c, i.SameFor j c → act j c = act i c) {i : ChipInstance} {x : Mixing}
    (hx : ∀ c, i.SameFor x.chip c) :
    obs (runChannels x) = (List.finRange 8).foldl (fun a c => act i c a) (obs x) := by
  rw [runChannels_eq, channels_eq_finRange]
  exact foldl_turn_observed hobs hact i (List.nodup_finRange 8) fun c _ => hx c

end

/-- Channel `c` is active and decodes a value to mix (R37, R187). -/
def ChipInstance.mixes (i : ChipInstance) (c : Fin 8) : Bool := i.active c && (i.decodeSample c).mixed

theorem ChipInstance.SameFor.mixes {i j : ChipInstance} {c : Fin 8} (h : i.SameFor j c) :
    j.mixes c = i.mixes c := by
  unfold ChipInstance.mixes
  rw [h.active, h.decodeSample]

/-- R187: what channel `c` makes of an accumulator that takes its value with the gain given. -/
def ChipInstance.addTo (i : ChipInstance) (c : Fin 8) (gain : Monomial) (acc : ExactReal) : ExactReal :=
  if i.mixes c then acc.add (gain.scale (i.decodeSample c).chan.val) else acc

/-- R174, R187: what channel `c` sends to the ring. -/
def ChipInstance.reverbSend (i : ChipInstance) (c : Fin 8) : Int :=
  (ExactReal.zero.add ((i.reverbGain c).scale (i.decodeSample c).chan.val)).trunc

/-- R174, R187: what channel `c` makes of ring sample `k`. -/
def ChipInstance.sendTo (i : ChipInstance) (k : Nat) (c : Fin 8) (v : Int) : Int :=
  if i.mixes c = true ∧ k = i.reverbSlot c then sext16 (v + i.reverbSend c) else v

theorem Mixing.turn_left (x : Mixing) (c : Fin 8) :
    (x.turn c).left = x.chip.addTo c (x.chip.leftGain c) x.left := by
  unfold Mixing.turn ChipInstance.addTo ChipInstance.mixes
  cases x.chip.active c
  · rfl
  · exact (channelTick_mix x c).1

theorem Mixing.turn_right (x : Mixing) (c : Fin 8) :
    (x.turn c).right = x.chip.addTo c (x.chip.rightGain c) x.right := by
  unfold Mixing.turn ChipInstance.addTo ChipInstance.mixes
  cases x.chip.active c
  · rfl
  · exact (channelTick_mix x c).2

theorem Mixing.turn_ramSample (x : Mixing) (k : Nat) (c : Fin 8) :
    (x.turn c).chip.ramSample k = x.chip.sendTo k c (x.chip.ramSample k) := by
  unfold Mixing.turn ChipInstance.sendTo ChipInstance.mixes
  cases x.chip.active c
  · simp
  · rw [if_pos rfl, channelTick_ramSample]
    simp only [Bool.true_and, and_comm (a := k = x.chip.reverbSlot c)]
    rfl

/-- R187, R202: the left accumulator takes every contribution as decoded before the tick. -/
theorem runChannels_left {i : ChipInstance} {x : Mixing} (hx : ∀ c, i.SameFor x.chip c) :
    (runChannels x).left = (List.finRange 8).foldl (fun acc c => i.addTo c (i.leftGain c) acc) x.left :=
  runChannels_observed (obs := Mixing.left) (act := fun i c => i.addTo c (i.leftGain c)) Mixing.turn_left
    (fun i j c h => by
      funext acc
      simp only [ChipInstance.addTo, h.mixes, h.decodeSample, h.gains.2.1]) hx

/-- R187, R202: the right accumulator takes every contribution as decoded before the tick. -/
theorem runChannels_right {i : ChipInstance} {x : Mixing} (hx : ∀ c, i.SameFor x.chip c) :
    (runChannels x).right = (List.finRange 8).foldl (fun acc c => i.addTo c (i.rightGain c) acc) x.right :=
  runChannels_observed (obs := Mixing.right) (act := fun i c => i.addTo c (i.rightGain c)) Mixing.turn_right
    (fun i j c h => by
      funext acc
      simp only [ChipInstance.addTo, h.mixes, h.decodeSample, h.gains.2.2]) hx

theorem sext16_congr {v w : Int} (h : v % 65536 = w % 65536) : sext16 v = sext16 w := by
  unfold sext16
  rw [h]

/-- Wrapping on the way to a sum does not show in the wrapped sum. -/
theorem sext16_sext16_add (v w : Int) : sext16 (sext16 v + w) = sext16 (v + w) :=
  sext16_congr (by rw [Int.add_emod, sext16_emod, ← Int.add_emod])

/-- Additions that each wrap are one wrapped sum. -/
theorem foldl_wrap_add {ι : Type} (p : ι → Prop) [DecidablePred p] (f : ι → Int) (cs : List ι) (v : Int) :
    cs.foldl (fun a c => if p c then sext16 (a + f c) else a) (sext16 v) =
      sext16 (v + (cs.map fun c => if p c then f c else 0).sum) := by
  induction cs generalizing v with
  | nil => simp
  | cons c cs ih =>
    rw [List.foldl_cons, List.map_cons, List.sum_cons, ← add_assoc]
    split
    · rw [sext16_sext16_add, ih]
    · rw [add_zero, ih]

theorem ChipInstance.sext16_ramSample (i : ChipInstance) (k : Nat) : sext16 (i.ramSample k) = i.ramSample k :=
  sext16_of_s16 (sext16_bounds _).1 (sext16_bounds _).2

/-- R174, R187: every ring sample takes, wrapped, the sum of what is sent to it. -/
theorem runChannels_ramSample {i : ChipInstance} {x : Mixing} (hx : ∀ c, i.SameFor x.chip c) (k : Nat) :
    (runChannels x).chip.ramSample k = sext16 (x.chip.ramSample k + ((List.finRange 8).map fun c =>
      if i.mixes c = true ∧ k = i.reverbSlot c then i.reverbSend c else 0).sum) := by
  rw [← foldl_wrap_add, ChipInstance.sext16_ramSample]
  exact runChannels_observed (obs := fun x => x.chip.ramSample k) (act := fun i c => i.sendTo k c)
    (fun x c => x.turn_ramSample k c)
    (fun i j c h => by
      funext v
      simp only [ChipInstance.sendTo, ChipInstance.reverbSend, h.mixes, h.decodeSample, h.gains.1, h.reverbSlot]) hx

/-! ### The start of a tick and its frame -/

/-- R201: the slot read is cleared before any channel runs; no channel depends on it. -/
theorem startTick_sameFor (i : ChipInstance) (c : Fin 8) : i.SameFor (startTick i).chip c :=
  ⟨rfl, fun _ _ => rfl, fun _ _ => rfl, rfl, rfl, rfl⟩

theorem startTick_ramSample (i : ChipInstance) (k : Nat) :
    (startTick i).chip.ramSample k = if k = i.reverbCursor then 0 else i.ramSample k :=
  i.ramSample_setRamSample _ k 0 (by decide) (by decide)

/-- The routes are those of the instance before the tick (R204, R205, R206). -/
theorem routed_runChannels (i : ChipInstance) (r : Fin 2) (side : Nat) :
    (runChannels (startTick i)).routed r side =
      if i.routeMask[r.val].getLsbD side then
        ((if r = 0 then (runChannels (startTick i)).left else (runChannels (startTick i)).right).times
          i.volume[r.val]).trunc
      else 0 := by
  have hchip := runChannels_chip (startTick i)
  have hmask : (runChannels (startTick i)).chip.routeMask = i.routeMask :=
    (congrArg ChipInstance.routeMask hchip :)
  have hvolume : (runChannels (startTick i)).chip.volume = i.volume := (congrArg ChipInstance.volume hchip :)
  simp only [Mixing.routed, hmask, hvolume, Config.routeSource]

/-! ### The tick, part by part -/

/-- R208: a tick changes registers, channel states, RAM and the cursor, and nothing else. -/
theorem ChipInstance.tick_chip (i : ChipInstance) :
    i.tick.1 = { i with
      regs := i.tick.1.regs, chan := i.tick.1.chan, ram := i.tick.1.ram
      reverbCursor := (i.reverbCursor + 1) % 8192 } := by
  have hchip := runChannels_chip (startTick i)
  unfold ChipInstance.tick
  dsimp only
  generalize (runChannels (startTick i)).chip = j at hchip ⊢
  rw [hchip]
  rfl

theorem ChipInstance.tick_channel (i : ChipInstance) (c : Fin 8) :
    i.tick.1.channel c = if i.active c then (i.decodeSample c).chan else i.channel c := by
  have hstart := startTick_sameFor i c
  rw [← hstart.active, ← hstart.decodeSample, ← hstart.channel]
  exact runChannels_channel (startTick i) c

theorem ChipInstance.tick_livePos (i : ChipInstance) (c : Fin 8) :
    (i.tick.1.livePos c : Int) = if i.active c = true ∧ i.inhibited = false then
      (i.decodeSample c).chan.pos % 0x1000000 else (i.livePos c : Int) := by
  have hstart := startTick_sameFor i c
  rw [← hstart.active, ← hstart.decodeSample, ← hstart.livePos, ← hstart.inhibited]
  exact runChannels_livePos (startTick i) c

theorem ChipInstance.tick_active (i : ChipInstance) (c : Fin 8) :
    i.tick.1.active c = (i.active c && (i.inhibited || !(i.decodeSample c).ended)) := by
  have hstart := startTick_sameFor i c
  rw [← hstart.active, ← hstart.decodeSample, ← hstart.inhibited]
  exact runChannels_active (startTick i) c

theorem ChipInstance.tick_reg (i : ChipInstance) {a : Nat} (h : a ≠ 0x22C) (hp : ∀ c k, a ≠ posOffset c k) :
    i.tick.1.reg a = i.reg a :=
  runChannels_reg (startTick i) h hp

theorem ChipInstance.tick_ramSample (i : ChipInstance) (k : Nat) :
    i.tick.1.ramSample k = sext16 ((if k = i.reverbCursor then 0 else i.ramSample k) +
      ((List.finRange 8).map fun c =>
        if i.mixes c = true ∧ k = i.reverbSlot c then i.reverbSend c else 0).sum) := by
  rw [← startTick_ramSample]
  exact runChannels_ramSample (startTick_sameFor i) k

/-- R204, R207: the frame from what each route adds to each side. -/
theorem ChipInstance.tick_frame (i : ChipInstance) {send : Fin 2 → Nat → Int}
    (h : ∀ r side, (runChannels (startTick i)).routed r side = send r side) :
    i.tick.2 = ⟨clamp16 (send 0 0 + send 1 0), clamp16 (send 0 1 + send 1 1)⟩ := by
  rw [← h, ← h, ← h, ← h]
  rfl

/-- R200: `TICK` answers the frame of the instance's tick and leaves the instance as that does. -/
theorem runsOn_tick {s : State} {chip : Nat} (hs : s.Ready chip) {f : Frame} {p : ChipInstance → Prop}
    (hframe : (s.chip chip).tick.2 = f) (hp : p (s.chip chip).tick.1) :
    RunsOn (exec (.tick chip) s) s chip (.frame f) p := by
  rw [exec, execTick]
  exact runsOn_onChip hs _ (congrArg Response.frame hframe) hp

end Sys2Proof.Machine

namespace Sys2Proof

open Machine

/-- Settles O38, part by part of the instance: the loop over the channels starts at `startTick`, where every channel is
as before the tick. -/
theorem tickSumsChannels : Obligations.TickSumsChannels := by
  unfold Obligations.TickSumsChannels
  intro s chip hs i inhibited d runs mixes pos slot seed sum send
  have hstart := startTick_sameFor i
  have hsend : ∀ r side, (runChannels (startTick i)).routed r side = send r side := fun r side => by
    rw [routed_runChannels, runChannels_left hstart, runChannels_right hstart]
    rfl
  refine runsOn_tick hs (i.tick_frame hsend) ⟨?chip, ?channels, ?positions, ?status, ?registers, ?ring⟩
  case chip => exact i.tick_chip
  case channels => exact i.tick_channel
  case positions => exact i.tick_livePos
  case status => exact i.tick_active
  case registers => exact fun a hstatus hpos => i.tick_reg hstatus hpos
  case ring => exact i.tick_ramSample

/-- A real has one integer part (R15). -/
theorem IsTrunc.unique {r : ℝ} {v w : Int} (hv : IsTrunc r v) (hw : IsTrunc r w) : v = w := by
  unfold IsTrunc at hv hw
  have hlt : (v : ℝ) < w + 1 ∧ (w : ℝ) < v + 1 := by
    split_ifs at hv hw <;> constructor <;> linarith
  norm_cast at hlt
  omega

/-- R206 for a volume written as a rational. -/
theorem trunc_ofInt_times_rat (v : Int) (q : Rat) : ((ExactReal.ofInt v).times (.rat q)).trunc = truncRat (v * q) := by
  have hvalue : sumValue ((ExactReal.ofInt v).times (.rat q)).terms = ((v * q : Rat) : ℝ) := by
    rw [sumValue_times, sumValue_ofInt, HostReal.value]
    push_cast
    rfl
  exact (hvalue ▸ ExactReal.isTrunc_trunc _).unique (isTrunc_of_bounds _ _ _ le_rfl le_rfl rfl)

/-- Settles O39: with no channel active the loop leaves `startTick` as it is. -/
theorem tickWithoutChannels : Obligations.TickWithoutChannels := by
  unfold Obligations.TickWithoutChannels
  intro s chip hs hstatus i seed send
  have hidle : runChannels (startTick i) = startTick i := runChannels_of_inactive fun c => by
    rw [(startTick_sameFor i c).active, ChipInstance.active_eq, hstatus]
    exact BitVec.getLsbD_zero
  have hsend : ∀ r side, (runChannels (startTick i)).routed r side = send r side := fun r side => by
    rw [routed_runChannels, hidle, startTick, ite_self]
    rfl
  refine ⟨fun r q hq => by rw [hq]; exact trunc_ofInt_times_rat seed q, runsOn_tick hs (i.tick_frame hsend) ?_⟩
  rw [ChipInstance.tick, hidle]
  exact ⟨rfl, startTick_ramSample i⟩

end Sys2Proof
end

section
/-! The resampler (R215 to R221; O40, O41, O43): the number of native ticks, each native frame as the frame of a tick,
and what `UPDATE` answers. -/

namespace Sys2Proof

open Machine

theorem nativeTicks_le_capTicks (clockHz : Nat) (hp : HostParams) (m : Nat) :
    Config.nativeTicks clockHz hp m ≤ Config.capTicks clockHz hp := by
  unfold Config.nativeTicks
  split
  next => exact Nat.min_le_right _ _
  next => exact Nat.min_le_right _ _

/-- Settles O43. -/
theorem nativeTickCount : Obligations.NativeTickCount := by
  unfold Obligations.NativeTickCount
  exact fun clockHz hp m => ⟨nativeTicks_pos clockHz hp m, nativeTicks_le_capTicks clockHz hp m⟩

theorem Machine.ChipInstance.update_of_disabled {i : ChipInstance} (h : i.enabled = false) (n : Nat) (out : List Frame)
    (m : Nat) : i.update n out m = (i, out) := by
  rw [ChipInstance.update, h, if_neg Bool.false_ne_true]

/-- R218, R220: both passes. -/
theorem Machine.ChipInstance.update_of_enabled {i : ChipInstance} (h : i.enabled = true) (n : Nat) (out : List Frame)
    (m : Nat) : i.update n out m = (i.afterTicks n, mixBuffer (i.ticks n).2 m 0 out) := by
  rw [ChipInstance.update, if_pos h, ← (ticks_spec n i).1]

/-- R220: the native frame a host frame takes is never past the ticks run. -/
theorem mul_div_lt_of_lt {j m n : Nat} (hn : 1 ≤ n) (hj : j < m) : j * n / m < n :=
  Nat.div_lt_of_lt_mul (Nat.mul_lt_mul_of_pos_right hj hn)

/-- R218, R220: host frame `j` takes the frame of the tick after `floor(j * n / m)` ticks. -/
theorem nativeFrame_ticks (i : ChipInstance) {j m n : Nat} (hn : 1 ≤ n) (hj : j < m) :
    nativeFrame (i.ticks n).2 m j = (i.afterTicks (j * n / m)).tick.2 := by
  obtain ⟨-, hlength, hframes⟩ := ticks_spec n i
  rw [nativeFrame, hlength, List.getD_eq_getElem?_getD, hframes _ (mul_div_lt_of_lt hn hj), Option.getD_some]

/-- R215: with a buffer long enough, `UPDATE` answers the buffer its two passes give and leaves the instance as they
do. -/
theorem runsOn_update {s : State} {chip m : Nat} {out mixed : List Frame} {hp : HostParams} {j : ChipInstance}
    (hs : s.Ready chip) (hm : m ≤ out.length)
    (hupdate : (s.chip chip).update (Config.nativeTicks (s.chip chip).clockHz hp m) out m = (j, mixed)) :
    RunsOn (exec (.update chip out m hp) s) s chip (.buffer mixed) (· = j) := by
  rw [exec, execUpdate, withChip_ready hs, if_neg (Nat.not_lt.2 hm), hupdate]
  exact runsOn_finish hs.1 rfl

/-- Settles O40. -/
theorem updateDisabled : Obligations.UpdateDisabled := by
  unfold Obligations.UpdateDisabled
  intro s chip out m hp hs hm hdisabled
  exact runsOn_update hs hm (ChipInstance.update_of_disabled hdisabled _ out m)

/-- Settles O41: the second pass, frame by frame, over the frames of the first; a host frame below `m` means a positive
request, so the index `floor(j * n / m)` falls among the `n` ticks run. -/
theorem updateMixesTicks : Obligations.UpdateMixesTicks := by
  unfold Obligations.UpdateMixesTicks
  intro s chip out m hp hs hm i n
  refine ⟨runsOn_tick hs rfl rfl, fun henabled => ?_⟩
  obtain ⟨hlength, hframes⟩ := mixBuffer_spec (i.ticks n).2 m 0 out
  simp only [Nat.zero_add] at hframes
  refine ⟨mixBuffer (i.ticks n).2 m 0 out, hlength, fun j hj => ?beyond, fun j hj => ?mixed, ?runs⟩
  case beyond => simp [hframes, Nat.not_lt.2 hj]
  case mixed =>
    have hn : 1 ≤ n := nativeTicks_pos i.clockHz hp m (Nat.one_le_of_lt hj)
    simp only [hframes, if_pos hj, nativeFrame_ticks i hn hj]
    rfl
  case runs => exact runsOn_update hs hm (ChipInstance.update_of_enabled henabled n out m)

end Sys2Proof
end

section
/-! State persistence (R230 to R236): what Snapshot answers (O44), what Restore makes of an instance (O45), and the one
after the other (O47). -/

namespace Sys2Proof.Machine

/-- A snapshot's limit is the window's, by the zone select (R51, R231). -/
theorem ChipInstance.snapshot_eq (i : ChipInstance) :
    i.snapshot = { posLatch := i.posLatch, regs := i.regs, ramSamples := i.ramSamples, ram := i.ram, chan := i.chan,
                   flags := i.flags, reverbCursor := i.reverbCursor, zoneCursor := i.zoneCursor,
                   zoneLimit := if i.reg 0x22E = 0x80 then 0x4000 else 0x20000 } := by
  rw [snapshot, zoneLimit_eq]

/-- What Restore needs of the configuration is the clock, which gives the RAM's length (R10, R235). -/
theorem ChipInstance.Inv.accepts_snapshot {i j : ChipInstance} (h : j.Inv) (hclock : i.clockHz = j.clockHz) :
    i.Accepts j.snapshot where
  ramSize := congrArg ramSamplesOf hclock.symm
  regs := h.memories.1
  ram := h.memories.2.1
  zoneCursor := j.zoneLimit_eq ▸ h.zoneCursor
  reverbCursor := h.reverbCursor
  channels := h.channels

/-- Restore replaces run-time fields only (R233). -/
theorem ChipInstance.sameConfig_restore (i : ChipInstance) (d : Snapshot) : (i.restore d).SameConfig i :=
  ⟨rfl, rfl, rfl, rfl, rfl, rfl, rfl, rfl, rfl⟩

/-- The configuration and what a snapshot holds are all of an instance (R231, R232). -/
theorem ChipInstance.restore_snapshot {i j : ChipInstance} (h : i.SameConfig j) : i.restore j.snapshot = j := by
  obtain ⟨hinit, hclock, hrom, hsize, hmask, hgain, hvolume, hroute, hcallback⟩ := h
  rw [restore, hinit, hclock, hrom, hsize, hmask, hgain, hvolume, hroute, hcallback]
  rfl

/-- R230: `SNAPSHOT` answers the instance's snapshot and leaves the instance as it is. -/
theorem runsOn_snapshot {s : State} {chip : Nat} (hs : s.Ready chip) :
    RunsOn (exec (.snapshot chip) s) s chip (.snapshot (s.chip chip).snapshot) (· = s.chip chip) := by
  rw [exec, execSnapshot]
  exact runsOn_onChip hs _ rfl rfl

/-- R233: `RESTORE` of data it accepts. -/
theorem runsOn_restore {s : State} {chip : Nat} (hs : s.Ready chip) {d : Snapshot} (hd : (s.chip chip).Accepts d)
    {p : ChipInstance → Prop} (hp : p ((s.chip chip).restore d)) :
    RunsOn (exec (.restore chip d) s) s chip .done p := by
  rw [exec, execRestore, withChip_ready hs, (snapshotDefect_none _ d).2 hd]
  exact runsOn_finish hs.1 hp

end Sys2Proof.Machine

namespace Sys2Proof

open Machine

/-- Settles O44. -/
theorem snapshotHolds : Obligations.SnapshotHolds := by
  unfold Obligations.SnapshotHolds
  intro s chip hs i
  rw [← i.snapshot_eq]
  exact runsOn_snapshot hs

/-- Settles O45: the window of the restored instance is that of its own zone select, which is the data's. -/
theorem restoreReplaces : Obligations.RestoreReplaces := by
  unfold Obligations.RestoreReplaces
  intro s chip d hs hd
  exact runsOn_restore hs hd ⟨rfl, rfl, rfl, rfl, rfl, rfl, rfl, ChipInstance.zone_eq _, ChipInstance.zoneLimit_eq _,
    ChipInstance.sameConfig_restore _ d⟩

/-- Settles O47: a legal instance's own snapshot is accepted wherever the RAM is as long, and with the configuration the
same it determines every field. -/
theorem snapshotRoundTrip : Obligations.SnapshotRoundTrip := by
  unfold Obligations.SnapshotRoundTrip
  intro s u chip hs hu hinv hconfig
  obtain ⟨t, hexec, -, hanswer, -⟩ := runsOn_snapshot hs
  have haccepts : (u.chip chip).Accepts (s.chip chip).snapshot := by
    obtain ⟨-, hclock, -⟩ := hconfig
    exact hinv.accepts_snapshot hclock
  exact ⟨_, ⟨t, hexec, hanswer⟩, runsOn_restore hu haccepts (ChipInstance.restore_snapshot hconfig)⟩

end Sys2Proof
end

section
/-! The host's configuration operations (R240 to R248): which instance an operation reaches, and what Init, Exit and the
three settings make of it (O7, O48, O50, O52). -/

namespace Sys2Proof.Machine

/-! ### Init -/

/-- R240: `INIT` with legal arguments replaces the instance. -/
theorem exec_init_of_legal (s : State) {chip clockHz romLen : Nat} {rom : List Byte} (hchip : chip < Config.maxChips)
    (hclock : 1 ≤ clockHz) (hlen : 1 ≤ romLen) (hbuffer : romLen ≤ rom.length) (k d : Bool) :
    exec (.init chip clockHz rom romLen k d) s =
      finish chip s (ChipInstance.afterInit clockHz rom romLen k d) .done := by
  rw [exec, execInit, withIndex, if_pos hchip, if_neg (Nat.not_lt.2 hclock), if_neg (Nat.not_lt.2 hlen),
    if_neg (Nat.not_lt.2 hbuffer)]

section
variable (clockHz : Nat) (rom : List Byte) (romLen : Nat) (k d : Bool)

@[simp] theorem ChipInstance.reg_afterInit (a : Nat) : (afterInit clockHz rom romLen k d).reg a = 0 := rfl

@[simp] theorem ChipInstance.ramSample_afterInit (a : Nat) : (afterInit clockHz rom romLen k d).ramSample a = 0 := rfl

@[simp] theorem ChipInstance.latch_afterInit (c : Fin 8) (l : Fin 3) :
    (afterInit clockHz rom romLen k d).latch c l = 0 := by
  simp [latch, afterInit, blank]

@[simp] theorem ChipInstance.channel_afterInit (c : Fin 8) :
    (afterInit clockHz rom romLen k d).channel c = ⟨0, 0, 0, 0⟩ := by
  simp [channel, afterInit, blank]

@[simp] theorem ChipInstance.gain_afterInit (c : Fin 8) : (afterInit clockHz rom romLen k d).gain[c.val] = .rat 1 := by
  simp [afterInit, blank]

@[simp] theorem ChipInstance.zone_afterInit : (afterInit clockHz rom romLen k d).zone = .rom 0 := by
  simp [zone_eq]

@[simp] theorem ChipInstance.zoneLimit_afterInit : (afterInit clockHz rom romLen k d).zoneLimit = 0x20000 := by
  simp [zoneLimit_eq]

/-- The ROM of an instance after Init is the host's buffer up to `romLen` (R54, R243). -/
theorem ChipInstance.getElem?_rom_afterInit {rom : List Byte} {romLen : Nat} (hbuffer : romLen ≤ rom.length) {a : Nat}
    (ha : a < romLen) : rom[a]? = some (Memory.read (afterInit clockHz rom romLen k d).rom a) := by
  rw [read_rom_afterInit clockHz rom romLen k d ha, List.getElem?_eq_getElem (ha.trans_le hbuffer),
    List.getD_eq_getElem]

end

/-! ### Exit -/

/-- R244, R282: after `EXIT` every instance is as before its first Init. -/
theorem chip_of_exec_exit {s t : State} (h : exec .exit s = .next t) (id : Nat) : t.chip id = ChipInstance.blank := by
  obtain rfl := Host.Outcome.next.inj h
  exact State.reset_chip id

/-- R256: every operation but Init faults on an instance that is not initialised. -/
theorem exec_notInitialised {i : Instr} {s : State} {id : Nat} (ht : i.target = some id) (hid : id < Config.maxChips)
    (hinit : (s.chip id).initialised = false) (hn : ∀ clockHz rom romLen k d, i ≠ .init id clockHz rom romLen k d) :
    exec i s = .fault (.notInitialised id) := by
  obtain ⟨part, hexec⟩ := exec_withChip i s ht hn
  rw [hexec, withChip_notInitialised hid hinit]

/-! ### The settings -/

/-- R245: `SETGAIN` of a real that is not negative. -/
theorem exec_setgain_of_legal {s : State} {chip : Nat} (hs : s.Ready chip) (c : Fin 8) {g : HostReal}
    (hg : 0 ≤ g.value) :
    exec (.setgain chip c g) s =
      finish chip s { s.chip chip with gain := (s.chip chip).gain.setIfInBounds c g } .done := by
  have hsign : ¬ g.isNegative = true := fun hneg => not_lt.2 hg (g.isNegative_iff.1 hneg)
  rw [exec, execSetgain, withChip_ready hs, if_neg (by omega), if_neg hsign]

/-- R246: `SETROUTE` of a route, any real and any mask. -/
theorem exec_setroute_of_legal {s : State} {chip : Nat} (hs : s.Ready chip) (r : Fin 2) (v : HostReal) (m : BitVec 2) :
    exec (.setroute chip r v m.toNat) s =
      finish chip s { s.chip chip with volume := (s.chip chip).volume.setIfInBounds r v
                                       routeMask := (s.chip chip).routeMask.setIfInBounds r m } .done := by
  rw [exec, execSetroute, withChip_ready hs, if_neg (by omega), if_neg (by omega), BitVec.ofNat_toNat,
    BitVec.setWidth_eq]

/-- A store into a vector, read at each index of it. -/
theorem getElem_setIfInBounds_fin {α : Type} {n : Nat} (xs : Vector α n) (c e : Fin n) (x : α) :
    (xs.setIfInBounds c x)[e.val] = if e = c then x else xs[e.val] := by
  rw [Vector.getElem_setIfInBounds]
  simp only [Fin.ext_iff, eq_comm]

end Sys2Proof.Machine

namespace Sys2Proof

open Machine

/-- Settles O7: a completed operation has its effect on the instance it names and on no other. -/
theorem otherInstancesUntouched : Obligations.OtherInstancesUntouched := by
  unfold Obligations.OtherInstancesUntouched
  intro i s t id htarget hexec k hk
  rw [exec_chip htarget hexec, if_neg hk]

/-- Settles O48, field by field of the instance after Init. -/
theorem initSetsEverything : Obligations.InitSetsEverything := by
  unfold Obligations.InitSetsEverything
  intro s chip clockHz rom romLen k d hchip hclock hlen hbuffer
  rw [exec_init_of_legal s hchip hclock hlen hbuffer]
  refine runsOn_finish hchip ⟨rfl, rfl, rfl, ?rom, romMaskOf_spec romLen hlen, rfl, ?ram, ?regs, ?latches, ?channels,
    ?gains, rfl, rfl, rfl, rfl, rfl, rfl, ?zone, ?limit⟩
  case rom => exact fun _ => ChipInstance.getElem?_rom_afterInit clockHz k d hbuffer
  case ram => exact ChipInstance.ramSample_afterInit clockHz rom romLen k d
  case regs => exact ChipInstance.reg_afterInit clockHz rom romLen k d
  case latches => exact ChipInstance.latch_afterInit clockHz rom romLen k d
  case channels => exact ChipInstance.channel_afterInit clockHz rom romLen k d
  case gains => exact ChipInstance.gain_afterInit clockHz rom romLen k d
  case zone => exact ChipInstance.zone_afterInit clockHz rom romLen k d
  case limit => exact ChipInstance.zoneLimit_afterInit clockHz rom romLen k d

/-- Settles O50: every instance is blank, and so not initialised. -/
theorem exitEndsAll : Obligations.ExitEndsAll := by
  unfold Obligations.ExitEndsAll
  intro s
  obtain ⟨t, hexec, hpending, hlog, hanswer⟩ :
      ∃ t, exec .exit s = .next t ∧ t.pending = s.pending ∧ t.panLog = s.panLog ∧ t.response = .done :=
    ⟨_, rfl, rfl, rfl, rfl⟩
  have hblank := chip_of_exec_exit hexec
  refine ⟨t, hexec, fun id => ?_, hanswer, hpending, hlog, fun i id htarget hid hinit => ?_⟩
  · rw [hblank]
    exact ⟨rfl, rfl, rfl⟩
  · exact exec_notInitialised htarget hid (by rw [hblank]; rfl) hinit

/-- Settles O52: each setting stores into its own vector at the index named. -/
theorem hostSettings : Obligations.HostSettings := by
  unfold Obligations.HostSettings
  intro s chip hs i
  refine ⟨fun c g hg => ?gain, fun r v m => ?route, fun on => ?callback⟩
  case gain =>
    rw [exec_setgain_of_legal hs c hg]
    exact runsOn_finish hs.1 ⟨rfl, fun e => getElem_setIfInBounds_fin _ c e g⟩
  case route =>
    rw [exec_setroute_of_legal hs r v m]
    exact runsOn_finish hs.1
      ⟨rfl, fun e => ⟨getElem_setIfInBounds_fin _ r e v, getElem_setIfInBounds_fin _ r e m⟩⟩
  case callback =>
    rw [exec, execSetpancb]
    exact runsOn_updateChip hs _ rfl

end Sys2Proof
end

section
/-! The six faults (R255 to R267): a chip index out of range (O5), an instance that is not initialised (O6), a bus
offset above `0x22F` (O3), arguments out of range (O49, O53), a short buffer (O42) and data that is no snapshot (O46). -/

namespace Sys2Proof.Machine

/-! ### The shared precondition, and what passes every check -/

/-- R266: the index is checked before the initialised bit, and both before anything else. -/
theorem withChip_eq (id : Nat) (s : State) (k : ChipInstance → Result) :
    withChip id s k =
      if Config.maxChips ≤ id then .fault (.badChip id)
      else if (s.chip id).initialised then k (s.chip id)
      else .fault (.notInitialised id) := by
  split_ifs with hid hinit
  · exact withChip_badChip hid s k
  · exact withChip_ready ⟨Nat.not_le.1 hid, hinit⟩ k
  · exact withChip_notInitialised (Nat.not_le.1 hid) (Bool.eq_false_of_not_eq_true hinit) k

/-- R255: every operation checks its chip index first. -/
theorem exec_badChip {i : Instr} {id : Nat} (ht : i.target = some id) (hid : Config.maxChips ≤ id) (s : State) :
    exec i s = .fault (.badChip id) := by
  by_cases hn : ∃ clockHz rom romLen k d, i = .init id clockHz rom romLen k d
  · obtain ⟨clockHz, rom, romLen, k, d, rfl⟩ := hn
    exact withIndex_badChip hid _
  · push Not at hn
    obtain ⟨part, hexec⟩ := exec_withChip i s ht hn
    rw [hexec, withChip_badChip hid]

/-- The converse of `exec_effect`: on a ready instance an operation that passes its own checks completes. -/
theorem exec_completes {i : Instr} {s : State} {id : Nat} (ht : i.target = some id) (hs : s.Ready id)
    (hp : i.Passes (s.chip id)) : ∃ t, exec i s = .next t := by
  cases i <;> simp only [Instr.target, Option.some.injEq, reduceCtorEq] at ht <;> subst ht
  case init =>
    obtain ⟨hclock, hlen, hbuffer⟩ := hp
    exact ⟨_, exec_init_of_legal s hs.1 hclock hlen hbuffer _ _⟩
  case wrPlain => exact ⟨_, (exec_wrPlain_of_lt hs hp _).trans (storeReg_ready hs _ _)⟩
  case rdPlain => exact ⟨_, exec_rdPlain_of_lt hs hp⟩
  case setgain =>
    obtain ⟨hchannel, hgain⟩ := hp
    rw [exec, execSetgain, withChip_ready hs, if_neg (Nat.not_lt.2 hchannel), if_neg (Bool.not_eq_true _ ▸ hgain)]
    exact ⟨_, rfl⟩
  case setroute =>
    obtain ⟨hroute, hmask⟩ := hp
    rw [exec, execSetroute, withChip_ready hs, if_neg (Nat.not_lt.2 hroute), if_neg (Nat.not_lt.2 hmask)]
    exact ⟨_, rfl⟩
  case update =>
    rw [exec, execUpdate, withChip_ready hs, if_neg (Nat.not_lt.2 hp)]
    exact ⟨_, rfl⟩
  case restore =>
    rw [exec, execRestore, withChip_ready hs, (snapshotDefect_none _ _).2 hp]
    exact ⟨_, rfl⟩
  case wrApan =>
    rw [exec, execWrApan, withChip_ready hs]
    exact ⟨_, rfl⟩
  all_goals
    simp only [exec, execWrPos0, execWrPos1, execWrPos2, execWrKon, execWrKoff, execWrKstat, execWrSdata, execWrZone,
      execWrCtrl, execWrMode, execWrChan, execRdSdata, execFmtPcm8, execFmtPcm16, execFmtDpcm4, execFmtNone, execReset,
      execSetpancb, execSnapshot, execTick, execChtick, execKeyon, execKeyoff, storeReg, runDecode, updateChip]
    exact ⟨_, onChip_ready hs _⟩

/-! ### The initialised bit -/

/-- What changes only registers leaves the initialised bit. -/
theorem ChipInstance.initialised_of_regs {i j : ChipInstance} (h : j = { i with regs := j.regs }) :
    j.initialised = i.initialised := by
  rw [h]

@[simp] theorem ChipInstance.initialised_writePos (i : ChipInstance) (c : Fin 8) (k : Fin 3) (data : Byte) :
    (i.writePos c k data).initialised = i.initialised := by
  unfold writePos
  split <;> rfl

@[simp] theorem ChipInstance.initialised_zoneWrite (i : ChipInstance) (b : Byte) :
    (i.zoneWrite b).initialised = i.initialised := by
  unfold zoneWrite
  split <;> rfl

@[simp] theorem ChipInstance.initialised_tick (i : ChipInstance) : i.tick.1.initialised = i.initialised := by
  have hrun : (runChannels (startTick i)).chip.initialised = i.initialised := by
    rw [runChannels_chip]
    rfl
  exact hrun

@[simp] theorem initialised_channelTick (x : Mixing) (c : Fin 8) :
    (channelTick x c).chip.initialised = x.chip.initialised := by
  rw [channelTick_chip]

@[simp] theorem ChipInstance.initialised_update (i : ChipInstance) (n : Nat) (out : List Frame) (m : Nat) :
    (i.update n out m).1.initialised = i.initialised := by
  unfold update
  split
  next =>
    dsimp only
    rw [(ticks_spec n i).1]
    exact Function.Iterate.rec (fun j : ChipInstance => j.initialised = i.initialised) rfl
      (fun j hj => j.initialised_tick.trans hj) n
  next => rfl

/-! ### Arguments -/

/-- R260: what `INIT` checks of its arguments, and in which order. -/
theorem exec_init_of_index (s : State) {chip : Nat} (hchip : chip < Config.maxChips) (clockHz : Nat) (rom : List Byte)
    (romLen : Nat) (k d : Bool) :
    exec (.init chip clockHz rom romLen k d) s =
      if clockHz < 1 then .fault (.badArgument (.initClock clockHz))
      else if romLen < 1 then .fault (.badArgument (.initRomLen romLen))
      else if rom.length < romLen then .fault (.badArgument (.initRomBuffer rom.length romLen))
      else finish chip s (ChipInstance.afterInit clockHz rom romLen k d) .done :=
  if_pos hchip

/-- R259: the faults of `SETGAIN`, the channel checked first. -/
theorem exec_setgain_fault_iff {s : State} {chip : Nat} (hs : s.Ready chip) (c : Nat) (g : HostReal) (f : Fault) :
    exec (.setgain chip c g) s = .fault f ↔
      (f = .badArgument (.gainChannel c) ∧ 7 < c) ∨ (f = .badArgument (.gainValue g) ∧ c ≤ 7 ∧ g.value < 0) := by
  rw [exec, execSetgain, withChip_ready hs, ← HostReal.isNegative_iff]
  split_ifs with hchannel hgain
  · simp [hchannel, eq_comm (a := f), Nat.not_le.2 hchannel]
  · simp [hchannel, hgain, eq_comm (a := f), Nat.not_lt.1 hchannel]
  · simp [hchannel, hgain, finish]

/-- R259: the faults of `SETROUTE`, the route checked first. -/
theorem exec_setroute_fault_iff {s : State} {chip : Nat} (hs : s.Ready chip) (r : Nat) (v : HostReal) (m : Nat)
    (f : Fault) :
    exec (.setroute chip r v m) s = .fault f ↔
      (f = .badArgument (.routeIndex r) ∧ 1 < r) ∨ (f = .badArgument (.routeMask m) ∧ r ≤ 1 ∧ 3 < m) := by
  rw [exec, execSetroute, withChip_ready hs]
  split_ifs with hroute hmask
  · simp [hroute, eq_comm (a := f), Nat.not_le.2 hroute]
  · simp [hroute, hmask, eq_comm (a := f), Nat.not_lt.1 hroute]
  · simp [hroute, hmask, finish]

end Sys2Proof.Machine

namespace Sys2Proof

open Machine

/-! ### Bus words -/

theorem decode_bus {r : Request} {t : BitVec 19} (h : r.word = .bus t) : decode r = decodeBus r.chip t := by
  simp [decode, h]

/-- R258: no write above `0x22F` decodes. -/
theorem decodeWrite_of_invalid (chip : Nat) {offset : BitVec 10} (data : Byte) (h : 0x22F < offset.toNat) :
    decodeWrite chip offset data = .error (.badOffset offset) := by
  have hne : ∀ o : BitVec 10, o.toNat ≤ 0x22F → offset ≠ o := by
    rintro o ho rfl
    omega
  rw [decodeWrite, if_neg (by omega), if_neg (hne _ (by decide)), if_neg (hne _ (by decide)),
    if_neg (hne _ (by decide)), if_neg (hne _ (by decide)), if_neg (hne _ (by decide)), if_neg (hne _ (by decide)),
    if_neg (hne _ (by decide)), if_neg (by omega), if_neg (by omega)]

/-- R258: no read above `0x22F` decodes. -/
theorem decodeRead_of_invalid (chip : Nat) {offset : BitVec 10} (h : 0x22F < offset.toNat) :
    decodeRead chip offset = .error (.badOffset offset) := by
  have hport : offset ≠ 0x22D := by
    rintro rfl
    exact absurd h (by decide)
  rw [decodeRead, if_neg hport, if_neg (by omega)]

theorem decodeBus_of_invalid (chip : Nat) {t : BitVec 19} (h : 0x22F < (busOffset t).toNat) :
    decodeBus chip t = .error (.badOffset (busOffset t)) := by
  rw [decodeBus, decodeWrite_of_invalid chip _ h, decodeRead_of_invalid chip h, ite_self]

/-- A well-formed operation of the bus names the chip of its request and has nothing to check but its chip (R258). -/
theorem Instr.passes_of_encode_bus {i : Instr} {t : BitVec 19} (hwf : i.wellFormed = true)
    (h : (encode i).word = .bus t) : i.target = some (encode i).chip ∧ ∀ j, i.Passes j := by
  cases i
  case wrPlain => exact ⟨rfl, fun _ => lt_of_isPlainOffset hwf⟩
  case rdPlain => exact ⟨rfl, fun _ => ((isReadOffset_iff _).1 hwf).2⟩
  case wrPos0 | wrPos1 | wrPos2 | wrApan | wrKon | wrKoff | wrKstat | wrSdata | wrZone | wrCtrl | wrMode | wrChan |
      rdSdata =>
    exact ⟨rfl, fun _ => trivial⟩
  all_goals cases h

theorem decodeBus_passes {chip : Nat} {t : BitVec 19} {i : Instr} (h : decodeBus chip t = .ok i) :
    i.target = some chip ∧ ∀ j, i.Passes j := by
  unfold decodeBus at h
  split at h
  · obtain ⟨hwf, hword⟩ := decodeWrite_ok h
    have hpasses := Instr.passes_of_encode_bus hwf (congrArg Request.word hword)
    rwa [hword] at hpasses
  · obtain ⟨hwf, hword⟩ := decodeRead_ok h
    have hpasses := Instr.passes_of_encode_bus hwf (congrArg Request.word hword)
    rwa [hword] at hpasses

/-! ### What an operation makes of the initialised bit -/

/-- R256: no operation but `INIT` has an effect on the initialised bit of the instance it names. -/
theorem Instr.initialised_effect {i : Instr}
    (hn : ∀ chip clockHz rom romLen k d, i ≠ .init chip clockHz rom romLen k d) (j : ChipInstance) :
    (i.effect j).initialised = j.initialised := by
  cases i
  case init => exact absurd rfl (hn _ _ _ _ _ _)
  case wrPos0 | wrPos1 | wrPos2 => exact j.initialised_writePos _ _ _
  case wrKon =>
    exact (ChipInstance.setReg_initialised _ _ _).trans
      (ChipInstance.initialised_of_regs (forMask_eq _ (ChipInstance.startChannel_eq _) j))
  case wrKoff =>
    exact (ChipInstance.setReg_initialised _ _ _).trans
      (ChipInstance.initialised_of_regs (forMask_eq _ ChipInstance.keyOff_eq j))
  case wrSdata => exact j.initialised_zoneWrite _
  case rdSdata => rw [Instr.effect]; split <;> rfl
  case fmtPcm8 | fmtPcm16 | fmtDpcm4 | fmtNone => exact ChipInstance.initialised_of_regs (j.endSample_eq _ _)
  case update => exact j.initialised_update _ _ _
  case tick => exact j.initialised_tick
  case chtick => exact initialised_channelTick ⟨j, _, _⟩ _
  case keyon => exact ChipInstance.initialised_of_regs (j.keyOn_eq _)
  case keyoff => exact ChipInstance.initialised_of_regs (j.keyOff_eq _)
  all_goals rfl

/-- R256: only Init and Exit change an initialised bit. -/
theorem initialised_of_exec {i : Instr} {s t : State} (h : exec i s = .next t) (hexit : i ≠ .exit)
    (hn : ∀ chip clockHz rom romLen k d, i ≠ .init chip clockHz rom romLen k d) (id : Nat) :
    (t.chip id).initialised = (s.chip id).initialised := by
  obtain htarget | ⟨chip, htarget⟩ := Option.eq_none_or_eq_some i.target
  · exact absurd (Instr.eq_exit_of_target htarget) hexit
  · rw [exec_chip htarget h]
    split
    next hid => rw [Instr.initialised_effect hn, hid]
    next => rfl

/-! ### The statements -/

/-- Settles O3: above `0x22F` the word does not decode and only the shared precondition comes first; up to `0x22F` it
decodes to an operation with nothing left to check. -/
theorem busOffsetRange : Obligations.BusOffsetRange := by
  unfold Obligations.BusOffsetRange
  intro s r rest t hs hword
  refine ⟨fun hoffset => ?above, fun hoffset hready => ?valid⟩
  case above =>
    rw [step_of_decode_error hs ((decode_bus hword).trans (decodeBus_of_invalid r.chip hoffset)), rejectRequest]
    exact withChip_eq r.chip (s.withPending rest) _
  case valid =>
    obtain ⟨i, hdecode⟩ := decodeBus_of_valid r.chip hoffset
    obtain ⟨htarget, hpasses⟩ := decodeBus_passes hdecode
    obtain ⟨u, hexec⟩ := exec_completes (s := s.withPending rest) htarget hready (hpasses _)
    exact ⟨u, (step_of_decode_ok hs ((decode_bus hword).trans hdecode)).trans hexec, trivial⟩

/-- Settles O5. -/
theorem badChipFault : Obligations.BadChipFault := by
  unfold Obligations.BadChipFault
  exact fun i s id htarget hid => exec_badChip htarget hid s

/-- Settles O6: the fault, power-up, and the three cases of a completed operation. -/
theorem notInitialisedFault : Obligations.NotInitialisedFault := by
  unfold Obligations.NotInitialisedFault
  refine ⟨fun i s id htarget hid hinit hn => exec_notInitialised htarget hid hinit hn, fun id => ?reset,
    fun i s t id hexec => ?completed⟩
  case reset =>
    rw [State.reset_chip]
    rfl
  case completed =>
    split
    next chip _ _ _ _ _ =>
      rw [exec_chip rfl hexec]
      split <;> rfl
    next =>
      rw [chip_of_exec_exit hexec]
      rfl
    next hinit hexit => exact initialised_of_exec hexec hexit hinit id

/-- Settles O46: data that is not accepted has a defect, and the fault names it. -/
theorem badSnapshotFault : Obligations.BadSnapshotFault := by
  unfold Obligations.BadSnapshotFault
  intro s chip d hs hd
  obtain ⟨which, hdefect⟩ := Option.ne_none_iff_exists'.1 (mt (snapshotDefect_none _ d).1 hd)
  refine ⟨which, ?_⟩
  rw [exec, execRestore, withChip_ready hs, hdefect]

/-- Settles O49: legal arguments complete, and each of the three others has its own fault. -/
theorem initArgumentFault : Obligations.InitArgumentFault := by
  unfold Obligations.InitArgumentFault
  intro s chip clockHz rom romLen k d hchip
  rw [exec_init_of_index s hchip]
  split_ifs with hclock hlen hbuffer
  · exact iff_of_true ⟨_, rfl⟩ (.inl hclock)
  · exact iff_of_true ⟨_, rfl⟩ (.inr (.inl hlen))
  · exact iff_of_true ⟨_, rfl⟩ (.inr (.inr hbuffer))
  · exact iff_of_false (fun ⟨_, hfault⟩ => by cases hfault) (by tauto)

/-- Settles O53, from the faults of the two settings. -/
theorem settingArgumentFault : Obligations.SettingArgumentFault := by
  unfold Obligations.SettingArgumentFault
  intro s chip hs
  refine ⟨fun c g => ?gain, fun r v m => ?route⟩
  case gain =>
    refine ⟨?_, fun f hf => ((exec_setgain_fault_iff hs c g f).1 hf).imp_right (And.imp_right And.right)⟩
    simp only [exec_setgain_fault_iff hs, exists_or, exists_eq_left]
    grind
  case route =>
    refine ⟨?_, fun f hf => ((exec_setroute_fault_iff hs r v m f).1 hf).imp_right (And.imp_right And.right)⟩
    simp only [exec_setroute_fault_iff hs, exists_or, exists_eq_left]
    omega

/-- Settles O42. -/
theorem shortBufferFault : Obligations.ShortBufferFault := by
  unfold Obligations.ShortBufferFault
  intro s chip out m hp hs hshort
  rw [exec, execUpdate, withChip_ready hs, if_pos hshort]

end Sys2Proof
end

section
/-! Reset (R280, R281) and the idle machine (R283): what `RESET` clears and keeps (O51), and that nothing runs of itself
(O2). -/

namespace Sys2Proof.Machine

/-! ### Reset -/

/-- `RESET` runs `resetRun` on the instance it names. -/
theorem exec_reset (chip : Nat) (s : State) : exec (.reset chip) s = updateChip chip s ChipInstance.resetRun := by
  rw [exec, execReset]

section
variable (i : ChipInstance)

@[simp] theorem ChipInstance.reg_resetRun (a : Nat) : i.resetRun.reg a = 0 := rfl

@[simp] theorem ChipInstance.latch_resetRun (c : Fin 8) (k : Fin 3) : i.resetRun.latch c k = 0 := by
  simp [latch, resetRun]

@[simp] theorem ChipInstance.channel_resetRun (c : Fin 8) : i.resetRun.channel c = ⟨0, 0, 0, 0⟩ := by
  simp [channel, resetRun]

@[simp] theorem ChipInstance.zone_resetRun : i.resetRun.zone = .rom 0 := by
  simp [zone_eq]

@[simp] theorem ChipInstance.zoneLimit_resetRun : i.resetRun.zoneLimit = 0x20000 := by
  simp [zoneLimit_eq]

/-- The RAM is kept because `RESET_CLEARS_RAM` is false (D19). -/
@[simp] theorem ChipInstance.ram_resetRun : i.resetRun.ram = i.ram := rfl

/-- R281: what the host has configured is kept. -/
theorem ChipInstance.sameConfig_resetRun : i.resetRun.SameConfig i :=
  ⟨rfl, rfl, rfl, rfl, rfl, rfl, rfl, rfl, rfl⟩

end

/-! ### The idle machine -/

theorem step_of_pending_nil {s : State} (hs : s.pending = []) : step s = .next s := by
  simp [step, hs]

end Sys2Proof.Machine

namespace Sys2Proof

open Machine

/-- Settles O51, field by field of the instance after Reset. -/
theorem resetClears : Obligations.ResetClears := by
  unfold Obligations.ResetClears
  intro s chip hs i
  rw [exec_reset]
  refine runsOn_updateChip hs _ ⟨?regs, ?latches, ?channels, rfl, rfl, ?zone, ?limit, ?ram, rfl, ?config⟩
  case regs => exact i.reg_resetRun
  case latches => exact i.latch_resetRun
  case channels => exact i.channel_resetRun
  case zone => exact i.zone_resetRun
  case limit => exact i.zoneLimit_resetRun
  case ram => exact i.ram_resetRun
  case config => exact i.sameConfig_resetRun

/-- Settles O2. -/
theorem emptyQueueIdles : Obligations.EmptyQueueIdles := by
  unfold Obligations.EmptyQueueIdles
  exact fun _ hs => step_of_pending_nil hs

end Sys2Proof
end
